-- ==== Sys2Proof/Word.lean ====
section
/-! DEFINITION. The word types of the block and of its register window (00_scope.md R12, R16, R17). -/

namespace Sys2Proof

/-- One byte of a byte string (R17). -/
abbrev Byte := BitVec 8

/-- A byte string of any length, first byte first (R17). -/
abbrev Bytes := List Byte

/-- The word of a bus access and of a command (R80, R120). -/
abbrev Word := BitVec 32

/-- A 16-byte block or data register, byte 0 first (R12). -/
abbrev Block := Vector Byte 16

/-- A Galois field register: bit i is the coefficient of x^i (R12, R41). -/
abbrev FieldReg := BitVec 256

end Sys2Proof
end

