-- ==== Sys2Proof/Syntax.lean ====
section
/-! DEFINITION. The 25 commands (30_encoding.md R126), one constructor per row of the opcode table. IMM is read as an
unsigned integer (R123), so it is a Nat here; KTYPE and NC are those of R124. -/

namespace Sys2Proof

/-- A decoded command. `imm` is IMM, `ktype` is SUB in format K, `nc` is SUB[0] in format D. -/
inductive Instr where
  | nop
  | reset
  | clear
  | setkey (imm : Nat) (ktype : Nat)
  | setmode (imm : Nat)
  | setpad (imm : Nat)
  | waist
  | chnSetiv (imm : Nat)
  | chnEnc (imm : Nat) (nc : Bool)
  | chnDec (imm : Nat) (nc : Bool)
  | chnFine
  | chnFind
  | gfMod
  | gfAdd
  | gfMul
  | gfInv
  | gfDiv
  | gfGmm
  | gcmSetiv (imm : Nat)
  | gcmSettaglen (imm : Nat)
  | gcmAad (imm : Nat)
  | gcmEnc (imm : Nat)
  | gcmDec (imm : Nat)
  | gcmFine
  | gcmFind
deriving DecidableEq, Repr

end Sys2Proof
end

