-- ==== Sys2Proof/WellFormed.lean ====
section
/-! DEFINITION. Which terms of Instr are commands: each operand fits the field that R121 gives it. Legal ranges are
checked by each command's rule, not here (R129). -/

namespace Sys2Proof

/-- IMM is 8 bits (R121, R123). -/
def immFits (imm : Nat) : Bool := decide (imm < 256)

/-- KTYPE is the 4-bit field SUB (R121, R124). -/
def ktypeFits (ktype : Nat) : Bool := decide (ktype < 16)

/-- Every operand of the command fits its field of the command word. -/
def Instr.wf : Instr → Bool
  | .nop => true
  | .reset => true
  | .clear => true
  | .setkey imm ktype => immFits imm && ktypeFits ktype
  | .setmode imm => immFits imm
  | .setpad imm => immFits imm
  | .waist => true
  | .chnSetiv imm => immFits imm
  | .chnEnc imm _ => immFits imm
  | .chnDec imm _ => immFits imm
  | .chnFine => true
  | .chnFind => true
  | .gfMod => true
  | .gfAdd => true
  | .gfMul => true
  | .gfInv => true
  | .gfDiv => true
  | .gfGmm => true
  | .gcmSetiv imm => immFits imm
  | .gcmSettaglen imm => immFits imm
  | .gcmAad imm => immFits imm
  | .gcmEnc imm => immFits imm
  | .gcmDec imm => immFits imm
  | .gcmFine => true
  | .gcmFind => true

end Sys2Proof
end

