-- ==== Sys2Proof/Decode.lean ====
section
/-! DEFINITION. The command word (30_encoding.md R120 to R128): its fields, the four formats, the opcode map, a total
decoder that rejects by name, and the encoder written from the same tables. -/

namespace Sys2Proof

/-- The two ways a word does not decode (R127, R128). -/
inductive DecodeError where
  | badOpcode
  | reservedBits
deriving DecidableEq, Repr

/-- The four formats of R122. -/
inductive Format where
  | z
  | i
  | k
  | d
deriving DecidableEq, Repr

/-- The fields of a command word (R121). -/
structure Fields where
  opc : Nat
  imm : Nat
  sub : Nat
  rsv : Nat
deriving DecidableEq, Repr

/-- OPC is [7:0], IMM is [15:8], SUB is [19:16], RSV is [31:20] (R121). -/
def fieldsOf (w : Word) : Fields where
  opc := (w.extractLsb' 0 8).toNat
  imm := (w.extractLsb' 8 8).toNat
  sub := (w.extractLsb' 16 4).toNat
  rsv := (w.extractLsb' 20 12).toNat

/-- A word from its fields, RSV = 0. -/
def wordOf (opc imm sub : Nat) : Word :=
  BitVec.ofNat 12 0 ++ BitVec.ofNat 4 sub ++ BitVec.ofNat 8 imm ++ BitVec.ofNat 8 opc

/-- The must-be-zero mask column of R122. -/
def Format.mustBeZero : Format → Word
  | .z => 0xFFFFFF00#32
  | .i => 0xFFFF0000#32
  | .k => 0xFFF00000#32
  | .d => 0xFFFE0000#32

/-- The match mask column of R122. -/
def Format.matchMask : Format → Word
  | .z => 0xFFFFFFFF#32
  | .i => 0xFFFF00FF#32
  | .k => 0xFFF000FF#32
  | .d => 0xFFFE00FF#32

/-- The format of each assigned opcode; `none` for an unassigned one (R126, R128). -/
def formatOf : Nat → Option Format
  | 0x00 => some .z
  | 0x01 => some .z
  | 0x02 => some .z
  | 0x03 => some .k
  | 0x04 => some .i
  | 0x05 => some .i
  | 0x06 => some .z
  | 0x10 => some .i
  | 0x11 => some .d
  | 0x12 => some .d
  | 0x13 => some .z
  | 0x14 => some .z
  | 0x20 => some .z
  | 0x21 => some .z
  | 0x22 => some .z
  | 0x23 => some .z
  | 0x24 => some .z
  | 0x25 => some .z
  | 0x30 => some .i
  | 0x31 => some .i
  | 0x32 => some .i
  | 0x33 => some .i
  | 0x34 => some .i
  | 0x35 => some .z
  | 0x36 => some .z
  | _ => none

/-- The command an assigned opcode selects, with the operands its format gives it (R122 to R126). -/
def commandOf (opc imm sub : Nat) : Option Instr :=
  match opc with
  | 0x00 => some .nop
  | 0x01 => some .reset
  | 0x02 => some .clear
  | 0x03 => some (.setkey imm sub)
  | 0x04 => some (.setmode imm)
  | 0x05 => some (.setpad imm)
  | 0x06 => some .waist
  | 0x10 => some (.chnSetiv imm)
  | 0x11 => some (.chnEnc imm (sub.testBit 0))
  | 0x12 => some (.chnDec imm (sub.testBit 0))
  | 0x13 => some .chnFine
  | 0x14 => some .chnFind
  | 0x20 => some .gfMod
  | 0x21 => some .gfAdd
  | 0x22 => some .gfMul
  | 0x23 => some .gfInv
  | 0x24 => some .gfDiv
  | 0x25 => some .gfGmm
  | 0x30 => some (.gcmSetiv imm)
  | 0x31 => some (.gcmSettaglen imm)
  | 0x32 => some (.gcmAad imm)
  | 0x33 => some (.gcmEnc imm)
  | 0x34 => some (.gcmDec imm)
  | 0x35 => some .gcmFine
  | 0x36 => some .gcmFind
  | _ => none

/-- Decoding (R127): an unassigned opcode first, then a must-be-zero bit that is 1, else the command. -/
def decode (w : Word) : Except DecodeError Instr :=
  let f := fieldsOf w
  match formatOf f.opc with
  | none => .error .badOpcode
  | some fmt =>
    if w &&& fmt.mustBeZero ≠ 0 then .error .reservedBits
    else
      match commandOf f.opc f.imm f.sub with
      | none => .error .badOpcode
      | some i => .ok i

/-- The opcode of each command (R126). -/
def Instr.opcode : Instr → Nat
  | .nop => 0x00
  | .reset => 0x01
  | .clear => 0x02
  | .setkey _ _ => 0x03
  | .setmode _ => 0x04
  | .setpad _ => 0x05
  | .waist => 0x06
  | .chnSetiv _ => 0x10
  | .chnEnc _ _ => 0x11
  | .chnDec _ _ => 0x12
  | .chnFine => 0x13
  | .chnFind => 0x14
  | .gfMod => 0x20
  | .gfAdd => 0x21
  | .gfMul => 0x22
  | .gfInv => 0x23
  | .gfDiv => 0x24
  | .gfGmm => 0x25
  | .gcmSetiv _ => 0x30
  | .gcmSettaglen _ => 0x31
  | .gcmAad _ => 0x32
  | .gcmEnc _ => 0x33
  | .gcmDec _ => 0x34
  | .gcmFine => 0x35
  | .gcmFind => 0x36

/-- The IMM field of each command: its operand, or 0 in format Z (R122). -/
def Instr.immField : Instr → Nat
  | .setkey imm _ => imm
  | .setmode imm => imm
  | .setpad imm => imm
  | .chnSetiv imm => imm
  | .chnEnc imm _ => imm
  | .chnDec imm _ => imm
  | .gcmSetiv imm => imm
  | .gcmSettaglen imm => imm
  | .gcmAad imm => imm
  | .gcmEnc imm => imm
  | .gcmDec imm => imm
  | .nop | .reset | .clear | .waist | .chnFine | .chnFind | .gfMod | .gfAdd | .gfMul | .gfInv | .gfDiv | .gfGmm
  | .gcmFine | .gcmFind => 0

/-- The SUB field of each command: KTYPE in format K, NC in format D, else 0 (R122, R124). -/
def Instr.subField : Instr → Nat
  | .setkey _ ktype => ktype
  | .chnEnc _ nc => nc.toNat
  | .chnDec _ nc => nc.toNat
  | .nop | .reset | .clear | .setmode _ | .setpad _ | .waist | .chnSetiv _ | .chnFine | .chnFind | .gfMod | .gfAdd
  | .gfMul | .gfInv | .gfDiv | .gfGmm | .gcmSetiv _ | .gcmSettaglen _ | .gcmAad _ | .gcmEnc _ | .gcmDec _ | .gcmFine
  | .gcmFind => 0

/-- The command word of a well-formed command (R121, R122, R126). -/
def encode (i : Instr) : Word := wordOf i.opcode i.immField i.subField

/-- The command of a row of spec/opcode_table.json from its bits. A command is one 32-bit word, bit 0 the least
significant (R120, R121), which is the table's own numbering, so the word is used as it is. -/
def decodeTableWord (nbits w : Nat) : Option Instr :=
  match decode (BitVec.ofNat 32 (w % 2 ^ nbits)) with
  | .ok i => some i
  | .error _ => none

end Sys2Proof
end

