-- ==== Sys2Proof/Config.lean ====
section
/-! DEFINITION. What an implementation fixes (00_scope.md R9, R11, R13, R14) and the free values of the spec
(93_implementation_defined.md U3). The parameters are plain data carried by State, which no step changes; the functions
of the attached transform and the free values are constants with no body. Log 1, log 2, log 3, log 7. -/

namespace Sys2Proof

/-- `BS`, the block size of the attached transform: 8 or 16 bytes, no other value is legal (R11). -/
inductive BlockSize where
  | eight
  | sixteen
deriving DecidableEq, Repr

/-- BS as a number of bytes. -/
def BlockSize.bytes : BlockSize → Nat
  | .eight => 8
  | .sixteen => 16

/-- `GF_ZERO_ARITH`: what GF.ADD and GF.MUL compute when P = 0 (R13). -/
inductive ZeroArith where
  | carryless
  | integer
deriving DecidableEq, Repr

/-- Which block transform is attached (R9). `attached` is the platform's own transform, of which nothing is known but
that it is a pure invertible function of key schedule and block. `toy` and `aes` are the two test transforms of
95_test_vectors.md section 0 (log 3). -/
inductive Transform where
  | attached
  | toy
  | aes
deriving DecidableEq, Repr

/-- A key schedule, the abstract type `KS` of R9, held as a byte string so that it is plain data (log 2). -/
abbrev KeySchedule := List Byte

/-- The parameters of one instance (R9, R11, R13, R14; R30: they are not state). -/
structure Params where
  base : Nat
  bs : BlockSize
  zeroArith : ZeroArith
  bt : Transform
deriving DecidableEq, Repr

/-- `BT.accepts` of the platform's transform, for a block size in bytes and a declared key bit length (R9). -/
opaque Config.attachedAccepts : Nat → Nat → Bool

/-- `BT.setkey` of the platform's transform (R9). -/
opaque Config.attachedSetkey : Nat → Bytes → KeySchedule

/-- `BT.enc` of the platform's transform and, as its inverse, `BT.dec`: for each block size and key schedule a permutation
of the blocks. Blocks are finite in number, so the law of R9, BT.dec(ks, BT.enc(ks, b)) = b, says exactly this. -/
opaque Config.attachedPerm : (n : Nat) → KeySchedule → Equiv.Perm (Vector Byte n)

/-- The free values of U3: what a bus read made while BUSY = 1 returns where R473 leaves it unspecified. The argument is a
counter in State, so that each such read has a value of its own. -/
opaque Config.busyRead : Nat → Word

end Sys2Proof
end

