-- ==== Sys2Proof/Machine/State.lean ====
section
/-! DEFINITION. The machine's state as plain data (10_state.md R30 to R56), its reset value (R58), the causes of a
command error (60_exceptions.md R403) and the reasons a step can stop. -/

namespace Sys2Proof.Machine

/-- The causes of a command error, by the detail names of R403. -/
inductive CmdError where
  | keyLength
  | keyRejected
  | keyType
  | badMode
  | badPad
  | padInStream
  | ivLength
  | dataLength
  | direction
  | residual
  | callAlign
  | gcmBlocksize
  | gcmNoIv
  | gcmAadLate
  | gcmDone
  | gcmAadClosed
  | gcmDataClosed
  | gcmTaglen
  | gcmIvLate
  | padShort
  | padBad
  | tagMismatch
  | polyZero
  | operandZero
  | notInvertible
  | notKeyed
  | streamFailed
  | badOpcode
  | reservedBits
deriving DecidableEq, Repr

/-- MODE, the chaining mode (R46). Codes 5 to 7 are never held, so they have no constructor. -/
inductive Mode where
  | ecb
  | cbc
  | xcbc
  | cfb
  | ofb
deriving DecidableEq, Repr

/-- PAD, the padding mode (R46). -/
inductive PadMode where
  | none
  | bit
  | x923
  | pkcs7
deriving DecidableEq, Repr

/-- CPH, the phase of the chaining driver (R50). -/
inductive ChainPhase where
  | idle
  | enc
  | dec
  | failed
deriving DecidableEq, Repr

/-- GPH, the phase of the GCM controller (R55). -/
inductive GcmPhase where
  | config
  | aad
  | data
  | done
deriving DecidableEq, Repr

/-- GDIR, the direction of a GCM message (R55). -/
inductive GcmDir where
  | none
  | enc
  | dec
deriving DecidableEq, Repr

/-- The two directions of a stream (R201, R205). -/
inductive Dir where
  | enc
  | dec
deriving DecidableEq, Repr

/-- What happens at the block's pins: a bus access of the host, `width` in bytes (20_memory.md R80, R84), or a new level of
the reset input (70_reset_and_hazards.md R450). -/
inductive Event where
  | read (addr : Nat) (width : Nat)
  | write (addr : Nat) (width : Nat) (value : Word)
  | resetLine (asserted : Bool)
deriving DecidableEq, Repr

/-- An event and whether it comes before a command that is running completes (R470: it may come before or after the engine
step). `early` says nothing when no command runs. -/
structure Input where
  early : Bool
  event : Event
deriving DecidableEq, Repr

/-- STATUS (R33). -/
structure Status where
  busy : Bool
  err : Bool
  ovr : Bool
  tagv : Bool
  ecode : BitVec 4
  edet : BitVec 8
  outlen : Nat
deriving DecidableEq, Repr

/-- The registers the host writes: WIN, DIN, TAGIN, KEYBUF, IVIN, GA, GB, P (R36 to R41, R43). -/
structure HostRegs where
  win : Word
  din : Block
  tagin : Block
  keybuf : Vector Byte 32
  ivin : Vector Byte 64
  ga : FieldReg
  gb : FieldReg
  p : FieldReg
deriving DecidableEq, Repr

/-- The registers commands write and the host reads: WOUT, DOUT, TAG, GR (R36 to R38, R42). -/
structure Results where
  wout : BitVec 64
  dout : Block
  tag : Block
  gr : FieldReg
deriving DecidableEq, Repr

/-- The key state: KEY, KLEN, KS, KEYED (R45). -/
structure KeyState where
  key : Vector Byte 32
  klen : Nat
  ks : Option KeySchedule
  keyed : Bool
deriving DecidableEq, Repr

/-- The configuration: MODE, PAD, TAGLEN (R46). -/
structure ModeRegs where
  mode : Mode
  pad : PadMode
  taglen : Nat
deriving DecidableEq, Repr

/-- The chaining driver: CIV, CHAIN, IBUF, IBLEN, CPH (R47 to R50). -/
structure ChainState where
  civ : Block
  chain : Block
  ibuf : Block
  iblen : Nat
  cph : ChainPhase
deriving DecidableEq, Repr

/-- The GCM controller: its IV (R51), session blocks (R52, R53), bit counters (R54) and phase (R55). -/
structure GcmState where
  giv : Vector Byte 64
  givlen : Nat
  givset : Bool
  h : Block
  j0 : Block
  cb : Block
  acc : Block
  alen : BitVec 64
  clen : BitVec 64
  gph : GcmPhase
  aadpart : Bool
  dpart : Bool
  gdir : GcmDir
deriving DecidableEq, Repr

/-- The outside of the block and the model's own fields: the level of the reset input, the events to come (oldest first),
the word the last host read returned, and the counter of free values (log 4, log 6, log 7). -/
structure Environment where
  inReset : Bool
  inputs : List Input
  rdata : Word
  freeCtr : Nat
deriving DecidableEq, Repr

/-- The whole machine (R30). `pend` is PEND (R56). -/
structure State where
  params : Params
  status : Status
  host : HostRegs
  results : Results
  key : KeyState
  modes : ModeRegs
  chn : ChainState
  gcm : GcmState
  pend : Word
  env : Environment
deriving DecidableEq, Repr

/-- Every element at its hardware reset value (R58), for an instance with the given parameters; no event is waiting. -/
def State.resetWith (params : Params) : State where
  params := params
  status :=
    { busy := false, err := false, ovr := false, tagv := false, ecode := 0, edet := 0, outlen := 0 }
  host :=
    { win := 0, din := Vector.replicate 16 0, tagin := Vector.replicate 16 0, keybuf := Vector.replicate 32 0,
      ivin := Vector.replicate 64 0, ga := 0, gb := 0, p := 0 }
  results := { wout := 0, dout := Vector.replicate 16 0, tag := Vector.replicate 16 0, gr := 0 }
  key := { key := Vector.replicate 32 0, klen := 0, ks := none, keyed := false }
  modes := { mode := .ecb, pad := .none, taglen := 16 }
  chn :=
    { civ := Vector.replicate 16 0, chain := Vector.replicate 16 0, ibuf := Vector.replicate 16 0, iblen := 0,
      cph := .idle }
  gcm :=
    { giv := Vector.replicate 64 0, givlen := 0, givset := false, h := Vector.replicate 16 0,
      j0 := Vector.replicate 16 0, cb := Vector.replicate 16 0, acc := Vector.replicate 16 0, alen := 0, clen := 0,
      gph := .config, aadpart := false, dpart := false, gdir := .none }
  pend := 0
  env := { inReset := false, inputs := [], rdata := 0, freeCtr := 0 }

/-- The machine right after hardware reset. DESIGN CHOICE (log 1): an instance with the platform's own transform of 16-byte
blocks, GF_ZERO_ARITH = CARRYLESS and its window at address 0; the spec fixes none of the four. -/
def State.reset : State :=
  State.resetWith { base := 0, bs := .sixteen, zeroArith := .carryless, bt := .attached }

/-- What a command's rule leaves: the state, and the error it raised if any (00_scope.md R21: what was written before the
`raise` stays written). -/
structure Run where
  state : State
  error : Option CmdError
deriving DecidableEq, Repr

/-- The ways the machine stops with a fault. -/
inductive Fault where
  /-- Raised by a host access at an address outside the register window (20_memory.md R80: the block decodes
  BASE ≤ address < BASE + 0x400 and nothing else). Safe: the model stops where the access concerns another device
  (log 10). -/
  | outsideWindow (addr : Nat)
deriving DecidableEq, Repr

/-- The ways a step is refused. -/
inductive Refusal where
  /-- Raised by exec for an instruction that has no meaning yet. Safe: the model stops. -/
  | notModelled (mnemonic : String)
  /-- Raised by a host access of a width other than 4 bytes or at an offset that is not a multiple of 4. Safe: the model
  stops, as R84 asks (`A model refuses a host step that makes such an access`; log 9). -/
  | unsupportedAccess (addr : Nat) (width : Nat)
deriving DecidableEq, Repr

end Sys2Proof.Machine
end

