-- ==== Sys2Proof/Machine/Flags.lean ====
section
/-! DEFINITION. The codes of errors (60_exceptions.md R401, R403), of modes and phases (10_state.md R46, R50, R55), the
words STATUS, CFG and STATE (R33 to R35), and the status write that ends every command (R402). -/

namespace Sys2Proof.Machine

/-- The error class of a cause, the value of STATUS.ECODE (R401, R403). -/
def CmdError.ecode : CmdError → BitVec 4
  | .keyLength | .keyRejected | .keyType => 1
  | .badMode | .badPad | .padInStream | .ivLength | .dataLength | .direction | .residual | .callAlign | .gcmBlocksize
  | .gcmNoIv | .gcmAadLate | .gcmDone | .gcmAadClosed | .gcmDataClosed | .gcmTaglen | .gcmIvLate => 2
  | .padShort | .padBad => 3
  | .tagMismatch => 4
  | .polyZero | .operandZero | .notInvertible => 5
  | .notKeyed | .streamFailed => 6
  | .badOpcode | .reservedBits => 7

/-- The detail code of a cause within its class, the value of STATUS.EDET (R403). -/
def CmdError.edet : CmdError → BitVec 8
  | .keyLength => 1
  | .keyRejected => 2
  | .keyType => 3
  | .badMode => 1
  | .badPad => 2
  | .padInStream => 3
  | .ivLength => 4
  | .dataLength => 5
  | .direction => 6
  | .residual => 7
  | .callAlign => 8
  | .gcmBlocksize => 9
  | .gcmNoIv => 10
  | .gcmAadLate => 11
  | .gcmDone => 12
  | .gcmAadClosed => 13
  | .gcmDataClosed => 14
  | .gcmTaglen => 15
  | .gcmIvLate => 16
  | .padShort => 1
  | .padBad => 2
  | .tagMismatch => 1
  | .polyZero => 1
  | .operandZero => 2
  | .notInvertible => 3
  | .notKeyed => 1
  | .streamFailed => 2
  | .badOpcode => 1
  | .reservedBits => 2

/-- The numeric code of MODE (R46). -/
def Mode.code : Mode → BitVec 3
  | .ecb => 0
  | .cbc => 1
  | .xcbc => 2
  | .cfb => 3
  | .ofb => 4

/-- The mode of a code; `none` for the codes that are never held (R46, R170). -/
def modeOfCode : Nat → Option Mode
  | 0 => some .ecb
  | 1 => some .cbc
  | 2 => some .xcbc
  | 3 => some .cfb
  | 4 => some .ofb
  | _ => none

/-- The numeric code of PAD (R46). -/
def PadMode.code : PadMode → BitVec 2
  | .none => 0
  | .bit => 1
  | .x923 => 2
  | .pkcs7 => 3

/-- The padding mode of a code (R46, R175). -/
def padOfCode : Nat → Option PadMode
  | 0 => some .none
  | 1 => some .bit
  | 2 => some .x923
  | 3 => some .pkcs7
  | _ => none

/-- The numeric code of CPH (R50). -/
def ChainPhase.code : ChainPhase → BitVec 2
  | .idle => 0
  | .enc => 1
  | .dec => 2
  | .failed => 3

/-- The numeric code of GPH (R55). -/
def GcmPhase.code : GcmPhase → BitVec 2
  | .config => 0
  | .aad => 1
  | .data => 2
  | .done => 3

/-- The numeric code of GDIR (R55). -/
def GcmDir.code : GcmDir → BitVec 2
  | .none => 0
  | .enc => 1
  | .dec => 2

/-- One flag as one bit. -/
def bit (b : Bool) : BitVec 1 := BitVec.ofBool b

/-- STATUS as a word (R33). -/
def statusWord (s : State) : Word :=
  0#11 ++ BitVec.ofNat 5 s.status.outlen ++ s.status.edet ++ s.status.ecode ++ bit s.status.tagv ++ bit s.status.ovr ++
    bit s.status.err ++ bit s.status.busy

/-- CFG as a word (R34). -/
def cfgWord (s : State) : Word :=
  BitVec.ofNat 6 s.key.klen ++ bit s.gcm.givset ++ bit s.key.keyed ++ 0#3 ++ BitVec.ofNat 5 s.params.bs.bytes ++ 0#3 ++
    BitVec.ofNat 5 s.modes.taglen ++ 0#2 ++ s.modes.pad.code ++ 0#1 ++ s.modes.mode.code

/-- STATE as a word (R35). -/
def stateWord (s : State) : Word :=
  0#7 ++ BitVec.ofNat 7 s.gcm.givlen ++ s.gcm.gdir.code ++ bit s.gcm.dpart ++ bit s.gcm.aadpart ++ s.gcm.gph.code ++
    0#2 ++ s.chn.cph.code ++ 0#3 ++ BitVec.ofNat 5 s.chn.iblen

/-- The status write at the end of a command: ERR, ECODE and EDET from its result, and BUSY back to 0 (R400, R402). -/
def Status.complete (st : Status) : Option CmdError → Status
  | none => { st with busy := false, err := false, ecode := 0, edet := 0 }
  | some e => { st with busy := false, err := true, ecode := e.ecode, edet := e.edet }

end Sys2Proof.Machine
end

