-- ==== Sys2Proof/Machine/Bytes.lean ====
section
/-! DEFINITION. Byte strings: zero fill, exclusive or, big-endian numbers (00_scope.md R17, R18), the little-endian lanes
of the register window (20_memory.md R87, R88) and the mapping of GCM blocks to integers (43_gcm.md R315). -/

namespace Sys2Proof.Machine

/-- `0^n` (R17). -/
def zeros (n : Nat) : Bytes := List.replicate n 0

/-- A byte string put into an n-byte register: `b || 0^(n - len b)`. -/
@[irreducible] def fill (n : Nat) (b : Bytes) : Vector Byte n := Vector.ofFn fun i => b.getD i.val 0

/-- The first `n` bytes of a register, `r[0..n-1]`. -/
def first {m : Nat} (r : Vector Byte m) (n : Nat) : Bytes := r.toList.take n

/-- Bytewise exclusive or (R17). -/
def xorBytes (a b : Bytes) : Bytes := List.zipWith (fun x y => x ^^^ y) a b

/-- `BE(b)` (R18). -/
def beNat (b : Bytes) : Nat := b.foldl (fun v x => v * 256 + x.toNat) 0

/-- `BEbytes_n(v)` (R18). -/
def beBytes (n v : Nat) : Bytes := (List.range n).map fun i => BitVec.ofNat 8 (v >>> (8 * (n - 1 - i)))

/-- A 16-byte block as the 128-bit integer BE(b) (R315). -/
def blockToInt (b : Block) : BitVec 128 := BitVec.ofNat 128 (beNat b.toList)

/-- A 128-bit integer as a 16-byte block, BEbytes_16 (R315). -/
def blockOfInt (v : BitVec 128) : Block := fill 16 (beBytes 16 v.toNat)

/-- Exclusive or of two blocks. -/
def xorBlock (a b : Block) : Block := fill 16 (xorBytes a.toList b.toList)

/-- The byte of a bus word in lane j, bits [8j+7:8j] (R87). -/
def laneOf (v : Word) (j : Nat) : Byte := v.extractLsb' (8 * j) 8

/-- Word k of a byte-array register: `{b[4k+3], b[4k+2], b[4k+1], b[4k]}` (R87). -/
def arrayWord {n : Nat} (r : Vector Byte n) (k : Nat) : Word :=
  let b := fun j => r.toList.getD (4 * k + j) 0
  b 3 ++ b 2 ++ b 1 ++ b 0

/-- A byte-array register with word k replaced (R87). -/
def setArrayWord {n : Nat} (r : Vector Byte n) (k : Nat) (v : Word) : Vector Byte n :=
  Vector.ofFn fun i => if i.val / 4 = k then laneOf v (i.val % 4) else r[i]

/-- Word k of an integer register: bits [32k+31:32k] (R88). -/
def intWord {n : Nat} (r : BitVec n) (k : Nat) : Word := r.extractLsb' (32 * k) 32

/-- An integer register with word k replaced (R88). -/
def setIntWord {n : Nat} (r : BitVec n) (k : Nat) (v : Word) : BitVec n :=
  (r &&& ~~~((0xFFFFFFFF#32).setWidth n <<< (32 * k))) ||| (v.setWidth n <<< (32 * k))

end Sys2Proof.Machine
end

