-- ==== Sys2Proof/Machine/Operands.lean ====
section
/-! DEFINITION. The operand forms of the commands (30_encoding.md R125): which bytes or bits of which register each one
reads. Commands name no registers; IMM gives a length. -/

namespace Sys2Proof.Machine

/-- BS in bytes (00_scope.md R11). -/
def State.bsz (s : State) : Nat := s.params.bs.bytes

/-- The chunk of a data command, DIN[0..L-1] (41_chaining.md R220, 43_gcm.md R330). -/
def chunk (s : State) (l : Nat) : Bytes := first s.host.din l

/-- The key of SETKEY, KEYBUF[0..L-1] (40_control.md R166). -/
def keyOperand (s : State) (l : Nat) : Bytes := first s.host.keybuf l

/-- The IV of CHN.SETIV and GCM.SETIV, IVIN[0..L-1] (40_control.md R180, 43_gcm.md R325). -/
def ivOperand (s : State) (l : Nat) : Bytes := first s.host.ivin l

/-- The chaining state, CHAIN[0..BS-1] (41_chaining.md, opening). -/
def chainBytes (s : State) : Bytes := first s.chn.chain s.bsz

/-- The buffered bytes, IBUF[0..IBLEN-1] (41_chaining.md R213). -/
def bufferedBytes (s : State) : Bytes := first s.chn.ibuf s.chn.iblen

/-- The configured GCM IV, GIV[0..GIVLEN-1] (43_gcm.md R320). -/
def gcmIvBytes (s : State) : Bytes := first s.gcm.giv s.gcm.givlen

/-- The operand polynomials GA, GB and P as unsigned integers (00_scope.md R19). -/
def gaPoly (s : State) : Nat := s.host.ga.toNat

/-- See `gaPoly`. -/
def gbPoly (s : State) : Nat := s.host.gb.toNat

/-- See `gaPoly`. -/
def pPoly (s : State) : Nat := s.host.p.toNat

/-- The operands of GF.GMM, GA[127:0] and GB[127:0] (42_galois.md R283). -/
def gaLow (s : State) : BitVec 128 := s.host.ga.setWidth 128

/-- See `gaLow`. -/
def gbLow (s : State) : BitVec 128 := s.host.gb.setWidth 128

end Sys2Proof.Machine
end

