-- ==== Sys2Proof/Machine/Poly.lean ====
section
/-! DEFINITION. Polynomials over GF(2) held as unsigned integers (00_scope.md R19), their reduction (42_galois.md R263),
the extended Euclid (R291) and the bit-reflected GCM multiplication (R281). Loops run on a count that bounds their steps. -/

namespace Sys2Proof.Machine

/-- deg(a) + 1: the index of the highest set bit plus one, 0 for a = 0 (R19). -/
def bitLen (a : Nat) : Nat := if a = 0 then 0 else a.log2 + 1

/-- `XOR over i < n with b[i] = 1 of (a << i)`. -/
def clmulBits : Nat → Nat → Nat → Nat
  | 0, _, _ => 0
  | n + 1, a, b => (if b.testBit n then a <<< n else 0) ^^^ clmulBits n a b

/-- The carry-less product (R19). -/
@[irreducible] def clmul (a b : Nat) : Nat := clmulBits (bitLen b) a b

/-- Long division of a by b ≠ 0 by XOR-based subtraction: quotient so far and remainder (R263, R291). -/
def divLoop : Nat → Nat → Nat → Nat → Nat × Nat
  | 0, a, _, q => (q, a)
  | n + 1, a, b, q =>
    if bitLen b ≤ bitLen a then
      divLoop n (a ^^^ (b <<< (bitLen a - bitLen b))) b (q ^^^ (1 <<< (bitLen a - bitLen b)))
    else (q, a)

/-- Polynomial quotient and remainder of a by b, for b ≠ 0. Each step lowers deg(a), so deg(a) + 1 steps are enough. -/
def polyDivMod (a b : Nat) : Nat × Nat := divLoop (bitLen a) a b 0

/-- `a mod_p p` (R19), the procedure `red` of R263 with p for P; for p = 0 it is a (R264). -/
@[irreducible] def red (p a : Nat) : Nat := if p = 0 then a else (polyDivMod a p).2

/-- The extended Euclid of R291 from (r0, r1, s0, s1): the last r0 and s0. Each step lowers deg(r1). -/
def euclidLoop : Nat → Nat → Nat → Nat → Nat → Nat × Nat
  | 0, r0, _, s0, _ => (r0, s0)
  | n + 1, r0, r1, s0, s1 =>
    if r1 = 0 then (r0, s0)
    else
      let qr := polyDivMod r0 r1
      euclidLoop n r1 qr.2 s1 (s0 ^^^ clmul qr.1 s1)

/-- gcd(x, p) and the cofactor s0 of x (R291). -/
@[irreducible] def euclid (p x : Nat) : Nat × Nat := euclidLoop (bitLen x + 1) p x 0 1

/-- gcd(x, p) over GF(2) (R289). -/
def polyGcd (x p : Nat) : Nat := (euclid p x).1

/-- The inverse of x modulo p where gcd(x, p) = 1 (R289, R291). -/
def polyInv (p x : Nat) : Nat := red p (euclid p x).2

/-- `R = 0xE1 << 120`, the low terms of the GCM polynomial in the reversed representation (R281). -/
def gmmR : BitVec 128 := 0xE1#128 <<< 120

/-- The loop of R281 with n rounds left: round 127 - n + 1 looks at bit n - 1 of X. -/
def gmmLoop : Nat → BitVec 128 → BitVec 128 → BitVec 128 → BitVec 128
  | 0, _, z, _ => z
  | n + 1, x, z, v =>
    gmmLoop n x (if x.getLsbD n then z ^^^ v else z) (if v.getLsbD 0 then (v >>> 1) ^^^ gmmR else v >>> 1)

/-- `gmm(X, Y)` (R281). -/
@[irreducible] def gmm (x y : BitVec 128) : BitVec 128 := gmmLoop 128 x 0 y

end Sys2Proof.Machine
end

