-- ==== Sys2Proof/Machine/Transform.lean ====
section
/-! DEFINITION. The block transform port BT (00_scope.md R9): accepts, setkey, enc and dec of the attached transform, of
the test transform TOYn (95_test_vectors.md section 0) and of the AES stand-in that the published vectors of
95_test_vectors.md section 1 are defined with. PRESUMED: AES is FIPS-197, not in the spec (log 3). -/

namespace Sys2Proof.Machine

/-- TOYn: rotate the block left by one byte, then XOR the key. -/
def toyEnc (n : Nat) (k : KeySchedule) (b : Bytes) : Bytes :=
  (List.range n).map fun i => b.getD ((i + 1) % n) 0 ^^^ k.getD i 0

/-- TOYn's inverse: XOR the key, then rotate right by one byte. -/
def toyDec (n : Nat) (k : KeySchedule) (c : Bytes) : Bytes :=
  (List.range n).map fun i => c.getD ((i + n - 1) % n) 0 ^^^ k.getD ((i + n - 1) % n) 0

/-- The AES S-box as one number, entry x in bits [8x+7:8x]. PRESUMED (FIPS-197; log 3). -/
def aesSboxTable : Nat :=
  0x16bb54b00f2d99416842e6bf0d89a18cdf2855cee9871e9b948ed9691198f8e19e1dc186b95735610ef6034866b53e708a8bbd4b1f74dde8c6b4a61c2e2578ba08ae7a65eaf4566ca94ed58d6d37c8e779e4959162acd3c25c2406490a3a32e0db0b5ede14b8ee4688902a22dc4f816073195d643d7ea7c41744975fec130ccdd2f3ff1021dab6bcf5389d928f40a351a89f3c507f02f94585334d43fbaaefd0cf584c4a39becb6a5bb1fc20ed00d153842fe329b3d63b52a05a6e1b1a2c830975b227ebe28012079a059618c323c7041531d871f1e5a534ccf73f362693fdb7c072a49cafa2d4adf04759fa7dc982ca76abd7fe2b670130c56f6bf27b777c63

/-- The inverse S-box, in the same form. PRESUMED (FIPS-197; log 3). -/
def aesInvSboxTable : Nat :=
  0x7d0c2155631469e126d677ba7e042b17619953833cbbebc8b0f52aae4d3be0a0ef9cc9939f7ae52d0d4ab519a97f51605fec8027591012b131c7078833a8dd1ff45acd78fec0db9a2079d2c64b3e56fc1bbe18aa0e62b76f89c5291d711af1476edf751ce837f9e28535ade72274ac9673e6b4f0cecff297eadc674f4111913a6b8a130103bdafc1020f3fca8f1e2cd00645b3b80558e4f70ad3bc8c00abd890849d8da75746155edab9edfd5048706c92b6655dcc5ca4d41698688664f6f87225d18b6d49a25b76b224d92866a12e084ec3fa420b954cee3d23c2a632947b54cbe9dec444438e3487ff2f9b8239e37cfbd7f3819ea340bf38a53630d56a0952

/-- The AES S-box. -/
def aesSub (x : Byte) : Byte := BitVec.ofNat 8 (aesSboxTable >>> (8 * x.toNat))

/-- The inverse S-box. -/
def aesInvSub (x : Byte) : Byte := BitVec.ofNat 8 (aesInvSboxTable >>> (8 * x.toNat))

/-- Multiplication by x in the AES field. -/
def aesXtime (x : Byte) : Byte := if x.msb then (x <<< 1) ^^^ 0x1b#8 else x <<< 1

/-- Multiplication by a constant below 16 in the AES field. -/
def aesMulConst (c : Nat) (x : Byte) : Byte :=
  let x2 := aesXtime x
  let x4 := aesXtime x2
  let x8 := aesXtime x4
  (if c.testBit 0 then x else 0) ^^^ (if c.testBit 1 then x2 else 0) ^^^ (if c.testBit 2 then x4 else 0) ^^^
    (if c.testBit 3 then x8 else 0)

/-- Bytes `4i .. 4i+3` of a string. -/
def aesColumn (s : Bytes) (i : Nat) : Bytes := (s.drop (4 * i)).take 4

/-- The key expansion: the words so far, the newest first, extended until `n` words stand. -/
def aesExpandLoop (nk : Nat) : Nat → Nat → Byte → List Bytes → List Bytes
  | 0, _, _, ws => ws
  | n + 1, i, rcon, ws =>
    let t := ws.headD []
    let back := ws.getD (nk - 1) []
    if i % nk = 0 then
      let rot := (t.drop 1 ++ t.take 1).map aesSub
      aesExpandLoop nk n (i + 1) (aesXtime rcon) (xorBytes back (xorBytes rot (rcon :: zeros 3)) :: ws)
    else if nk = 8 ∧ i % nk = 4 then
      aesExpandLoop nk n (i + 1) rcon (xorBytes back (t.map aesSub) :: ws)
    else aesExpandLoop nk n (i + 1) rcon (xorBytes back t :: ws)

/-- The AES key schedule of a 16-, 24- or 32-byte key: 16 bytes for each of its rounds and 16 more. -/
def aesSetkey (k : Bytes) : KeySchedule :=
  let nk := k.length / 4
  let start := ((List.range nk).map (aesColumn k)).reverse
  (aesExpandLoop nk (4 * (nk + 7) - nk) nk 1 start).reverse.flatten

/-- Round key r of a schedule. -/
def aesRoundKey (ks : KeySchedule) (r : Nat) : Bytes := (ks.drop (16 * r)).take 16

/-- One byte of a column of MixColumns, with the coefficients of its row. -/
def aesMixRow (c0 c1 c2 c3 : Nat) (col : Bytes) : Byte :=
  aesMulConst c0 (col.getD 0 0) ^^^ aesMulConst c1 (col.getD 1 0) ^^^ aesMulConst c2 (col.getD 2 0) ^^^
    aesMulConst c3 (col.getD 3 0)

/-- MixColumns, or its inverse, by the first row of its matrix. -/
def aesMix (c0 c1 c2 c3 : Nat) (s : Bytes) : Bytes :=
  (List.range 4).flatMap fun i =>
    let col := aesColumn s i
    [aesMixRow c0 c1 c2 c3 col, aesMixRow c3 c0 c1 c2 col, aesMixRow c2 c3 c0 c1 col, aesMixRow c1 c2 c3 c0 col]

/-- SubBytes then ShiftRows: byte i of the result comes from byte 5i mod 16. -/
def aesSubShift (s : Bytes) : Bytes := (List.range 16).map fun i => aesSub (s.getD (5 * i % 16) 0)

/-- The inverse of `aesSubShift`. -/
def aesInvSubShift (s : Bytes) : Bytes := (List.range 16).map fun i => aesInvSub (s.getD (13 * i % 16) 0)

/-- The rounds of AES encryption from round r, with n of them before the last. -/
def aesEncRounds (ks : KeySchedule) : Nat → Nat → Bytes → Bytes
  | 0, r, s => xorBytes (aesSubShift s) (aesRoundKey ks r)
  | n + 1, r, s => aesEncRounds ks n (r + 1) (xorBytes (aesMix 2 3 1 1 (aesSubShift s)) (aesRoundKey ks r))

/-- The rounds of AES decryption: rounds r, r - 1, …, 1 undone. -/
def aesDecRounds (ks : KeySchedule) : Nat → Bytes → Bytes
  | 0, s => s
  | r + 1, s =>
    let t := xorBytes (aesInvSubShift s) (aesRoundKey ks r)
    aesDecRounds ks r (if r = 0 then t else aesMix 14 11 13 9 t)

/-- AES encryption of one block. -/
def aesEnc (ks : KeySchedule) (b : Bytes) : Bytes :=
  aesEncRounds ks (ks.length / 16 - 2) 1 (xorBytes b (aesRoundKey ks 0))

/-- AES decryption of one block. -/
def aesDec (ks : KeySchedule) (b : Bytes) : Bytes :=
  aesDecRounds ks (ks.length / 16 - 1) (xorBytes b (aesRoundKey ks (ks.length / 16 - 1)))

/-- `BT.accepts` for a block size in bytes and a declared key bit length (R9). -/
def btAccepts : Transform → Nat → Nat → Bool
  | .attached, n, bits => Config.attachedAccepts n bits
  | .toy, n, bits => bits == 8 * n
  | .aes, n, bits => n == 16 && (bits == 128 || bits == 192 || bits == 256)

/-- `BT.setkey` (R9). -/
def btSetkey : Transform → Nat → Bytes → KeySchedule
  | .attached, n, k => Config.attachedSetkey n k
  | .toy, _, k => k
  | .aes, _, k => aesSetkey k

/-- `BT.enc` on a block of n bytes (R9); its result has n bytes. -/
def btEnc : Transform → Nat → KeySchedule → Bytes → Bytes
  | .attached, n, ks, b => (Config.attachedPerm n ks (fill n b)).toList
  | .toy, n, ks, b => toyEnc n ks b
  | .aes, n, ks, b => (fill n (aesEnc ks b)).toList

/-- `BT.dec` on a block of n bytes (R9); its result has n bytes. -/
def btDec : Transform → Nat → KeySchedule → Bytes → Bytes
  | .attached, n, ks, b => ((Config.attachedPerm n ks).symm (fill n b)).toList
  | .toy, n, ks, b => toyDec n ks b
  | .aes, n, ks, b => (fill n (aesDec ks b)).toList

end Sys2Proof.Machine
end

