-- ==== Sys2Proof/Machine/Ops.lean ====
section
/-! DEFINITION. The shared operations of the commands: how a command ends (00_scope.md R21, 60_exceptions.md R400, R402),
the output register (R21), the two shared reset procedures (40_control.md R161, R163) and the block transform under the
bound key (R21). An error is a completion status and nothing else: the block has no trap, no saved pc and no return from
one (60_exceptions.md R409), so `raise` and `complete` are the whole of exception entry here. -/

namespace Sys2Proof.Machine

/-- A command's rule that succeeds in state s. -/
def succeed (s : State) : Run := { state := s, error := none }

/-- `raise` (R21): the rule ends; what was written before stays written. -/
def raise (s : State) (e : CmdError) : Run := { state := s, error := some e }

/-- The end of a command (R400, R402): the status write, BUSY <- 0. -/
def complete (r : Run) : Host.Outcome State Fault Refusal :=
  .next { r.state with status := r.state.status.complete r.error }

/-- `out(bytes)` (R21): DOUT <- bytes || 0^(16 - len), OUTLEN <- len. -/
def out (b : Bytes) (s : State) : State :=
  { s with results := { s.results with dout := fill 16 b }, status := { s.status with outlen := b.length } }

/-- What a data-moving command does before any check: DOUT <- 0^16, OUTLEN <- 0 (60_exceptions.md R405). -/
def clearOut (s : State) : State := out [] s

/-- `gcm_session_reset()` (40_control.md R161). -/
def gcmSessionReset (s : State) : State :=
  { s with
    gcm := { s.gcm with gph := .config, acc := fill 16 [], alen := 0, clen := 0, aadpart := false, dpart := false,
                        gdir := .none }
    results := { s.results with tag := fill 16 [] }
    status := { s.status with tagv := false } }

/-- `clear_actions()` (40_control.md R163). -/
def clearActions (s : State) : State :=
  clearOut (gcmSessionReset
    { s with chn := { s.chn with chain := s.chn.civ, ibuf := fill 16 [], iblen := 0, cph := .idle } })

/-- The key schedule commands use. R59 reads it only while KEYED = 1, when SETKEY has put one there (log 14). -/
def schedule (s : State) : KeySchedule := s.key.ks.getD []

/-- `E(b)`, BT.enc under the current key schedule on a block of BS bytes (R21, 41_chaining.md R202). -/
def encryptBlock (s : State) (b : Bytes) : Bytes := btEnc s.params.bt s.bsz (schedule s) b

/-- `D(b)`, BT.dec under the current key schedule (R21). -/
def decryptBlock (s : State) (b : Bytes) : Bytes := btDec s.params.bt s.bsz (schedule s) b

end Sys2Proof.Machine
end

