-- ==== Sys2Proof/Machine/Chaining.lean ====
section
/-! DEFINITION. The chaining driver, the mode multiplexer and the padding engine (41_chaining.md): CHN.ENC, CHN.DEC,
CHN.FINE and CHN.FIND over process_block, absorb, pad_bytes and pad_length. -/

namespace Sys2Proof.Machine

/-- CHAIN <- b for a block b of BS bytes (R48; log 13). -/
def setChain (b : Bytes) (s : State) : State := { s with chn := { s.chn with chain := fill 16 b } }

/-- `process_block(dir, X)` (R205): the block Y and the state with CHAIN updated as the mode says. -/
def processBlock (dir : Dir) (x : Bytes) (s : State) : Bytes × State :=
  match s.modes.mode, dir with
  | .ecb, .enc => (encryptBlock s x, s)
  | .ecb, .dec => (decryptBlock s x, s)
  | .cbc, .enc | .xcbc, .enc =>
    let y := encryptBlock s (xorBytes x (chainBytes s))
    (y, setChain y s)
  | .cbc, .dec | .xcbc, .dec => (xorBytes (decryptBlock s x) (chainBytes s), setChain x s)
  | .cfb, .enc =>
    let y := xorBytes x (encryptBlock s (chainBytes s))
    (y, setChain y s)
  | .cfb, .dec => (xorBytes x (encryptBlock s (chainBytes s)), setChain x s)
  | .ofb, _ =>
    let o := encryptBlock s (chainBytes s)
    (xorBytes x o, setChain o s)

/-- IBUF <- b || 0^(16 - len(b)), IBLEN <- len(b) (R213, R49). -/
def setBuffer (b : Bytes) (s : State) : State :=
  { s with chn := { s.chn with ibuf := fill 16 b, iblen := b.length } }

/-- CPH <- ph (R50). -/
def setCph (ph : ChainPhase) (s : State) : State := { s with chn := { s.chn with cph := ph } }

/-- Whether a full buffer is held back for the finish (R215). -/
def holdsBack (dir : Dir) (s : State) : Bool := dir == .dec && s.modes.pad != .none

/-- `absorb(dir, L)` (R213). -/
def absorb (dir : Dir) (l : Nat) (s : State) : State :=
  let buf := bufferedBytes s ++ chunk s l
  if s.bsz < buf.length ∨ (buf.length = s.bsz ∧ holdsBack dir s = false) then
    let r := processBlock dir (buf.take s.bsz) s
    setBuffer (buf.drop s.bsz) (out r.1 r.2)
  else setBuffer buf s

/-- `pad_bytes(p)` (R217). -/
def padBytes (pad : PadMode) (p : Nat) : Bytes :=
  match pad with
  | .none => []
  | .bit => 0x80#8 :: zeros (p - 1)
  | .x923 => zeros (p - 1) ++ [BitVec.ofNat 8 p]
  | .pkcs7 => List.replicate p (BitVec.ofNat 8 p)

/-- `pad_length(Y)` for a block Y of bs bytes; `none` is INVALID (R219). -/
def padLength (pad : PadMode) (bs : Nat) (y : Bytes) : Option Nat :=
  match pad with
  | .none => none
  | .bit =>
    let trailing := (y.reverse.takeWhile fun b => b == 0).length
    if (y.reverse.drop trailing).head? = some 0x80#8 then some (trailing + 1) else none
  | .x923 =>
    let p := (y.getD (bs - 1) 0).toNat
    if p = 0 ∨ p > bs then none
    else if ((y.take (bs - 1)).drop (bs - p)).all fun b => b == 0 then some p
    else none
  | .pkcs7 =>
    let p := (y.getD (bs - 1) 0).toNat
    if p = 0 ∨ p > bs then none
    else if (y.drop (bs - p)).all fun b => b == BitVec.ofNat 8 p then some p
    else none

/-- The checks common to the four commands, in the order of R405: NOT_KEYED, STREAM_FAILED, DIRECTION (R220 to R230).
`other` is the phase of a stream of the other direction. -/
def chnCheck (other : ChainPhase) (s : State) : Option CmdError :=
  if s.key.keyed = false then some .notKeyed
  else if s.chn.cph = .failed then some .streamFailed
  else if s.chn.cph = other then some .direction
  else none

/-- The phase a stream of a direction is in (R201). -/
def Dir.phase : Dir → ChainPhase
  | .enc => .enc
  | .dec => .dec

/-- The other direction's phase (R201). -/
def Dir.otherPhase : Dir → ChainPhase
  | .enc => .dec
  | .dec => .enc

/-- The rule of CHN.ENC and CHN.DEC from the cleared output on (R220, R222, R211). -/
def chnDataRule (dir : Dir) (imm : Nat) (nc : Bool) (s : State) : Run :=
  match chnCheck dir.otherPhase s with
  | some e => raise s e
  | none =>
    if imm > s.bsz then raise s .dataLength
    else if s.modes.mode = .xcbc ∧ nc = true then
      if s.chn.iblen ≠ 0 then raise s .callAlign
      else succeed (setCph dir.phase (absorb dir imm { s with chn := { s.chn with chain := s.chn.civ } }))
    else succeed (setCph dir.phase (absorb dir imm s))

/-- CHN.ENC (R220). -/
def execChnEnc (imm : Nat) (nc : Bool) (s : State) : Host.Outcome State Fault Refusal :=
  complete (chnDataRule .enc imm nc (clearOut s))

/-- CHN.DEC (R222). -/
def execChnDec (imm : Nat) (nc : Bool) (s : State) : Host.Outcome State Fault Refusal :=
  complete (chnDataRule .dec imm nc (clearOut s))

/-- The rule of CHN.FINE from the cleared output on (R227). -/
def chnFineRule (s : State) : Run :=
  match chnCheck .dec s with
  | some e => raise s e
  | none =>
    if s.modes.pad = .none then
      if s.chn.iblen ≠ 0 then raise s .residual
      else succeed (setCph .idle (setBuffer [] s))
    else
      let r := processBlock .enc (bufferedBytes s ++ padBytes s.modes.pad (s.bsz - s.chn.iblen)) s
      succeed (setCph .idle (setBuffer [] (out r.1 r.2)))

/-- CHN.FINE (R227). -/
def execChnFine (s : State) : Host.Outcome State Fault Refusal :=
  complete (chnFineRule (clearOut s))

/-- The rule of CHN.FIND from the cleared output on (R230). -/
def chnFindRule (s : State) : Run :=
  match chnCheck .enc s with
  | some e => raise s e
  | none =>
    if s.modes.pad = .none then
      if s.chn.iblen ≠ 0 then raise s .residual
      else succeed (setCph .idle s)
    else if s.chn.iblen ≠ s.bsz then raise (setCph .failed (setBuffer [] s)) .padShort
    else
      let r := processBlock .dec (first s.chn.ibuf s.bsz) s
      match padLength s.modes.pad s.bsz r.1 with
      | none => raise (setCph .failed (setBuffer [] r.2)) .padBad
      | some p => succeed (setCph .idle (out (r.1.take (s.bsz - p)) (setBuffer [] r.2)))

/-- CHN.FIND (R230). -/
def execChnFind (s : State) : Host.Outcome State Fault Refusal :=
  complete (chnFindRule (clearOut s))

end Sys2Proof.Machine
end

