-- ==== Sys2Proof/Machine/Control.lean ====
section
/-! DEFINITION. The front-end and configuration commands (40_control.md): NOP, RESET, CLEAR, SETKEY, SETMODE, SETPAD,
WAIST and CHN.SETIV. -/

namespace Sys2Proof.Machine

/-- NOP: OVR <- 0 (R160). -/
def execNop (s : State) : Host.Outcome State Fault Refusal :=
  complete (succeed { s with status := { s.status with ovr := false } })

/-- The writes of RESET before its `clear_actions` (R162). -/
def releaseKeyAndIvs (s : State) : State :=
  { s with
    key := { key := fill 32 [], klen := 0, ks := none, keyed := false }
    host := { s.host with keybuf := fill 32 [] }
    chn := { s.chn with civ := fill 16 [] }
    gcm := { s.gcm with giv := fill 64 [], givlen := 0, givset := false, h := fill 16 [], j0 := fill 16 [],
                        cb := fill 16 [] } }

/-- RESET (R162). -/
def execReset (s : State) : Host.Outcome State Fault Refusal :=
  complete (succeed (clearActions (releaseKeyAndIvs s)))

/-- CLEAR (R164). -/
def execClear (s : State) : Host.Outcome State Fault Refusal :=
  complete (succeed (clearActions s))

/-- The key binding of SETKEY: KEY, KLEN, KS and KEYED (R166). -/
def bindKey (l : Nat) (s : State) : State :=
  { s with key := { key := fill 32 (keyOperand s l), klen := l,
                    ks := some (btSetkey s.params.bt s.bsz (keyOperand s l)), keyed := true } }

/-- The rule of SETKEY (R166). -/
def setkeyRule (imm ktype : Nat) (s : State) : Run :=
  if ktype ≠ 0 then raise s .keyType
  else if imm < 1 ∨ imm > 32 then raise s .keyLength
  else if btAccepts s.params.bt s.bsz (8 * imm) = false then raise s .keyRejected
  else succeed (clearActions (bindKey imm s))

/-- SETKEY (R166). -/
def execSetkey (imm ktype : Nat) (s : State) : Host.Outcome State Fault Refusal :=
  complete (setkeyRule imm ktype s)

/-- The rule of SETMODE (R170, R171). -/
def setmodeRule (imm : Nat) (s : State) : Run :=
  match modeOfCode imm with
  | none => raise s .badMode
  | some m => succeed { s with modes := { s.modes with mode := m } }

/-- SETMODE (R170). -/
def execSetmode (imm : Nat) (s : State) : Host.Outcome State Fault Refusal :=
  complete (setmodeRule imm s)

/-- The rule of SETPAD (R175). -/
def setpadRule (imm : Nat) (s : State) : Run :=
  match padOfCode imm with
  | none => raise s .badPad
  | some p =>
    if s.chn.cph = .enc ∨ s.chn.cph = .dec then raise s .padInStream
    else succeed { s with modes := { s.modes with pad := p } }

/-- SETPAD (R175). -/
def execSetpad (imm : Nat) (s : State) : Host.Outcome State Fault Refusal :=
  complete (setpadRule imm s)

/-- The output size of an input of n bytes: n with PAD = NONE, else (n div BS + 1) * BS (R190). -/
def outputSize (bs : Nat) (pad : PadMode) (n : Nat) : Nat :=
  if pad = .none then n else (n / bs + 1) * bs

/-- WAIST (R190). -/
def execWaist (s : State) : Host.Outcome State Fault Refusal :=
  complete (succeed { s with results :=
    { s.results with wout := BitVec.ofNat 64 (outputSize s.bsz s.modes.pad s.host.win.toNat) } })

/-- The rule of CHN.SETIV (R180). -/
def chnSetivRule (imm : Nat) (s : State) : Run :=
  if imm ≠ s.bsz then raise s .ivLength
  else
    let iv := fill 16 (ivOperand s s.bsz)
    succeed { s with chn := { s.chn with civ := iv, chain := iv } }

/-- CHN.SETIV (R180). -/
def execChnSetiv (imm : Nat) (s : State) : Host.Outcome State Fault Refusal :=
  complete (chnSetivRule imm s)

end Sys2Proof.Machine
end

