-- ==== Sys2Proof/Machine/Galois.lean ====
section
/-! DEFINITION. The Galois field unit (42_galois.md): GF.MOD, GF.ADD, GF.MUL, GF.INV, GF.DIV and GF.GMM. They read GA, GB
and P and write GR only, on success only (R262). -/

namespace Sys2Proof.Machine

/-- GR <- v mod 2^256. -/
def setGr (v : Nat) (s : State) : State :=
  { s with results := { s.results with gr := BitVec.ofNat 256 v } }

/-- GF.MOD (R265). -/
def execGfMod (s : State) : Host.Outcome State Fault Refusal :=
  complete (succeed (setGr (red (pPoly s) (gaPoly s)) s))

/-- The value of GF.ADD (R266, R268). -/
def gfAddValue (za : ZeroArith) (p a b : Nat) : Nat :=
  if p = 0 ∧ za = .integer then a + b else red p (a ^^^ b)

/-- GF.ADD (R268). -/
def execGfAdd (s : State) : Host.Outcome State Fault Refusal :=
  complete (succeed (setGr (gfAddValue s.params.zeroArith (pPoly s) (gaPoly s) (gbPoly s)) s))

/-- The value of GF.MUL (R271, R272). -/
def gfMulValue (za : ZeroArith) (p a b : Nat) : Nat :=
  if p = 0 then (if za = .carryless then clmul a b else a * b) else red p (clmul a b)

/-- GF.MUL (R272). -/
def execGfMul (s : State) : Host.Outcome State Fault Refusal :=
  complete (succeed (setGr (gfMulValue s.params.zeroArith (pPoly s) (gaPoly s) (gbPoly s)) s))

/-- The checks of GF.INV and GF.DIV on the operand to invert, and its inverse (R290, R295). -/
def invertOperand (p a : Nat) : Except CmdError Nat :=
  if p = 0 then .error .polyZero
  else if red p a = 0 then .error .operandZero
  else if polyGcd (red p a) p ≠ 1 then .error .notInvertible
  else .ok (polyInv p (red p a))

/-- The rule of GF.INV (R290). -/
def gfInvRule (s : State) : Run :=
  match invertOperand (pPoly s) (gaPoly s) with
  | .error e => raise s e
  | .ok r => succeed (setGr r s)

/-- GF.INV (R290). -/
def execGfInv (s : State) : Host.Outcome State Fault Refusal :=
  complete (gfInvRule s)

/-- The rule of GF.DIV (R295). -/
def gfDivRule (s : State) : Run :=
  match invertOperand (pPoly s) (gbPoly s) with
  | .error e => raise s e
  | .ok r => succeed (setGr (red (pPoly s) (clmul (gaPoly s) r)) s)

/-- GF.DIV (R295). -/
def execGfDiv (s : State) : Host.Outcome State Fault Refusal :=
  complete (gfDivRule s)

/-- GF.GMM (R283). -/
def execGfGmm (s : State) : Host.Outcome State Fault Refusal :=
  complete (succeed (setGr (gmm (gaLow s) (gbLow s)).toNat s))

end Sys2Proof.Machine
end

