-- ==== Sys2Proof/Machine/Gcm.lean ====
section
/-! DEFINITION. The GHASH engine and the GCM mode controller (43_gcm.md): GCM.SETIV, GCM.SETTAGLEN, GCM.AAD, GCM.ENC,
GCM.DEC, GCM.FINE and GCM.FIND over inc32, fold, GHASH, preset and gtag. -/

namespace Sys2Proof.Machine

/-- `inc32(CB)` (R316): the last four bytes as a big-endian number, plus one modulo 2^32. -/
def inc32 (cb : Block) : Block :=
  fill 16 (first cb 12 ++ beBytes 4 ((beNat (cb.toList.drop 12) + 1) % 2 ^ 32))

/-- One GHASH step on an accumulator: `BEbytes_16(gmm(BE(acc XOR X), BE(H)))` (R317). -/
def ghashStep (h acc x : Block) : Block :=
  blockOfInt (gmm (blockToInt (xorBlock acc x)) (blockToInt h))

/-- The GHASH steps over the first n blocks of a byte string (R318). -/
def ghashBlocks (h : Block) : Nat → Block → Bytes → Block
  | 0, acc, _ => acc
  | n + 1, acc, b => ghashBlocks h n (ghashStep h acc (fill 16 (b.take 16))) (b.drop 16)

/-- `GHASH_H(S)` for a string of whole blocks (R318). -/
def ghash (h : Block) (b : Bytes) : Block := ghashBlocks h (b.length / 16) (fill 16 []) b

/-- `fold(X)` (R317). -/
def fold (x : Block) (s : State) : State :=
  { s with gcm := { s.gcm with acc := ghashStep s.gcm.h s.gcm.acc x } }

/-- J0 from a hash subkey and an IV (R320, R321): IV || 00000001 for 12 bytes, else
GHASH_H(IV || 0^((16 - L mod 16) mod 16) || 0^8 || BEbytes_8(8 * L)). -/
def deriveJ0 (h : Block) (iv : Bytes) : Block :=
  if iv.length = 12 then fill 16 (iv ++ [0, 0, 0, 1])
  else ghash h (iv ++ zeros ((16 - iv.length % 16) % 16) ++ zeros 8 ++ beBytes 8 (8 * iv.length))

/-- The writes of `preset()` (R320). -/
def startSession (s : State) : State :=
  let h := fill 16 (encryptBlock s (zeros 16))
  let j0 := deriveJ0 h (gcmIvBytes s)
  { s with gcm := { s.gcm with h := h, j0 := j0, cb := j0, acc := fill 16 [], alen := 0, clen := 0, gph := .aad } }

/-- `preset()` (R320): its two checks come before any write. -/
def preset (s : State) : Except CmdError State :=
  if s.key.keyed = false then .error .notKeyed
  else if s.gcm.givset = false then .error .gcmNoIv
  else .ok (startSession s)

/-- `if GPH = CONFIG: preset()`, then the rest of a command (R330, R334, R337, R341, R343). -/
def withSession (s : State) (k : State → Run) : Run :=
  if s.gcm.gph = .config then
    match preset s with
    | .error e => raise s e
    | .ok s' => k s'
  else k s

/-- The rule of GCM.SETIV (R325). -/
def gcmSetivRule (imm : Nat) (s : State) : Run :=
  if s.bsz ≠ 16 then raise s .gcmBlocksize
  else if imm < 1 ∨ imm > 64 then raise s .ivLength
  else if s.gcm.gph = .aad ∨ s.gcm.gph = .data then raise s .gcmIvLate
  else succeed (gcmSessionReset
    { s with gcm := { s.gcm with giv := fill 64 (ivOperand s imm), givlen := imm, givset := true } })

/-- GCM.SETIV (R325). -/
def execGcmSetiv (imm : Nat) (s : State) : Host.Outcome State Fault Refusal :=
  complete (gcmSetivRule imm s)

/-- The tag lengths of R328. -/
def tagLengths : List Nat := [4, 8, 12, 13, 14, 15, 16]

/-- The rule of GCM.SETTAGLEN (R328). -/
def gcmSettaglenRule (imm : Nat) (s : State) : Run :=
  if s.bsz ≠ 16 then raise s .gcmBlocksize
  else if imm ∉ tagLengths then raise s .gcmTaglen
  else succeed { s with modes := { s.modes with taglen := imm } }

/-- GCM.SETTAGLEN (R328). -/
def execGcmSettaglen (imm : Nat) (s : State) : Host.Outcome State Fault Refusal :=
  complete (gcmSettaglenRule imm s)

/-- What a GCM.AAD of l bytes does in an open session (R330). -/
def absorbAad (l : Nat) (s : State) : State :=
  if l = 0 then s
  else
    let t := fold (fill 16 (chunk s l)) s
    { t with gcm := { t.gcm with alen := t.gcm.alen + BitVec.ofNat 64 (8 * l),
                                 aadpart := if l < 16 then true else t.gcm.aadpart } }

/-- The rule of GCM.AAD from the cleared output on (R330). -/
def gcmAadRule (imm : Nat) (s : State) : Run :=
  if s.bsz ≠ 16 then raise s .gcmBlocksize
  else if imm > 16 then raise s .dataLength
  else if s.gcm.gph = .done then raise s .gcmDone
  else if s.gcm.gph = .data then raise s .gcmAadLate
  else if s.gcm.aadpart = true then raise s .gcmAadClosed
  else withSession s fun t => succeed (absorbAad imm t)

/-- GCM.AAD (R330). -/
def execGcmAad (imm : Nat) (s : State) : Host.Outcome State Fault Refusal :=
  complete (gcmAadRule imm (clearOut s))

/-- The direction a GCM data command latches (R334, R337). -/
def Dir.gcmDir : Dir → GcmDir
  | .enc => .enc
  | .dec => .dec

/-- The GCM direction that refuses a command of this direction (R334, R337). -/
def Dir.otherGcmDir : Dir → GcmDir
  | .enc => .dec
  | .dec => .enc

/-- The ciphertext of a data step: the output of an encode, the input of a decode (R334, R337). -/
def Dir.ciphertext : Dir → Bytes → Bytes → Bytes
  | .enc, _, output => output
  | .dec, input, _ => input

/-- What a GCM.ENC or GCM.DEC of l bytes does in an open session (R334, R337): the output is the chunk under the keystream
of the next counter block, and GHASH folds the ciphertext. -/
def cryptData (dir : Dir) (l : Nat) (s : State) : State :=
  if l = 0 then s
  else
    let cb := inc32 s.gcm.cb
    let result := xorBytes (chunk s l) ((encryptBlock s cb.toList).take l)
    let t := fold (fill 16 (dir.ciphertext (chunk s l) result)) (out result { s with gcm := { s.gcm with cb := cb } })
    { t with gcm := { t.gcm with clen := t.gcm.clen + BitVec.ofNat 64 (8 * l),
                                 dpart := if l < 16 then true else t.gcm.dpart, gph := .data, gdir := dir.gcmDir } }

/-- The rule of GCM.ENC and GCM.DEC from the cleared output on (R334, R337). -/
def gcmDataRule (dir : Dir) (imm : Nat) (s : State) : Run :=
  if s.bsz ≠ 16 then raise s .gcmBlocksize
  else if imm > 16 then raise s .dataLength
  else if s.gcm.gph = .done then raise s .gcmDone
  else if s.gcm.gdir = dir.otherGcmDir then raise s .direction
  else if s.gcm.dpart = true then raise s .gcmDataClosed
  else withSession s fun t => succeed (cryptData dir imm t)

/-- GCM.ENC (R334). -/
def execGcmEnc (imm : Nat) (s : State) : Host.Outcome State Fault Refusal :=
  complete (gcmDataRule .enc imm (clearOut s))

/-- GCM.DEC (R337). -/
def execGcmDec (imm : Nat) (s : State) : Host.Outcome State Fault Refusal :=
  complete (gcmDataRule .dec imm (clearOut s))

/-- `gtag()` (R340): the full tag, and the state with the length block folded. -/
def gtag (s : State) : Block × State :=
  let t := fold (fill 16 (beBytes 8 s.gcm.alen.toNat ++ beBytes 8 s.gcm.clen.toNat)) s
  (xorBlock (fill 16 (encryptBlock t t.gcm.j0.toList)) t.gcm.acc, t)

/-- The end of GCM.FINE in an open session (R341). -/
def produceTag (s : State) : Run :=
  let t := (gtag s).2
  succeed { t with
    gcm := { t.gcm with gph := .done }
    results := { t.results with tag := fill 16 (first (gtag s).1 t.modes.taglen) }
    status := { t.status with tagv := true } }

/-- The rule of GCM.FINE from the cleared output on (R341). -/
def gcmFineRule (s : State) : Run :=
  if s.bsz ≠ 16 then raise s .gcmBlocksize
  else if s.gcm.gph = .done then raise s .gcmDone
  else if s.gcm.gdir = .dec then raise s .direction
  else withSession s produceTag

/-- GCM.FINE (R341). -/
def execGcmFine (s : State) : Host.Outcome State Fault Refusal :=
  complete (gcmFineRule (clearOut s))

/-- The end of GCM.FIND in an open session (R343): the session is DONE and TAG is 0 whether or not the tags agree. -/
def compareTag (s : State) : Run :=
  let t := (gtag s).2
  let u := { t with
    gcm := { t.gcm with gph := .done }
    results := { t.results with tag := fill 16 [] }
    status := { t.status with tagv := false } }
  if first u.host.tagin u.modes.taglen ≠ first (gtag s).1 u.modes.taglen then raise u .tagMismatch else succeed u

/-- The rule of GCM.FIND from the cleared output on (R343). -/
def gcmFindRule (s : State) : Run :=
  if s.bsz ≠ 16 then raise s .gcmBlocksize
  else if s.gcm.gph = .done then raise s .gcmDone
  else if s.gcm.gdir = .enc then raise s .direction
  else withSession s compareTag

/-- GCM.FIND (R343). -/
def execGcmFind (s : State) : Host.Outcome State Fault Refusal :=
  complete (gcmFindRule (clearOut s))

end Sys2Proof.Machine
end

