-- ==== Sys2Proof/Machine/Dispatch.lean ====
section
/-! DEFINITION. exec: one arm per command (30_encoding.md R126). -/

namespace Sys2Proof.Machine

def exec (i : Instr) (s : State) : Host.Outcome State Fault Refusal :=
  match i with
  | .nop => Sys2Proof.Machine.execNop s
  | .reset => Sys2Proof.Machine.execReset s
  | .clear => Sys2Proof.Machine.execClear s
  | .setkey imm ktype => Sys2Proof.Machine.execSetkey imm ktype s
  | .setmode imm => Sys2Proof.Machine.execSetmode imm s
  | .setpad imm => Sys2Proof.Machine.execSetpad imm s
  | .waist => Sys2Proof.Machine.execWaist s
  | .chnSetiv imm => Sys2Proof.Machine.execChnSetiv imm s
  | .chnEnc imm nc => Sys2Proof.Machine.execChnEnc imm nc s
  | .chnDec imm nc => Sys2Proof.Machine.execChnDec imm nc s
  | .chnFine => Sys2Proof.Machine.execChnFine s
  | .chnFind => Sys2Proof.Machine.execChnFind s
  | .gfMod => Sys2Proof.Machine.execGfMod s
  | .gfAdd => Sys2Proof.Machine.execGfAdd s
  | .gfMul => Sys2Proof.Machine.execGfMul s
  | .gfInv => Sys2Proof.Machine.execGfInv s
  | .gfDiv => Sys2Proof.Machine.execGfDiv s
  | .gfGmm => Sys2Proof.Machine.execGfGmm s
  | .gcmSetiv imm => Sys2Proof.Machine.execGcmSetiv imm s
  | .gcmSettaglen imm => Sys2Proof.Machine.execGcmSettaglen imm s
  | .gcmAad imm => Sys2Proof.Machine.execGcmAad imm s
  | .gcmEnc imm => Sys2Proof.Machine.execGcmEnc imm s
  | .gcmDec imm => Sys2Proof.Machine.execGcmDec imm s
  | .gcmFine => Sys2Proof.Machine.execGcmFine s
  | .gcmFind => Sys2Proof.Machine.execGcmFind s

end Sys2Proof.Machine
end

