-- ==== Sys2Proof/Machine/Window.lean ====
section
/-! DEFINITION. The register window (20_memory.md): its map (R81), the words a host reads (R82, R83, R87, R88) and the
effect of a host write (R83, R86), with BUSY = 0 and with BUSY = 1 (70_reset_and_hazards.md R472, R473), the acceptance of a
command (60_exceptions.md R400) and the reset input (R450). -/

namespace Sys2Proof.Machine

/-- The registers of the map (R81). -/
inductive WinReg where
  | id
  | cmd
  | status
  | cfg
  | state
  | win
  | woutLo
  | woutHi
  | din
  | dout
  | tagin
  | tag
  | keybuf
  | ivin
  | ga
  | gb
  | gr
  | p
deriving DecidableEq, Repr

/-- A register's access (R81). -/
inductive RegAccess where
  | ro
  | wo
  | rw
deriving DecidableEq, Repr

/-- One row of the map: offset, size in bytes, register, access (R81). -/
structure MapRow where
  offset : Nat
  size : Nat
  reg : WinReg
  access : RegAccess
deriving DecidableEq, Repr

/-- The register map (R81). -/
def windowMap : List MapRow :=
  [⟨0x000, 4, .id, .ro⟩, ⟨0x004, 4, .cmd, .wo⟩, ⟨0x008, 4, .status, .ro⟩, ⟨0x00C, 4, .cfg, .ro⟩, ⟨0x010, 4, .state, .ro⟩,
    ⟨0x014, 4, .win, .rw⟩, ⟨0x018, 4, .woutLo, .ro⟩, ⟨0x01C, 4, .woutHi, .ro⟩] ++
  [⟨0x020, 16, .din, .rw⟩, ⟨0x030, 16, .dout, .ro⟩, ⟨0x040, 16, .tagin, .rw⟩, ⟨0x050, 16, .tag, .ro⟩,
    ⟨0x060, 32, .keybuf, .wo⟩, ⟨0x080, 64, .ivin, .rw⟩] ++
  [⟨0x0C0, 32, .ga, .rw⟩, ⟨0x0E0, 32, .gb, .rw⟩, ⟨0x100, 32, .gr, .ro⟩, ⟨0x120, 32, .p, .rw⟩]

/-- The size of the window (R80). -/
def windowSize : Nat := 0x400

/-- The row an offset falls in; `none` for a reserved offset (R81, R82). -/
def rowAt (off : Nat) : Option MapRow :=
  windowMap.find? fun r => decide (r.offset ≤ off ∧ off < r.offset + r.size)

/-- The identity word (10_state.md R31). -/
def idWord : Word := 0x47460001#32

/-- Word k of a register as the host reads it with BUSY = 0; a write-only register reads 0 (R83, R87, R88). -/
def readReg (s : State) (r : WinReg) (k : Nat) : Word :=
  match r with
  | .id => idWord
  | .cmd => 0
  | .status => statusWord s
  | .cfg => cfgWord s
  | .state => stateWord s
  | .win => s.host.win
  | .woutLo => intWord s.results.wout 0
  | .woutHi => intWord s.results.wout 1
  | .din => arrayWord s.host.din k
  | .dout => arrayWord s.results.dout k
  | .tagin => arrayWord s.host.tagin k
  | .tag => arrayWord s.results.tag k
  | .keybuf => 0
  | .ivin => arrayWord s.host.ivin k
  | .ga => intWord s.host.ga k
  | .gb => intWord s.host.gb k
  | .gr => intWord s.results.gr k
  | .p => intWord s.host.p k

/-- The state after the host writes word k of a register with BUSY = 0: a read-only register ignores it (R83), a write of
CMD latches PEND and sets BUSY (R400), any other stores the value (R86). -/
def writeReg (s : State) (r : WinReg) (k : Nat) (v : Word) : State :=
  match r with
  | .cmd => { s with pend := v, status := { s.status with busy := true } }
  | .win => { s with host := { s.host with win := v } }
  | .din => { s with host := { s.host with din := setArrayWord s.host.din k v } }
  | .tagin => { s with host := { s.host with tagin := setArrayWord s.host.tagin k v } }
  | .keybuf => { s with host := { s.host with keybuf := setArrayWord s.host.keybuf k v } }
  | .ivin => { s with host := { s.host with ivin := setArrayWord s.host.ivin k v } }
  | .ga => { s with host := { s.host with ga := setIntWord s.host.ga k v } }
  | .gb => { s with host := { s.host with gb := setIntWord s.host.gb k v } }
  | .p => { s with host := { s.host with p := setIntWord s.host.p k v } }
  | .id | .status | .cfg | .state | .woutLo | .woutHi | .dout | .tag | .gr => s

/-- What a read of STATUS made while BUSY = 1 returns: BUSY and OVR as they are, the rest unspecified (R473). -/
def busyStatusWord (s : State) (free : Word) : Word :=
  (free &&& ~~~5#32) ||| 1#32 ||| (if s.status.ovr then 4#32 else 0#32)

/-- The word a host read of offset `off` returns with BUSY = 1 (R473): ID as ever, STATUS in part, 0 for a reserved offset
or a write-only register (R82, R83; log 8), else the free value. -/
def busyReadWord (s : State) (off : Nat) (free : Word) : Word :=
  match rowAt off with
  | none => 0
  | some row =>
    if row.reg = .id then idWord
    else if row.reg = .status then busyStatusWord s free
    else if row.access = .wo then 0
    else free

/-- The word a host read of offset `off` returns with BUSY = 0; a reserved offset reads 0 (R82). -/
def idleReadWord (s : State) (off : Nat) : Word :=
  match rowAt off with
  | none => 0
  | some row => readReg s row.reg ((off - row.offset) / 4)

/-- The word a host read of offset `off` returns outside reset. -/
def readWord (s : State) (off : Nat) : Word :=
  if s.status.busy then busyReadWord s off (Config.busyRead s.env.freeCtr) else idleReadWord s off

/-- A read made while BUSY = 1 uses up a free value. -/
def afterRead (s : State) : Nat := if s.status.busy then s.env.freeCtr + 1 else s.env.freeCtr

/-- The state after a host write of offset `off` outside reset: with BUSY = 1 a write to a writable register is dropped
and sets OVR (R472); reserved offsets and read-only registers ignore it (R82, R83). -/
def writeWord (s : State) (off : Nat) (v : Word) : State :=
  match rowAt off with
  | none => s
  | some row =>
    if row.access = .ro then s
    else if s.status.busy then { s with status := { s.status with ovr := true } }
    else writeReg s row.reg ((off - row.offset) / 4) v

/-- Whether an address lies in the window, BASE ≤ address < BASE + 0x400 (R80). -/
def inWindow (s : State) (addr : Nat) : Bool :=
  decide (s.params.base ≤ addr ∧ addr < s.params.base + windowSize)

/-- Whether the block supports an access: 4 bytes at an offset that is a multiple of 4 (R84). -/
def supported (s : State) (addr width : Nat) : Bool :=
  decide (width = 4 ∧ (addr - s.params.base) % 4 = 0)

/-- The new level of the reset input (R450): asserting it abandons a pending command and puts every element at its reset
value; the events to come and the word the host last read are outside the block (log 6). -/
def driveReset (asserted : Bool) (s : State) : State :=
  if asserted then
    { State.resetWith s.params with env := { s.env with inReset := true } }
  else { s with env := { s.env with inReset := false } }

/-- One event at the pins. While the reset input is asserted, writes are ignored and reads return 0 (R450). -/
def applyEvent (e : Event) (s : State) : Host.Outcome State Fault Refusal :=
  match e with
  | .read addr width =>
    if inWindow s addr = false then .fault (.outsideWindow addr)
    else if supported s addr width = false then .refused (.unsupportedAccess addr width)
    else if s.env.inReset then .next { s with env := { s.env with rdata := 0 } }
    else .next { s with env :=
      { s.env with rdata := readWord s (addr - s.params.base), freeCtr := afterRead s } }
  | .write addr width v =>
    if inWindow s addr = false then .fault (.outsideWindow addr)
    else if supported s addr width = false then .refused (.unsupportedAccess addr width)
    else if s.env.inReset then .next s
    else .next (writeWord s (addr - s.params.base) v)
  | .resetLine asserted => .next (driveReset asserted s)

end Sys2Proof.Machine
end

