-- ==== Sys2Proof/Machine/Engine.lean ====
section
/-! DEFINITION. The two agents (00_scope.md R10, 20_memory.md R93): the engine step (60_exceptions.md R400), the host step,
and which of them is next (70_reset_and_hazards.md R470; log 4, log 5). -/

namespace Sys2Proof.Machine

/-- The error a word that does not decode completes with (30_encoding.md R127). -/
def illegalCommand : DecodeError → CmdError
  | .badOpcode => .badOpcode
  | .reservedBits => .reservedBits

/-- The engine step (R400): decode PEND and run the command; a word that does not decode changes the status only (R127). -/
def engineStep (s : State) : Host.Outcome State Fault Refusal :=
  match decode s.pend with
  | .ok i => exec i s
  | .error e => complete (raise s (illegalCommand e))

/-- Whether the next event comes before the running command completes. -/
def eventIsEarly : List Input → Bool
  | [] => false
  | i :: _ => i.early

/-- Whether the engine moves next: a command runs, the reset input is released and no event comes first. -/
def engineMoves (s : State) : Bool := s.status.busy && !s.env.inReset && !eventIsEarly s.env.inputs

/-- The host step: the oldest event happens. With no event waiting and no command running, nothing changes (log 5). -/
def hostStep (s : State) : Host.Outcome State Fault Refusal :=
  match s.env.inputs with
  | [] => .next s
  | i :: rest => applyEvent i.event { s with env := { s.env with inputs := rest } }

/-- The events with the first one after the running command's completion. -/
def afterCommand : List Input → List Input
  | [] => []
  | i :: rest => { i with early := false } :: rest

/-- A word accepted as the pending command (R400), with the engine to move next. -/
def acceptWord (w : Word) (s : State) : State :=
  { s with
    pend := w
    status := { s.status with busy := true }
    env := { s.env with inReset := false, inputs := afterCommand s.env.inputs } }

end Sys2Proof.Machine
end

