-- ==== Sys2Proof/Machine/Step.lean ====
section
/-! DEFINITION. One step of the machine: the engine's or the host's (20_memory.md R93). -/

namespace Sys2Proof.Machine

/-- One step: the engine runs the pending command when it is its turn, else the next event happens. -/
def step (s : State) : Host.Outcome State Fault Refusal :=
  if engineMoves s then engineStep s else hostStep s

/-- The state with the word accepted as the pending command, so that the next step decodes and runs it (log 12). -/
def State.withFetchWord (s : State) (nbits w : Nat) : State :=
  acceptWord (BitVec.ofNat 32 (w % 2 ^ nbits)) s

end Sys2Proof.Machine
end

