-- ==== Sys2Proof/Machine/Assembler.lean ====
section
/-! DEFINITION. The assembler syntax of commands (30_encoding.md R131, R132) and the host pseudo-operations (R133). The
machine itself reads words, never text. -/

namespace Sys2Proof.Machine

/-- The value of a digit in base 16; a decimal digit's value is below 10. -/
def digitValue (c : Char) : Option Nat :=
  if '0' ≤ c ∧ c ≤ '9' then some (c.toNat - '0'.toNat)
  else if 'a' ≤ c ∧ c ≤ 'f' then some (c.toNat - 'a'.toNat + 10)
  else if 'A' ≤ c ∧ c ≤ 'F' then some (c.toNat - 'A'.toNat + 10)
  else none

/-- A string of digits in a base, after a value read so far. -/
def digits (base : Nat) : Nat → List Char → Option Nat
  | v, [] => some v
  | v, c :: cs =>
    match digitValue c with
    | none => none
    | some d => if d < base then digits base (v * base + d) cs else none

/-- A number, decimal or hexadecimal with a 0x prefix (R131). -/
def parseNumber : List Char → Option Nat
  | [] => none
  | '0' :: 'x' :: [] => none
  | '0' :: 'x' :: cs => digits 16 0 cs
  | cs => digits 10 0 cs

/-- The symbolic operands of SETMODE (R132). -/
def modeNames : List (String × Nat) := [("ecb", 0), ("cbc", 1), ("xcbc", 2), ("cfb", 3), ("ofb", 4)]

/-- The symbolic operands of SETPAD (R132). -/
def padNames : List (String × Nat) := [("none", 0), ("bit", 1), ("x923", 2), ("pkcs7", 3)]

/-- The symbolic key types of SETKEY (R132). -/
def keyTypeNames : List (String × Nat) := [("sym", 0)]

/-- An operand: a symbolic name or a number (R131, R132). -/
def parseOperand (names : List (String × Nat)) (cs : List Char) : Option Nat :=
  match names.find? fun n => n.1.toList == cs with
  | some n => some n.2
  | none => parseNumber cs

/-- The text without the spaces at its two ends. -/
def trimSpaces (cs : List Char) : List Char :=
  ((cs.dropWhile fun c => c == ' ').reverse.dropWhile fun c => c == ' ').reverse

/-- The mnemonic and the operands, which commas separate (R131). -/
def splitLine (cs : List Char) : List Char × List (List Char) :=
  let line := trimSpaces cs
  let rest := trimSpaces (line.dropWhile fun c => c != ' ')
  (line.takeWhile fun c => c != ' ', if rest = [] then [] else (rest.splitOn ',').map trimSpaces)

/-- A command of format Z: no operand. -/
def noOperand (i : Instr) : List (List Char) → Option Instr
  | [] => some i
  | _ => none

/-- A command of format I or D: one operand. -/
def oneOperand (names : List (String × Nat)) (mk : Nat → Instr) : List (List Char) → Option Instr
  | [a] => (parseOperand names a).map mk
  | _ => none

/-- SETKEY: the key length and an optional key type, which defaults to 0. -/
def keyOperands : List (List Char) → Option Instr
  | [a] => (parseNumber a).map fun l => .setkey l 0
  | [a, t] =>
    match parseNumber a, parseOperand keyTypeNames t with
    | some l, some k => some (.setkey l k)
    | _, _ => none
  | _ => none

/-- The mnemonics in lower case and how the operands of each make a command (R131). -/
def mnemonicTable : List (String × (List (List Char) → Option Instr)) :=
  [("nop", noOperand .nop), ("reset", noOperand .reset), ("clear", noOperand .clear), ("setkey", keyOperands),
    ("setmode", oneOperand modeNames .setmode), ("setpad", oneOperand padNames .setpad), ("waist", noOperand .waist),
    ("chn.setiv", oneOperand [] .chnSetiv)] ++
  [("chn.enc", oneOperand [] fun l => .chnEnc l false), ("chn.enc.nc", oneOperand [] fun l => .chnEnc l true),
    ("chn.dec", oneOperand [] fun l => .chnDec l false), ("chn.dec.nc", oneOperand [] fun l => .chnDec l true),
    ("chn.fine", noOperand .chnFine), ("chn.find", noOperand .chnFind)] ++
  [("gf.mod", noOperand .gfMod), ("gf.add", noOperand .gfAdd), ("gf.mul", noOperand .gfMul), ("gf.inv", noOperand .gfInv),
    ("gf.div", noOperand .gfDiv), ("gf.gmm", noOperand .gfGmm)] ++
  [("gcm.setiv", oneOperand [] .gcmSetiv), ("gcm.settaglen", oneOperand [] .gcmSettaglen),
    ("gcm.aad", oneOperand [] .gcmAad), ("gcm.enc", oneOperand [] .gcmEnc), ("gcm.dec", oneOperand [] .gcmDec),
    ("gcm.fine", noOperand .gcmFine), ("gcm.find", noOperand .gcmFind)]

/-- The command a line of assembler text spells (R131, R132). -/
def assemble (text : String) : Option Instr :=
  let line := splitLine text.toList
  match mnemonicTable.find? fun r => r.1.toList == line.1 with
  | none => none
  | some r => (r.2 line.2).filter Instr.wf

/-- The host pseudo-operations (R133). `cmd` names how many polls of STATUS come while the command runs. -/
inductive HostOp where
  | wr (reg : WinReg) (value : Nat)
  | ld (reg : WinReg) (bytes : Bytes)
  | cmd (word : Word) (polls : Nat)
  | rd (reg : WinReg)
deriving DecidableEq, Repr

/-- Offset and number of words of a register of the map (R81). -/
def placeOf (r : WinReg) : Nat × Nat :=
  match windowMap.find? fun row => decide (row.reg = r) with
  | none => (0, 0)
  | some row => (row.offset, row.size / 4)

/-- A 32-bit access that comes after the running command completes. -/
def lateEvent (e : Event) : Input := { early := false, event := e }

/-- The accesses a pseudo-operation stands for, for a window at `base` (R133): `wr` writes the words of an integer least
significant first, `ld` a byte string with zeros up to the register's size, `cmd` the command and its polls of STATUS, the
last of which comes after completion, `rd` every word. -/
def expandHostOp (base : Nat) : HostOp → List Input
  | .wr r v => (List.range (placeOf r).2).map fun k =>
      lateEvent (.write (base + (placeOf r).1 + 4 * k) 4 (BitVec.ofNat 32 (v >>> (32 * k))))
  | .ld r b => (List.range (placeOf r).2).map fun k =>
      lateEvent (.write (base + (placeOf r).1 + 4 * k) 4 (arrayWord (fill 64 b) k))
  | .cmd w polls =>
      lateEvent (.write (base + 0x004) 4 w) ::
        (List.replicate polls { early := true, event := .read (base + 0x008) 4 } ++ [lateEvent (.read (base + 0x008) 4)])
  | .rd r => (List.range (placeOf r).2).map fun k => lateEvent (.read (base + (placeOf r).1 + 4 * k) 4)

end Sys2Proof.Machine
end

