-- ==== Sys2Proof/Safety.lean ====
section
/-! DEFINITION. The vocabulary of the claims: the invariants every step keeps (10_state.md R57 and the fill and code rules
of R37, R45 to R51, R403), the law of the block transform (00_scope.md R9), the mathematical reading of integers as
polynomials (R19), and streams of chaining commands (41_chaining.md R200, R235). -/

namespace Sys2Proof.Machine

/-- The invariants of R57, one field per item. R57 bounds OUTLEN by BS after a chaining command only; with BS = 8 no GCM
command outputs anything (43_gcm.md R311), so the bound holds after every command. -/
structure Consistent (s : State) : Prop where
  idleEmpty : s.chn.cph = .idle → s.chn.iblen = 0
  buffered : s.chn.iblen ≤ s.bsz
  heldOnly : s.chn.iblen = s.bsz → s.chn.cph = .dec ∧ s.modes.pad ≠ .none
  sessionKeyed : s.gcm.gph ≠ .config → s.key.keyed = true ∧ s.gcm.givset = true
  ivLength : s.gcm.givset = true → 1 ≤ s.gcm.givlen ∧ s.gcm.givlen ≤ 64
  unkeyed : s.key.keyed = false → s.key.klen = 0
  shortData : s.gcm.dpart = true → s.gcm.gph = .data ∨ s.gcm.gph = .done
  latched : s.gcm.gdir ≠ .none → s.gcm.gph = .data ∨ s.gcm.gph = .done
  tagValid : s.status.tagv = true → s.gcm.gph = .done ∧ s.gcm.gdir ≠ .dec
  outputBound : s.status.outlen ≤ 16 ∧ s.status.outlen ≤ s.bsz

/-- The bytes beyond a register's fill count are 0: DOUT (R37), IBUF (R49), KEY (R45, R166), GIV (R51, R325), and beyond BS
the two chaining blocks (R47, R48). -/
structure ZeroFilled (s : State) : Prop where
  dout : ∀ i : Fin 16, s.status.outlen ≤ i.val → s.results.dout[i] = 0
  ibuf : ∀ i : Fin 16, s.chn.iblen ≤ i.val → s.chn.ibuf[i] = 0
  key : ∀ i : Fin 32, s.key.klen ≤ i.val → s.key.key[i] = 0
  giv : ∀ i : Fin 64, s.gcm.givlen ≤ i.val → s.gcm.giv[i] = 0
  civ : ∀ i : Fin 16, s.bsz ≤ i.val → s.chn.civ[i] = 0
  chain : ∀ i : Fin 16, s.bsz ≤ i.val → s.chn.chain[i] = 0

/-- The pairs (ECODE, EDET) of the table of 60_exceptions.md R403. -/
def errorPairs : List (Nat × Nat) :=
  [(1, 1), (1, 2), (1, 3), (2, 1), (2, 2), (2, 3), (2, 4), (2, 5), (2, 6), (2, 7), (2, 8), (2, 9), (2, 10), (2, 11),
    (2, 12), (2, 13)] ++
  [(2, 14), (2, 15), (2, 16), (3, 1), (3, 2), (4, 1), (5, 1), (5, 2), (5, 3), (6, 1), (6, 2), (7, 1), (7, 2)]

/-- STATUS names success, or a cause of R403 (R402). -/
def StatusNamesResult (st : Status) : Prop :=
  (st.err = false ∧ st.ecode = 0 ∧ st.edet = 0) ∨ (st.err = true ∧ (st.ecode.toNat, st.edet.toNat) ∈ errorPairs)

/-- The codes and lengths that are ever held: STATUS (R402, R403), TAGLEN (R46), KLEN and the key schedule (R45, R166),
GIVLEN (R51). -/
structure Legal (s : State) : Prop where
  status : StatusNamesResult s.status
  taglen : s.modes.taglen ∈ [4, 8, 12, 13, 14, 15, 16]
  klen : s.key.klen ≤ 32
  givlen : s.gcm.givlen ≤ 64
  keyLength : s.key.keyed = true → 1 ≤ s.key.klen
  schedule : s.key.keyed = s.key.ks.isSome

/-- The must-be-zero mask of an assigned opcode, by the formats of the opcode map (30_encoding.md R122, R126). -/
def mustBeZeroOf (opc : Nat) : Word :=
  if opc = 0x03 then 0xFFF00000#32
  else if opc = 0x11 ∨ opc = 0x12 then 0xFFFE0000#32
  else if opc ∈ [0x04, 0x05, 0x10, 0x30, 0x31, 0x32, 0x33, 0x34] then 0xFFFF0000#32
  else 0xFFFFFF00#32

/-- The law of the block transform: BT.dec(ks, BT.enc(ks, b)) = b on blocks of n bytes (R9). -/
def Lawful (bt : Transform) (n : Nat) : Prop :=
  ∀ (ks : KeySchedule) (b : Bytes), b.length = n → btDec bt n ks (btEnc bt n ks b) = b

/-- The polynomial over GF(2) an unsigned integer stands for: bit i is the coefficient of x^i (R19). Not part of the
machine: the reading that claims about the Galois field unit are made in. -/
noncomputable def toPoly (a : Nat) : Polynomial (ZMod 2) :=
  ∑ i ∈ Finset.range a, if a.testBit i then Polynomial.X ^ i else 0

/-- `rev128(v)`: bit i of the result is bit 127 - i of v (R20). -/
def rev128 (v : BitVec 128) : BitVec 128 := v.reverse

/-- The state of a command that ended with success (R402). -/
def okState (s : State) : State :=
  { s with status := { s.status with busy := false, err := false, ecode := 0, edet := 0 } }

/-- The state of a command that ended with an error class and detail code (R402). -/
def errState (s : State) (ecode : BitVec 4) (edet : BitVec 8) : State :=
  { s with status := { s.status with busy := false, err := true, ecode := ecode, edet := edet } }

/-- The state with DOUT = 0^16 and OUTLEN = 0, which a data-moving command has before its first check (R405). -/
def emptyOut (s : State) : State :=
  { s with results := { s.results with dout := Vector.replicate 16 0 }, status := { s.status with outlen := 0 } }

/-- The phase a stream of a direction is in (R201). -/
def streamPhase : Dir → ChainPhase
  | .enc => .enc
  | .dec => .dec

/-- What the host reads of the last output: DOUT[0..OUTLEN-1]. -/
def outputBytes (s : State) : Bytes := s.results.dout.toList.take s.status.outlen

/-- The state with a byte string in DIN, zero filled (30_encoding.md R133, `ld`). -/
def loadDin (b : Bytes) (s : State) : State := { s with host := { s.host with din := fill 16 b } }

/-- A command run to success: its output and the state after it; `none` if it ends with an error. -/
def runCommand (i : Instr) (s : State) : Option (Bytes × State) :=
  match exec i s with
  | .next t => if t.status.err then none else some (outputBytes t, t)
  | .fault _ => none
  | .refused _ => none

/-- The data command of a direction. -/
def dataCommand : Dir → Nat → Bool → Instr
  | .enc, l, nc => .chnEnc l nc
  | .dec, l, nc => .chnDec l nc

/-- The finish command of a direction. -/
def finishCommand : Dir → Instr
  | .enc => .chnFine
  | .dec => .chnFind

/-- A stream's chunks, one data command each: the concatenated outputs and the state after them (R200). -/
def runChunks (dir : Dir) : List Bytes → State → Option (Bytes × State)
  | [], s => some ([], s)
  | c :: cs, s =>
    match runCommand (dataCommand dir c.length false) (loadDin c s) with
    | none => none
    | some r => (runChunks dir cs r.2).map fun q => (r.1 ++ q.1, q.2)

/-- A whole stream: its chunks, then the finish (R200, R235). -/
def runStream (dir : Dir) (chunks : List Bytes) (s : State) : Option (Bytes × State) :=
  match runChunks dir chunks s with
  | none => none
  | some r => (runCommand (finishCommand dir) r.2).map fun q => (r.1 ++ q.1, q.2)

end Sys2Proof.Machine
end

