-- ==== Sys2Proof/Certificates/Slice0/Obligations.lean ====
section
/-! DEFINITION. The statements about the model, from the numbered rules of spec/. -/

open Sys2Proof Sys2Proof.Machine

/-! ## Encoding and decoding -/

/-- 30_encoding.md R121, R122, R126: every bit of every operand survives encoding and decoding. -/
def Obligations.DecodeOfEncodeIsTheCommand : Prop :=
  ∀ i : Instr, i.wf = true → decode (encode i) = .ok i

/-- 30_encoding.md R121, R122, R126: a word that decodes is the one word of its command, so no two words share a meaning. -/
def Obligations.DecodedWordIsItsEncoding : Prop :=
  ∀ (w : Word) (i : Instr), decode w = .ok i → i.wf = true ∧ encode i = w

/-- 30_encoding.md R134, an inference of the spec from R121, R122, R126, R127: the example words, from their assembler text and back, and the three that do not decode. -/
def Obligations.ExampleWordsDecode : Prop :=
  (∀ r ∈ [("nop", 0x00000000#32), ("setkey 16", 0x00001003#32), ("setkey 32, sym", 0x00002003#32),
      ("setmode cbc", 0x00000104#32), ("setpad pkcs7", 0x00000305#32), ("waist", 0x00000006#32),
      ("chn.setiv 16", 0x00001010#32), ("chn.enc 16", 0x00001011#32), ("chn.enc.nc 16", 0x00011011#32),
      ("chn.dec 4", 0x00000412#32), ("chn.fine", 0x00000013#32), ("chn.find", 0x00000014#32),
      ("gf.inv", 0x00000023#32), ("gf.gmm", 0x00000025#32), ("gcm.setiv 12", 0x00000C30#32),
      ("gcm.settaglen 16", 0x00001031#32), ("gcm.aad 16", 0x00001032#32), ("gcm.enc 16", 0x00001033#32),
      ("gcm.dec 16", 0x00001034#32), ("gcm.fine", 0x00000035#32), ("gcm.find", 0x00000036#32)],
    (assemble r.1).map encode = some r.2 ∧ (assemble r.1).map Except.ok = some (decode r.2)) ∧
  decode 0x00000104#32 = .ok (.setmode 1) ∧ decode 0x00011011#32 = .ok (.chnEnc 16 true) ∧
  decode 0x00002003#32 = .ok (.setkey 32 0) ∧ decode 0x00000C30#32 = .ok (.gcmSetiv 12) ∧
  decode 0x00000107#32 = .error .badOpcode ∧ decode 0x00000113#32 = .error .reservedBits ∧
  decode 0x00021011#32 = .error .reservedBits

/-- 30_encoding.md R127, R128: the unassigned opcodes complete with (7, 1), an assigned one with a must-be-zero bit at 1
with (7, 2), both changing the status only; every other word decodes and its command runs. -/
def Obligations.UndecodableWordsAreIllegal : Prop :=
  ∀ s : State,
    let opc := s.pend.toNat % 256
    let unassigned := (0x07 ≤ opc ∧ opc ≤ 0x0F) ∨ (0x15 ≤ opc ∧ opc ≤ 0x1F) ∨ (0x26 ≤ opc ∧ opc ≤ 0x2F) ∨ 0x37 ≤ opc
    (unassigned → engineStep s = .next (errState s 7 1)) ∧
    (¬unassigned → s.pend &&& mustBeZeroOf opc ≠ 0 → engineStep s = .next (errState s 7 2)) ∧
    (¬unassigned → s.pend &&& mustBeZeroOf opc = 0 → ∃ i, decode s.pend = .ok i ∧ engineStep s = exec i s)

/-! ## The execution cycle -/

/-- 60_exceptions.md R400: with a command pending, the reset input released and no event that comes first, a step is the
decoded command and nothing around it. -/
def Obligations.StepRunsThePendingCommand : Prop :=
  ∀ (s : State) (i : Instr), s.status.busy = true → s.env.inReset = false →
    (s.env.inputs = [] ∨ ∃ e es, s.env.inputs = e :: es ∧ e.early = false) → decode s.pend = .ok i →
    step s = exec i s

/-- 60_exceptions.md R400 part 1, 10_state.md R32: a write of CMD with BUSY = 0 latches PEND and sets BUSY, nothing else. -/
def Obligations.CommandWriteIsAccepted : Prop :=
  ∀ (s : State) (w : Word) (early : Bool) (rest : List Input),
    s.status.busy = false → s.env.inReset = false →
    s.env.inputs = { early := early, event := .write (s.params.base + 0x004) 4 w } :: rest →
    step s = .next { s with
      pend := w
      status := { s.status with busy := true }
      env := { s.env with inputs := rest } }

/-- 60_exceptions.md R400, R402, R403: every command completes, BUSY falls, and STATUS names success or one cause of the
table, whatever STATUS held before. -/
def Obligations.EveryCommandNamesItsResult : Prop :=
  ∀ (i : Instr) (s : State), ∃ t, exec i s = .next t ∧ t.status.busy = false ∧ StatusNamesResult t.status

/-! ## Invariants -/

/-- 10_state.md R57, an inference of the spec from its command rules: every step keeps the invariants of R57 (with OUTLEN at
most BS after every command, log 18). -/
def Obligations.StepKeepsConsistency : Prop :=
  ∀ s t : State, Consistent s → step s = .next t → Consistent t

/-- 10_state.md R37, R45, R47 to R49, R51: every step keeps the bytes beyond each fill count at 0. -/
def Obligations.StepKeepsZeroFill : Prop :=
  ∀ s t : State, ZeroFilled s → step s = .next t → ZeroFilled t

/-- 10_state.md R45, R46, 60_exceptions.md R402, R403: every step keeps STATUS, TAGLEN, KLEN and KS among the legal
values. -/
def Obligations.StepKeepsLegalCodes : Prop :=
  ∀ s t : State, Legal s → step s = .next t → Legal t

/-- The invariants hold after hardware reset for every value of the parameters (which are the model's choice, log 1). -/
def Obligations.ResetMeetsTheInvariants : Prop :=
  (∀ p : Params, Consistent (State.resetWith p) ∧ ZeroFilled (State.resetWith p) ∧ Legal (State.resetWith p)) ∧
  State.reset = State.resetWith State.reset.params

/-! ## The reset input, RESET and CLEAR -/

/-- 70_reset_and_hazards.md R450 with the hardware column of 10_state.md R58: asserting the reset input, also while a
command runs, puts every element at its reset value; while it is asserted reads return 0 and writes are ignored; releasing
it leaves those values. R450 speaks of the values at the release: that they stand from the assertion on is the model's
choice (log 6), and so is what lies outside the block and is kept, the parameters, the events to come, the word last read
and the free-value counter (log 6). -/
def Obligations.ResetInputResetsEverything : Prop :=
  (∀ (s : State) (early : Bool) (rest : List Input),
    s.env.inputs = { early := early, event := .resetLine true } :: rest →
    s.status.busy = false ∨ early = true →
    step s = .next
      { params := s.params
        status := { busy := false, err := false, ovr := false, tagv := false, ecode := 0, edet := 0, outlen := 0 }
        host := { win := 0, din := Vector.replicate 16 0, tagin := Vector.replicate 16 0,
                  keybuf := Vector.replicate 32 0, ivin := Vector.replicate 64 0, ga := 0, gb := 0, p := 0 }
        results := { wout := 0, dout := Vector.replicate 16 0, tag := Vector.replicate 16 0, gr := 0 }
        key := { key := Vector.replicate 32 0, klen := 0, ks := none, keyed := false }
        modes := { mode := .ecb, pad := .none, taglen := 16 }
        chn := { civ := Vector.replicate 16 0, chain := Vector.replicate 16 0, ibuf := Vector.replicate 16 0,
                 iblen := 0, cph := .idle }
        gcm := { giv := Vector.replicate 64 0, givlen := 0, givset := false, h := Vector.replicate 16 0,
                 j0 := Vector.replicate 16 0, cb := Vector.replicate 16 0, acc := Vector.replicate 16 0, alen := 0,
                 clen := 0, gph := .config, aadpart := false, dpart := false, gdir := .none }
        pend := 0
        env := { s.env with inReset := true, inputs := rest } }) ∧
  (∀ (s : State) (early : Bool) (off : Nat) (rest : List Input), off < 0x400 → off % 4 = 0 → s.env.inReset = true →
    (s.env.inputs = { early := early, event := .read (s.params.base + off) 4 } :: rest →
      step s = .next { s with env := { s.env with rdata := 0, inputs := rest } }) ∧
    (∀ v, s.env.inputs = { early := early, event := .write (s.params.base + off) 4 v } :: rest →
      step s = .next { s with env := { s.env with inputs := rest } })) ∧
  (∀ (s : State) (early : Bool) (rest : List Input), s.env.inReset = true →
    s.env.inputs = { early := early, event := .resetLine false } :: rest →
    step s = .next { s with env := { s.env with inReset := false, inputs := rest } })

/-- 40_control.md R161 to R164 and the RESET and CLEAR columns of 10_state.md R58: every element after RESET and after
CLEAR, those kept included. -/
def Obligations.ResetAndClearStates : Prop :=
  encode .reset = 0x00000001#32 ∧ encode .clear = 0x00000002#32 ∧
  ∀ s : State,
    exec .reset s = .next (okState
    { s with
      status := { s.status with tagv := false, outlen := 0 }
      host := { s.host with keybuf := Vector.replicate 32 0 }
      results := { s.results with dout := Vector.replicate 16 0, tag := Vector.replicate 16 0 }
      key := { key := Vector.replicate 32 0, klen := 0, ks := none, keyed := false }
      chn := { civ := Vector.replicate 16 0, chain := Vector.replicate 16 0, ibuf := Vector.replicate 16 0, iblen := 0,
               cph := .idle }
      gcm := { giv := Vector.replicate 64 0, givlen := 0, givset := false, h := Vector.replicate 16 0,
               j0 := Vector.replicate 16 0, cb := Vector.replicate 16 0, acc := Vector.replicate 16 0, alen := 0,
               clen := 0, gph := .config, aadpart := false, dpart := false, gdir := .none } }) ∧
    exec .clear s = .next (okState
    { s with
      status := { s.status with tagv := false, outlen := 0 }
      results := { s.results with dout := Vector.replicate 16 0, tag := Vector.replicate 16 0 }
      chn := { s.chn with chain := s.chn.civ, ibuf := Vector.replicate 16 0, iblen := 0, cph := .idle }
      gcm := { s.gcm with acc := Vector.replicate 16 0, alen := 0, clen := 0, gph := .config, aadpart := false,
                          dpart := false, gdir := .none } })

/-- 70_reset_and_hazards.md R453, an inference of the spec (the document's property 7): after RESET, the key loaded again and SETKEY, an encode
command on any input gives what it gives on a freshly reset instance with the same MODE and PAD, in every result the
chaining driver has, and leaves the same chaining state. -/
def Obligations.ResetThenSetkeyIsFresh : Prop :=
  ∀ (s r u v t t' : State) (kb : Vector Byte 32) (d : Block) (l imm : Nat) (nc : Bool),
    exec .reset s = .next r →
    exec (.setkey l 0) { r with host := { r.host with keybuf := kb } } = .next u →
    exec (.setkey l 0)
      { State.resetWith s.params with
        modes := s.modes
        host := { (State.resetWith s.params).host with keybuf := kb } } = .next v →
    exec (.chnEnc imm nc) { u with host := { u.host with din := d } } = .next t →
    exec (.chnEnc imm nc) { v with host := { v.host with din := d } } = .next t' →
    u.key = v.key ∧ u.chn = v.chn ∧ t.chn = t'.chn ∧ t.results.dout = t'.results.dout ∧
    t.status.outlen = t'.status.outlen ∧ t.status.err = t'.status.err ∧ t.status.ecode = t'.status.ecode ∧
    t.status.edet = t'.status.edet

/-! ## The register window -/

/-- 20_memory.md R84, R412: a host access that is not 4 bytes wide or not at a multiple of 4 is refused; R80: one outside
the window faults (log 10). -/
def Obligations.UnsupportedAccessesStop : Prop :=
  ∀ (s : State) (early : Bool) (addr width : Nat) (v : Word) (rest : List Input) (e : Event),
    (e = .read addr width ∨ e = .write addr width v) →
    s.env.inputs = { early := early, event := e } :: rest → s.status.busy = false ∨ early = true →
    ((s.params.base ≤ addr ∧ addr < s.params.base + 0x400) → (width ≠ 4 ∨ (addr - s.params.base) % 4 ≠ 0) →
      step s = .refused (.unsupportedAccess addr width)) ∧
    (¬(s.params.base ≤ addr ∧ addr < s.params.base + 0x400) → step s = .fault (.outsideWindow addr))

/-- 20_memory.md R82, R83: a write to a reserved offset or a read-only register changes nothing and sets no OVR, busy or
not; a read of a reserved offset, of CMD or of KEYBUF returns 0 and has no other effect (a read while BUSY moves the model's
own free-value counter, log 7); a write of CMD while BUSY sets OVR. That the reads return 0 while BUSY = 1 too is the
model's reading, R83 over R473 (log 8). -/
def Obligations.ReservedAndOneWayRegisters : Prop :=
  ∀ (s : State) (early : Bool) (off : Nat) (rest : List Input),
    s.env.inReset = false → off < 0x400 → off % 4 = 0 → s.status.busy = false ∨ early = true →
    (∀ v, s.env.inputs = { early := early, event := .write (s.params.base + off) 4 v } :: rest →
      (off = 0x000 ∨ off = 0x008 ∨ off = 0x00C ∨ off = 0x010 ∨ off = 0x018 ∨ off = 0x01C ∨ (0x030 ≤ off ∧ off < 0x040) ∨
        (0x050 ≤ off ∧ off < 0x060) ∨ (0x100 ≤ off ∧ off < 0x120) ∨ 0x140 ≤ off →
        step s = .next { s with env := { s.env with inputs := rest } }) ∧
      (off = 0x004 → s.status.busy = true →
        step s = .next { s with status := { s.status with ovr := true }, env := { s.env with inputs := rest } })) ∧
    (s.env.inputs = { early := early, event := .read (s.params.base + off) 4 } :: rest →
      (off = 0x004 ∨ (0x060 ≤ off ∧ off < 0x080) ∨ 0x140 ≤ off) →
      step s = .next { s with env := { s.env with
        inputs := rest
        rdata := 0
        freeCtr := if s.status.busy then s.env.freeCtr + 1 else s.env.freeCtr } })

/-- 20_memory.md R80, R85 to R88, 10_state.md R36 to R43, with BUSY = 0 and the reset input released: a step of a host write
is `writeWord` and a step of a host read puts `idleReadWord` in the word last read and does nothing else (R86). A write to a
read-write register reads back at its offset and changes the word read at no other offset of the window; the state keeps
everything but the host-written registers. KEYBUF (write-only) changes no read at all. The list of events is the model's
choice (log 4). -/
def Obligations.WindowWriteReadsBack : Prop :=
  ∀ (s : State) (off : Nat) (v : Word), s.status.busy = false → off < 0x400 → off % 4 = 0 →
    (∀ (early : Bool) (rest : List Input), s.env.inReset = false →
      (s.env.inputs = { early := early, event := .write (s.params.base + off) 4 v } :: rest →
        step s = .next { writeWord s off v with env := { s.env with inputs := rest } }) ∧
      (s.env.inputs = { early := early, event := .read (s.params.base + off) 4 } :: rest →
        step s = .next { s with env := { s.env with inputs := rest, rdata := idleReadWord s off } })) ∧
    (off = 0x014 ∨ (0x020 ≤ off ∧ off < 0x030) ∨ (0x040 ≤ off ∧ off < 0x050) ∨ (0x080 ≤ off ∧ off < 0x100) ∨
        (0x120 ≤ off ∧ off < 0x140) → idleReadWord (writeWord s off v) off = v) ∧
    (off ≠ 0x004 → ∀ off', off' < 0x400 → off' % 4 = 0 → off' ≠ off →
      idleReadWord (writeWord s off v) off' = idleReadWord s off') ∧
    (off ≠ 0x004 → writeWord s off v = { s with host := (writeWord s off v).host })

/-- 20_memory.md R81, R87, R88, 10_state.md R31, with BUSY = 0, for every register: where the bytes of a written bus word go
in a byte array (lane j of word k is byte 4k + j) and its bits in an integer (word k is bits 32k to 32k + 31), with every
other register of the host kept; and the word a host read returns, for the registers that only commands write too.
That these are what a step does is `WindowWriteReadsBack`. -/
def Obligations.ByteLanesAndWordOrder : Prop :=
  (∀ (s : State) (k : Nat) (v : Word), s.status.busy = false →
    let put := fun o : Nat => (writeWord s (o + 4 * k) v).host
    let lane := fun (i : Nat) (old : Byte) => if i / 4 = k then v.extractLsb' (8 * (i % 4)) 8 else old
    let bitAt := fun (b : Nat) (old : Bool) => if b / 32 = k then v.getLsbD (b % 32) else old
    (k = 0 → put 0x014 = { s.host with win := v }) ∧
    (k < 4 → ∃ a : Block, put 0x020 = { s.host with din := a } ∧ ∀ i : Fin 16, a[i] = lane i.val s.host.din[i]) ∧
    (k < 4 → ∃ a : Block, put 0x040 = { s.host with tagin := a } ∧ ∀ i : Fin 16, a[i] = lane i.val s.host.tagin[i]) ∧
    (k < 8 → ∃ a : Vector Byte 32, put 0x060 = { s.host with keybuf := a } ∧
      ∀ i : Fin 32, a[i] = lane i.val s.host.keybuf[i]) ∧
    (k < 16 → ∃ a : Vector Byte 64, put 0x080 = { s.host with ivin := a } ∧
      ∀ i : Fin 64, a[i] = lane i.val s.host.ivin[i]) ∧
    (k < 8 → ∃ a : FieldReg, put 0x0C0 = { s.host with ga := a } ∧
      ∀ b < 256, a.getLsbD b = bitAt b (s.host.ga.getLsbD b)) ∧
    (k < 8 → ∃ a : FieldReg, put 0x0E0 = { s.host with gb := a } ∧
      ∀ b < 256, a.getLsbD b = bitAt b (s.host.gb.getLsbD b)) ∧
    (k < 8 → ∃ a : FieldReg, put 0x120 = { s.host with p := a } ∧
      ∀ b < 256, a.getLsbD b = bitAt b (s.host.p.getLsbD b))) ∧
  ∀ s : State,
    let byteAt := fun o i : Nat => (idleReadWord s (o + 4 * (i / 4))).extractLsb' (8 * (i % 4)) 8
    let bitAt := fun o b : Nat => (idleReadWord s (o + 4 * (b / 32))).getLsbD (b % 32)
    idleReadWord s 0x000 = 0x47460001#32 ∧ idleReadWord s 0x014 = s.host.win ∧
    (∀ b < 64, bitAt 0x018 b = s.results.wout.getLsbD b) ∧
    (∀ i : Fin 16, byteAt 0x020 i.val = s.host.din[i] ∧ byteAt 0x030 i.val = s.results.dout[i] ∧
      byteAt 0x040 i.val = s.host.tagin[i] ∧ byteAt 0x050 i.val = s.results.tag[i]) ∧
    (∀ i : Fin 64, byteAt 0x080 i.val = s.host.ivin[i]) ∧
    (∀ b < 256, bitAt 0x0C0 b = s.host.ga.getLsbD b ∧ bitAt 0x0E0 b = s.host.gb.getLsbD b ∧
      bitAt 0x100 b = s.results.gr.getLsbD b ∧ bitAt 0x120 b = s.host.p.getLsbD b)

/-- 70_reset_and_hazards.md R472: a write to a writable register while BUSY = 1 is dropped and sets OVR, nothing else. -/
def Obligations.BusyWriteIsDropped : Prop :=
  ∀ (s : State) (off : Nat) (v : Word) (rest : List Input),
    s.env.inReset = false → s.status.busy = true → off % 4 = 0 →
    s.env.inputs = { early := true, event := .write (s.params.base + off) 4 v } :: rest →
    (off = 0x004 ∨ off = 0x014 ∨ (0x020 ≤ off ∧ off < 0x030) ∨ (0x040 ≤ off ∧ off < 0x050) ∨
      (0x060 ≤ off ∧ off < 0x100) ∨ (0x120 ≤ off ∧ off < 0x140)) →
    step s = .next { s with status := { s.status with ovr := true }, env := { s.env with inputs := rest } }

/-- 70_reset_and_hazards.md R473, 20_memory.md R86: a read while BUSY = 1 has no side effect (it moves the model's own
free-value counter, log 7); ID reads as ever, and STATUS gives BUSY = 1 and the current OVR. Nothing is said of the other
bits. -/
def Obligations.BusyReadShowsBusyAndOverrun : Prop :=
  ∀ (s : State) (off : Nat) (rest : List Input),
    s.env.inReset = false → s.status.busy = true → off < 0x400 → off % 4 = 0 →
    s.env.inputs = { early := true, event := .read (s.params.base + off) 4 } :: rest →
    ∃ w, step s = .next { s with env :=
        { s.env with inputs := rest, rdata := w, freeCtr := s.env.freeCtr + 1 } } ∧
      (off = 0x000 → w = 0x47460001#32) ∧
      (off = 0x008 → w.getLsbD 0 = true ∧ w.getLsbD 2 = s.status.ovr)

/-- 10_state.md R33, R34, R35: each field of the words STATUS, CFG and STATE that the host reads with BUSY = 0, reserved
bits included, in states that meet the invariants, with the numbers the tables of R34 and R35 give the modes and phases. -/
def Obligations.MirrorWordFields : Prop :=
  ∀ s : State, Consistent s → Legal s → s.status.busy = false →
    let mode : Nat := match s.modes.mode with
      | .ecb => 0
      | .cbc => 1
      | .xcbc => 2
      | .cfb => 3
      | .ofb => 4
    let pad : Nat := match s.modes.pad with
      | .none => 0
      | .bit => 1
      | .x923 => 2
      | .pkcs7 => 3
    let cph : Nat := match s.chn.cph with
      | .idle => 0
      | .enc => 1
      | .dec => 2
      | .failed => 3
    let gph : Nat := match s.gcm.gph with
      | .config => 0
      | .aad => 1
      | .data => 2
      | .done => 3
    let gdir : Nat := match s.gcm.gdir with
      | .none => 0
      | .enc => 1
      | .dec => 2
    let bs : Nat := match s.params.bs with
      | .eight => 8
      | .sixteen => 16
    (readWord s 0x008).toNat = 2 * s.status.err.toNat + 2 ^ 2 * s.status.ovr.toNat + 2 ^ 3 * s.status.tagv.toNat +
      2 ^ 4 * s.status.ecode.toNat + 2 ^ 8 * s.status.edet.toNat + 2 ^ 16 * s.status.outlen ∧
    (readWord s 0x00C).toNat = mode + 2 ^ 4 * pad + 2 ^ 8 * s.modes.taglen + 2 ^ 16 * bs +
      2 ^ 24 * s.key.keyed.toNat + 2 ^ 25 * s.gcm.givset.toNat + 2 ^ 26 * s.key.klen ∧
    (readWord s 0x010).toNat = s.chn.iblen + 2 ^ 8 * cph + 2 ^ 12 * gph + 2 ^ 14 * s.gcm.aadpart.toNat +
      2 ^ 15 * s.gcm.dpart.toNat + 2 ^ 16 * gdir + 2 ^ 18 * s.gcm.givlen

/-- 60_exceptions.md R411, 10_state.md R39, R45: no host read tells two instances apart that differ only in KEYBUF, KEY and
KS, at any offset, busy or not. -/
def Obligations.KeyMaterialIsNotReadable : Prop :=
  ∀ (s : State) (kb key : Vector Byte 32) (ks : Option KeySchedule) (off : Nat),
    readWord { s with host := { s.host with keybuf := kb }, key := { s.key with key := key, ks := ks } } off =
      readWord s off

/-! ## Front-end and configuration commands -/

/-- 40_control.md R160: NOP clears OVR and does nothing else, and no other command clears it. -/
def Obligations.NopClearsOverrunOnly : Prop :=
  encode .nop = 0x00000000#32 ∧
  (∀ s : State, exec .nop s = .next (okState { s with status := { s.status with ovr := false } })) ∧
  ∀ (i : Instr) (s t : State), exec i s = .next t → s.status.ovr = true → t.status.ovr = false → i = .nop

/-- 40_control.md R166: SETKEY binds the key and does what CLEAR does, or fails with the first cause that applies and
changes nothing. -/
def Obligations.SetkeyBindsOrFails : Prop :=
  encode (.setkey 16 0) = 0x00001003#32 ∧
  ∀ (s : State) (l ktype : Nat),
    (ktype ≠ 0 → exec (.setkey l ktype) s = .next (errState s 1 3)) ∧
    (ktype = 0 → l < 1 ∨ l > 32 → exec (.setkey l ktype) s = .next (errState s 1 1)) ∧
    (ktype = 0 → 1 ≤ l → l ≤ 32 → btAccepts s.params.bt s.bsz (8 * l) = false →
      exec (.setkey l ktype) s = .next (errState s 1 2)) ∧
    (ktype = 0 → 1 ≤ l → l ≤ 32 → btAccepts s.params.bt s.bsz (8 * l) = true →
      ∃ k : Vector Byte 32,
        (∀ i : Fin 32, k[i] = if i.val < l then s.host.keybuf[i] else 0) ∧
        exec (.setkey l ktype) s = .next (okState
          { s with
            key := { key := k, klen := l, ks := some (btSetkey s.params.bt s.bsz (s.host.keybuf.toList.take l)),
                     keyed := true }
            status := { s.status with tagv := false, outlen := 0 }
            results := { s.results with dout := Vector.replicate 16 0, tag := Vector.replicate 16 0 }
            chn := { s.chn with chain := s.chn.civ, ibuf := Vector.replicate 16 0, iblen := 0, cph := .idle }
            gcm := { s.gcm with acc := Vector.replicate 16 0, alen := 0, clen := 0, gph := .config, aadpart := false,
                                dpart := false, gdir := .none } }))

/-- 40_control.md R170, R171, R175: the five modes and the four paddings, the refusals in their order, and no other
effect. -/
def Obligations.SetmodeAndSetpadConfigure : Prop :=
  encode (.setmode 1) = 0x00000104#32 ∧ encode (.setpad 3) = 0x00000305#32 ∧
  ∀ s : State,
    (∀ r ∈ [(0, Mode.ecb), (1, .cbc), (2, .xcbc), (3, .cfb), (4, .ofb)],
      exec (.setmode r.1) s = .next (okState { s with modes := { s.modes with mode := r.2 } })) ∧
    (∀ imm, imm > 4 → exec (.setmode imm) s = .next (errState s 2 1)) ∧
    (∀ r ∈ [(0, PadMode.none), (1, .bit), (2, .x923), (3, .pkcs7)],
      (s.chn.cph = .idle ∨ s.chn.cph = .failed →
        exec (.setpad r.1) s = .next (okState { s with modes := { s.modes with pad := r.2 } })) ∧
      (s.chn.cph = .enc ∨ s.chn.cph = .dec → exec (.setpad r.1) s = .next (errState s 2 3))) ∧
    (∀ imm, imm > 3 → exec (.setpad imm) s = .next (errState s 2 2))

/-- 40_control.md R190: WAIST writes WOUT and nothing else, and no input size overflows. -/
def Obligations.WaistReportsOutputSize : Prop :=
  encode .waist = 0x00000006#32 ∧
  ∀ s : State, ∃ w : BitVec 64, exec .waist s = .next (okState { s with results := { s.results with wout := w } }) ∧
    (s.modes.pad = .none → w.toNat = s.host.win.toNat) ∧
    (s.modes.pad ≠ .none → w.toNat = (s.host.win.toNat / s.params.bs.bytes + 1) * s.params.bs.bytes)

/-- 40_control.md R180: CHN.SETIV takes BS bytes of IVIN into CIV and CHAIN, or refuses the length. -/
def Obligations.ChnSetivSeedsTheChain : Prop :=
  encode (.chnSetiv 16) = 0x00001010#32 ∧
  ∀ (s : State) (l : Nat),
    (l = s.params.bs.bytes → ∃ iv : Block,
      (∀ i : Fin 16, iv[i] = if i.val < s.params.bs.bytes then s.host.ivin[i.val] else 0) ∧
      exec (.chnSetiv l) s = .next (okState { s with chn := { s.chn with civ := iv, chain := iv } })) ∧
    (l ≠ s.params.bs.bytes → exec (.chnSetiv l) s = .next (errState s 2 4))

/-! ## Chaining -/

/-- 41_chaining.md R205 to R210, R213, R215: the output, the new CHAIN and the whole state after a data command that
completes a block, the first of its stream or a later one, made of buffered and new bytes, mode by mode and direction by
direction. Bytes of CHAIN beyond BS are 0 before and after (ZeroFilled; log 13), and the key schedule is the one held. -/
def Obligations.ChainingEquations : Prop :=
  ∀ (s : State) (dir : Dir) (l : Nat) (nc : Bool) (ks : KeySchedule), ZeroFilled s → s.key.keyed = true →
    s.key.ks = some ks → s.chn.cph = .idle ∨ s.chn.cph = streamPhase dir → l ≤ s.params.bs.bytes →
    ¬(s.modes.mode = .xcbc ∧ nc = true) →
    let n := s.params.bs.bytes
    let buf := s.chn.ibuf.toList.take s.chn.iblen ++ s.host.din.toList.take l
    buf.length > n ∨ (buf.length = n ∧ ¬(dir = .dec ∧ s.modes.pad ≠ .none)) →
    let E := fun b => btEnc s.params.bt n ks b
    let D := fun b => btDec s.params.bt n ks b
    let x := buf.take n
    let c := s.chn.chain.toList.take n
    let yc : Bytes × Option Bytes := match s.modes.mode, dir with
      | .ecb, .enc => (E x, none)
      | .ecb, .dec => (D x, none)
      | .cbc, .enc => (E (xorBytes x c), some (E (xorBytes x c)))
      | .xcbc, .enc => (E (xorBytes x c), some (E (xorBytes x c)))
      | .cbc, .dec => (xorBytes (D x) c, some x)
      | .xcbc, .dec => (xorBytes (D x) c, some x)
      | .cfb, .enc => (xorBytes x (E c), some (xorBytes x (E c)))
      | .cfb, .dec => (xorBytes x (E c), some x)
      | .ofb, .enc => (xorBytes x (E c), some (E c))
      | .ofb, .dec => (xorBytes x (E c), some (E c))
    exec (dataCommand dir l nc) s = .next (okState
      { s with
        results := { s.results with dout := fill 16 yc.1 }
        status := { s.status with outlen := n }
        chn := { s.chn with
          chain := (yc.2.map (fill 16)).getD s.chn.chain
          ibuf := fill 16 (buf.drop n)
          iblen := buf.length - n
          cph := streamPhase dir } })

/-- 41_chaining.md R213 to R216, R220, R222: when a data command runs, what it buffers, whether it outputs a block, and its
frame. The block goes out as soon as it is complete, except that a decode with padding waits for one more byte. -/
def Obligations.DataCommandBuffersAndOutputs : Prop :=
  ∀ (s : State) (dir : Dir) (l : Nat) (nc : Bool), Consistent s → s.key.keyed = true →
    s.chn.cph = .idle ∨ s.chn.cph = streamPhase dir → l ≤ s.params.bs.bytes → ¬(s.modes.mode = .xcbc ∧ nc = true) →
    let n := s.params.bs.bytes
    let buf := s.chn.ibuf.toList.take s.chn.iblen ++ s.host.din.toList.take l
    let full := s.chn.iblen + l > n ∨ (s.chn.iblen + l = n ∧ ¬(dir = .dec ∧ s.modes.pad ≠ .none))
    ∃ t, exec (dataCommand dir l nc) s = .next t ∧
      (full → t.status.outlen = n ∧ t.chn.iblen = s.chn.iblen + l - n ∧
        t.chn.ibuf.toList.take t.chn.iblen = buf.drop n) ∧
      (¬full → t.status.outlen = 0 ∧ t.results.dout = Vector.replicate 16 0 ∧ t.chn.iblen = s.chn.iblen + l ∧
        t.chn.ibuf.toList.take t.chn.iblen = buf ∧ t.chn.chain = s.chn.chain) ∧
      t = okState { s with
        status := { s.status with outlen := t.status.outlen }
        results := { s.results with dout := t.results.dout }
        chn := { s.chn with chain := t.chn.chain, ibuf := t.chn.ibuf, iblen := t.chn.iblen, cph := streamPhase dir } }

/-- 41_chaining.md R211: in XCBC a data command with NC = 1 needs an empty buffer and runs as one with NC = 0 from
CHAIN = CIV; in every other mode NC is ignored. -/
def Obligations.NewCallReseedsChain : Prop :=
  ∀ (s : State) (dir : Dir) (l : Nat),
    (s.modes.mode ≠ .xcbc → exec (dataCommand dir l true) s = exec (dataCommand dir l false) s) ∧
    (s.modes.mode = .xcbc → s.key.keyed = true → s.chn.cph = .idle ∨ s.chn.cph = streamPhase dir →
      l ≤ s.params.bs.bytes →
      (s.chn.iblen ≠ 0 → exec (dataCommand dir l true) s = .next (errState (emptyOut s) 2 8)) ∧
      (s.chn.iblen = 0 → exec (dataCommand dir l true) s =
        exec (dataCommand dir l false) { s with chn := { s.chn with chain := s.chn.civ } }))

/-- 60_exceptions.md R405, 41_chaining.md R220, R222, R227, R230, R234: the first cause that applies, in the order of R405,
and no other effect but the emptied output. -/
def Obligations.ChainingErrorsInOrder : Prop :=
  ∀ (s : State) (dir : Dir) (l : Nat) (nc : Bool) (i : Instr), i = dataCommand dir l nc ∨ i = finishCommand dir →
    let other : ChainPhase := match dir with
      | .enc => .dec
      | .dec => .enc
    (s.key.keyed = false → exec i s = .next (errState (emptyOut s) 6 1)) ∧
    (s.key.keyed = true → s.chn.cph = .failed → exec i s = .next (errState (emptyOut s) 6 2)) ∧
    (s.key.keyed = true → s.chn.cph = other → exec i s = .next (errState (emptyOut s) 2 6)) ∧
    (s.key.keyed = true → s.chn.cph ≠ .failed → s.chn.cph ≠ other →
      (i = dataCommand dir l nc → l > s.params.bs.bytes → exec i s = .next (errState (emptyOut s) 2 5)) ∧
      (i = finishCommand dir → s.modes.pad = .none → s.chn.iblen ≠ 0 →
        exec i s = .next (errState (emptyOut s) 2 7)))

/-- 41_chaining.md R227, R230 with PAD = NONE: a finish with nothing buffered outputs nothing and ends the stream; CHAIN is
kept (R233). -/
def Obligations.UnpaddedFinishEndsStream : Prop :=
  ∀ (s : State) (dir : Dir), s.key.keyed = true → s.chn.cph = .idle ∨ s.chn.cph = streamPhase dir →
    s.modes.pad = .none → s.chn.iblen = 0 → ZeroFilled s →
    exec (finishCommand dir) s = .next (okState { emptyOut s with chn := { s.chn with cph := .idle } })

/-- 41_chaining.md R217, R218, R227: with padding, CHN.FINE outputs the block that feeding the p = BS - IBLEN padding bytes
would, and closes the stream with an empty buffer. The padding bytes are `0x80` and zeros, zeros and p, or p times p. -/
def Obligations.FinishPadsTheLastBlock : Prop :=
  ∀ (s : State) (p : Nat) (padding : Bytes), Consistent s → s.key.keyed = true →
    s.chn.cph = .idle ∨ s.chn.cph = .enc → p = s.params.bs.bytes - s.chn.iblen →
    (s.modes.pad = .bit ∧ padding = 0x80#8 :: List.replicate (p - 1) 0) ∨
      (s.modes.pad = .x923 ∧ padding = List.replicate (p - 1) 0 ++ [BitVec.ofNat 8 p]) ∨
      (s.modes.pad = .pkcs7 ∧ padding = List.replicate p (BitVec.ofNat 8 p)) →
    ∃ u, exec (.chnEnc p false) (loadDin padding s) = .next u ∧ u.status.outlen = s.params.bs.bytes ∧
      u.chn.iblen = 0 ∧
      exec .chnFine s = .next { u with host := s.host, chn := { u.chn with cph := .idle } }

/-- 41_chaining.md R230: with padding, CHN.FIND decodes the held block, which CHN.DEC would output with PAD = NONE, strips
the p padding bytes or fails, and outputs nothing on failure; without a held block it fails and CHAIN is kept. -/
def Obligations.FinishStripsTheLastBlock : Prop :=
  ∀ s : State, s.key.keyed = true → s.chn.cph = .idle ∨ s.chn.cph = .dec → s.modes.pad ≠ .none →
    let n := s.params.bs.bytes
    (s.chn.iblen ≠ n → exec .chnFind s = .next (errState
      { emptyOut s with chn := { s.chn with ibuf := Vector.replicate 16 0, iblen := 0, cph := .failed } } 3 1)) ∧
    (s.chn.iblen = n → ∃ u, exec (.chnDec 0 false) { s with modes := { s.modes with pad := .none } } = .next u ∧
      u.status.outlen = n ∧
      let chain := u.chn.chain
      let y := u.results.dout.toList.take n
      (padLength s.modes.pad n y = none → exec .chnFind s = .next (errState
        { emptyOut s with chn := { s.chn with
            chain := chain, ibuf := Vector.replicate 16 0, iblen := 0, cph := .failed } } 3 2)) ∧
      (∀ p, padLength s.modes.pad n y = some p → exec .chnFind s = .next (okState
        { s with
          results := { s.results with dout := fill 16 (y.take (n - p)) }
          status := { s.status with outlen := n - p }
          chn := { s.chn with chain := chain, ibuf := Vector.replicate 16 0, iblen := 0, cph := .idle } })))

/-- 41_chaining.md R217, R219: the padding check accepts exactly the blocks that padding makes, with their pad length. -/
def Obligations.PaddingCheckIsExact : Prop :=
  ∀ (bs : BlockSize) (pad : PadMode) (y : Bytes) (p : Nat), pad ≠ .none → y.length = bs.bytes →
    (padLength pad bs.bytes y = some p ↔
      1 ≤ p ∧ p ≤ bs.bytes ∧ ∃ m : Bytes, m.length = bs.bytes - p ∧ y = m ++
        match pad with
        | .none => []
        | .bit => 0x80#8 :: List.replicate (p - 1) 0
        | .x923 => List.replicate (p - 1) 0 ++ [BitVec.ofNat 8 p]
        | .pkcs7 => List.replicate p (BitVec.ofNat 8 p))

/-- 41_chaining.md R232: phase FAILED is entered only by a PaddingError of CHN.FIND, and left only by CLEAR, SETKEY, RESET
or the reset input. -/
def Obligations.FailedPhaseEntryAndExit : Prop :=
  ∀ s t : State, step s = .next t →
    (s.chn.cph ≠ .failed → t.chn.cph = .failed →
      s.status.busy = true ∧ decode s.pend = .ok .chnFind ∧ t.status.ecode = 3) ∧
    (s.chn.cph = .failed → t.chn.cph ≠ .failed →
      (s.status.busy = true ∧ (decode s.pend = .ok .clear ∨ decode s.pend = .ok .reset ∨
        ∃ l k, decode s.pend = .ok (.setkey l k))) ∨
      ∃ early rest, s.env.inputs = { early := early, event := .resetLine true } :: rest)

/-- 40_control.md R191, an inference of the spec (the document's property 2): WAIST of the input size is the number of bytes an encode stream of that
size outputs, however it is cut into chunks, whenever the stream finishes without error. -/
def Obligations.WaistIsTheStreamOutputLength : Prop :=
  ∀ (s u : State) (chunks : List Bytes) (c : Bytes), Consistent s → s.chn.cph = .idle →
    (∀ b ∈ chunks, b.length ≤ s.params.bs.bytes) → chunks.flatten.length < 2 ^ 32 →
    runStream .enc chunks s = some (c, u) →
    ∃ w, exec .waist { s with host := { s.host with win := BitVec.ofNat 32 chunks.flatten.length } } = .next w ∧
      w.results.wout.toNat = c.length

/-- 41_chaining.md R235, an inference of the spec (the document's property 1): a decode stream of an encode stream's output, started from the same
state and cut into any chunks, finishes without error and gives the plaintext back, for a transform that meets the law of
00_scope.md R9. -/
def Obligations.StreamRoundTrip : Prop :=
  ∀ (s u : State) (plain cipher : List Bytes) (c : Bytes), Consistent s → s.chn.cph = .idle →
    Lawful s.params.bt s.params.bs.bytes →
    (∀ b ∈ plain, b.length ≤ s.params.bs.bytes) → (∀ b ∈ cipher, b.length ≤ s.params.bs.bytes) →
    runStream .enc plain s = some (c, u) → cipher.flatten = c →
    ∃ v, runStream .dec cipher s = some (plain.flatten, v)

/-- 41_chaining.md R236, an inference of the spec (the document's property 3), step by step: in CBC encode, two commands
that complete a block, of any two streams with one key and each at any block of its stream, give different ciphertext
blocks where the plaintext blocks differ under one CHAIN, or are the same under different CHAINs. The ciphertext block is
the next CHAIN, so the difference goes on through every later block. -/
def Obligations.CbcDiffusion : Prop :=
  ∀ (s s' t t' : State) (l l' : Nat), Lawful s.params.bt s.params.bs.bytes → s'.params = s.params → s'.key = s.key →
    s.key.keyed = true → s.modes.mode = .cbc → s'.modes.mode = .cbc → s.chn.cph = .idle ∨ s.chn.cph = .enc →
    s'.chn.cph = .idle ∨ s'.chn.cph = .enc →
    let n := s.params.bs.bytes
    let block := fun (u : State) (k : Nat) => (u.chn.ibuf.toList.take u.chn.iblen ++ u.host.din.toList.take k).take n
    let chain := fun u : State => u.chn.chain.toList.take n
    let output := fun u : State => u.results.dout.toList.take n
    l ≤ n → l' ≤ n → (block s l).length = n → (block s' l').length = n →
    exec (.chnEnc l false) s = .next t → exec (.chnEnc l' false) s' = .next t' →
    (chain s = chain s' ∧ block s l ≠ block s' l') ∨ (block s l = block s' l' ∧ chain s ≠ chain s') →
    output t ≠ output t' ∧ chain t = output t ∧ chain t' = output t' ∧ t.chn.cph = .enc ∧ t'.chn.cph = .enc

/-! ## Galois field unit -/

/-- 42_galois.md R263 to R265, R262: GF.MOD leaves GA modulo P in GR, GA itself for P = 0, and changes nothing else. -/
def Obligations.GfModIsPolynomialRemainder : Prop :=
  encode .gfMod = 0x00000020#32 ∧
  ∀ s : State, ∃ r : FieldReg, exec .gfMod s = .next (okState { s with results := { s.results with gr := r } }) ∧
    (s.host.p = 0 → r = s.host.ga) ∧
    (s.host.p ≠ 0 → toPoly r.toNat = toPoly s.host.ga.toNat % toPoly s.host.p.toNat)

/-- 42_galois.md R266, R268: GF.ADD in both settings of GF_ZERO_ARITH. -/
def Obligations.GfAddIsPolynomialSum : Prop :=
  encode .gfAdd = 0x00000021#32 ∧
  ∀ s : State, ∃ r : FieldReg, exec .gfAdd s = .next (okState { s with results := { s.results with gr := r } }) ∧
    (s.host.p = 0 → s.params.zeroArith = .integer → r.toNat = (s.host.ga.toNat + s.host.gb.toNat) % 2 ^ 256) ∧
    (s.host.p = 0 → s.params.zeroArith = .carryless → r = s.host.ga ^^^ s.host.gb) ∧
    (s.host.p ≠ 0 → toPoly r.toNat = (toPoly s.host.ga.toNat + toPoly s.host.gb.toNat) % toPoly s.host.p.toNat)

/-- 42_galois.md R270 to R272: GF.MUL is the product of polynomials modulo P for every operand, reduced or not, and with
P = 0 the low 256 bits of the carry-less or of the integer product. -/
def Obligations.GfMulIsPolynomialProduct : Prop :=
  encode .gfMul = 0x00000022#32 ∧
  ∀ s : State, ∃ r : FieldReg, exec .gfMul s = .next (okState { s with results := { s.results with gr := r } }) ∧
    (s.host.p = 0 → s.params.zeroArith = .integer → r.toNat = (s.host.ga.toNat * s.host.gb.toNat) % 2 ^ 256) ∧
    (s.host.p = 0 → s.params.zeroArith = .carryless →
      ∀ k < 256, (toPoly r.toNat).coeff k = (toPoly s.host.ga.toNat * toPoly s.host.gb.toNat).coeff k) ∧
    (s.host.p ≠ 0 → toPoly r.toNat = (toPoly s.host.ga.toNat * toPoly s.host.gb.toNat) % toPoly s.host.p.toNat)

/-- 42_galois.md R289, R290: GF.INV leaves the reduced inverse of GA modulo P in GR exactly when one exists, and otherwise
fails with the first cause that applies and leaves GR. -/
def Obligations.GfInvIsTheInverse : Prop :=
  encode .gfInv = 0x00000023#32 ∧
  ∀ s : State,
    let p := toPoly s.host.p.toNat
    let x := toPoly s.host.ga.toNat % p
    (s.host.p = 0 → exec .gfInv s = .next (errState s 5 1)) ∧
    (s.host.p ≠ 0 → x = 0 → exec .gfInv s = .next (errState s 5 2)) ∧
    (s.host.p ≠ 0 → x ≠ 0 → ¬IsCoprime x p → exec .gfInv s = .next (errState s 5 3)) ∧
    (s.host.p ≠ 0 → x ≠ 0 → IsCoprime x p →
      ∃ r : FieldReg, exec .gfInv s = .next (okState { s with results := { s.results with gr := r } }) ∧
        (toPoly r.toNat).degree < p.degree ∧ (x * toPoly r.toNat) % p = 1)

/-- 42_galois.md R295: GF.DIV leaves the reduced quotient, whose product with GB is GA modulo P, under the checks of GF.INV
on the divisor. -/
def Obligations.GfDivIsTheQuotient : Prop :=
  encode .gfDiv = 0x00000024#32 ∧
  ∀ s : State,
    let p := toPoly s.host.p.toNat
    let y := toPoly s.host.gb.toNat % p
    (s.host.p = 0 → exec .gfDiv s = .next (errState s 5 1)) ∧
    (s.host.p ≠ 0 → y = 0 → exec .gfDiv s = .next (errState s 5 2)) ∧
    (s.host.p ≠ 0 → y ≠ 0 → ¬IsCoprime y p → exec .gfDiv s = .next (errState s 5 3)) ∧
    (s.host.p ≠ 0 → y ≠ 0 → IsCoprime y p →
      ∃ r : FieldReg, exec .gfDiv s = .next (okState { s with results := { s.results with gr := r } }) ∧
        (toPoly r.toNat).degree < p.degree ∧
        (toPoly r.toNat * toPoly s.host.gb.toNat) % p = toPoly s.host.ga.toNat % p)

/-- 42_galois.md R280 to R283 (R282 is an inference of the spec): GF.GMM is the product modulo x^128 + x^7 + x^2 + x + 1 of the polynomials whose x^i
coefficient is bit 127 - i, on the low halves of GA and GB; the high half of GR is 0. -/
def Obligations.GfGmmIsTheReflectedProduct : Prop :=
  encode .gfGmm = 0x00000025#32 ∧
  ∀ s : State, ∃ v : BitVec 128,
    exec .gfGmm s = .next (okState { s with results := { s.results with gr := v.setWidth 256 } }) ∧
    toPoly (rev128 v).toNat =
      (toPoly (rev128 (s.host.ga.extractLsb' 0 128)).toNat * toPoly (rev128 (s.host.gb.extractLsb' 0 128)).toNat) %
        (Polynomial.X ^ 128 + Polynomial.X ^ 7 + Polynomial.X ^ 2 + Polynomial.X + 1)

/-- 42_galois.md R284, an inference of the spec: gmm, which GHASH and GF.GMM share, is commutative and associative, distributes over XOR, has the
identity 2^127 and sends 0 to 0. -/
def Obligations.GmmRingLaws : Prop :=
  ∀ x y z : BitVec 128, gmm x y = gmm y x ∧ gmm (gmm x y) z = gmm x (gmm y z) ∧
    gmm (x ^^^ y) z = gmm x z ^^^ gmm y z ∧ gmm (1#128 <<< 127) x = x ∧ gmm x 0 = 0

/-- 42_galois.md R296, an inference of the spec: a product divided by one of its factors is the other factor reduced, whenever that factor is
invertible: GF.MUL, then GF.DIV of the product by GB, gives GA modulo P. -/
def Obligations.DivisionUndoesMultiplication : Prop :=
  ∀ s t : State, s.host.p ≠ 0 → IsCoprime (toPoly s.host.gb.toNat) (toPoly s.host.p.toNat) →
    (toPoly s.host.p.toNat).degree ≠ 0 → exec .gfMul s = .next t →
    ∃ u, exec .gfDiv { t with host := { t.host with ga := t.results.gr } } = .next u ∧ u.status.err = false ∧
      toPoly u.results.gr.toNat = toPoly s.host.ga.toNat % toPoly s.host.p.toNat

/-! ## GCM -/

/-- 43_gcm.md R325, R328: GCM.SETIV, its three refusals in their order and the session it starts; GCM.SETTAGLEN takes the
seven lengths and refuses every other. -/
def Obligations.GcmSetivAndSettaglenConfigure : Prop :=
  encode (.gcmSetiv 12) = 0x00000C30#32 ∧ encode (.gcmSettaglen 12) = 0x00000C31#32 ∧
  ∀ (s : State) (l : Nat),
    (s.params.bs ≠ .sixteen → exec (.gcmSetiv l) s = .next (errState s 2 9)) ∧
    (s.params.bs = .sixteen → l < 1 ∨ l > 64 → exec (.gcmSetiv l) s = .next (errState s 2 4)) ∧
    (s.params.bs = .sixteen → 1 ≤ l → l ≤ 64 → s.gcm.gph = .aad ∨ s.gcm.gph = .data →
      exec (.gcmSetiv l) s = .next (errState s 2 16)) ∧
    (s.params.bs = .sixteen → 1 ≤ l → l ≤ 64 → s.gcm.gph = .config ∨ s.gcm.gph = .done →
      ∃ iv : Vector Byte 64, (∀ i : Fin 64, iv[i] = if i.val < l then s.host.ivin[i] else 0) ∧
        exec (.gcmSetiv l) s = .next (okState { s with
          gcm := { s.gcm with giv := iv, givlen := l, givset := true, acc := Vector.replicate 16 0, alen := 0, clen := 0,
                              gph := .config, aadpart := false, dpart := false, gdir := .none }
          results := { s.results with tag := Vector.replicate 16 0 }
          status := { s.status with tagv := false } })) ∧
    (s.params.bs ≠ .sixteen → exec (.gcmSettaglen l) s = .next (errState s 2 9)) ∧
    (s.params.bs = .sixteen → l ≠ 4 → l ≠ 8 → (l < 12 ∨ 16 < l) → exec (.gcmSettaglen l) s = .next (errState s 2 15)) ∧
    (s.params.bs = .sixteen → l = 4 ∨ l = 8 ∨ (12 ≤ l ∧ l ≤ 16) →
      exec (.gcmSettaglen l) s = .next (okState { s with modes := { s.modes with taglen := l } }))

/-- 60_exceptions.md R405, 43_gcm.md R311, R312, R320, R330, R334, R337, R341, R343: the first cause that applies to a GCM
data or finish command, in the order of R405, and no other effect but the emptied output. -/
def Obligations.GcmErrorsInOrder : Prop :=
  ∀ (s : State) (l : Nat) (i : Instr),
    i = .gcmAad l ∨ i = .gcmEnc l ∨ i = .gcmDec l ∨ i = .gcmFine ∨ i = .gcmFind →
    let carriesData := i = .gcmAad l ∨ i = .gcmEnc l ∨ i = .gcmDec l
    let tooLong := carriesData ∧ l > 16
    let otherDir := ((i = .gcmEnc l ∨ i = .gcmFine) ∧ s.gcm.gdir = .dec) ∨ ((i = .gcmDec l ∨ i = .gcmFind) ∧ s.gcm.gdir = .enc)
    let closed := (i = .gcmEnc l ∨ i = .gcmDec l) ∧ s.gcm.dpart = true
    (s.params.bs ≠ .sixteen → exec i s = .next (errState (emptyOut s) 2 9)) ∧
    (s.params.bs = .sixteen → tooLong → exec i s = .next (errState (emptyOut s) 2 5)) ∧
    (s.params.bs = .sixteen → ¬tooLong → s.gcm.gph = .done → exec i s = .next (errState (emptyOut s) 2 12)) ∧
    (s.params.bs = .sixteen → ¬tooLong → s.gcm.gph = .data → i = .gcmAad l →
      exec i s = .next (errState (emptyOut s) 2 11)) ∧
    (s.params.bs = .sixteen → ¬tooLong → s.gcm.gph ≠ .done → s.gcm.gph ≠ .data → i = .gcmAad l → s.gcm.aadpart = true →
      exec i s = .next (errState (emptyOut s) 2 13)) ∧
    (s.params.bs = .sixteen → ¬tooLong → s.gcm.gph ≠ .done → otherDir → exec i s = .next (errState (emptyOut s) 2 6)) ∧
    (s.params.bs = .sixteen → ¬tooLong → s.gcm.gph ≠ .done → ¬otherDir → closed →
      exec i s = .next (errState (emptyOut s) 2 14)) ∧
    (s.params.bs = .sixteen → ¬tooLong → s.gcm.gph = .config → ¬otherDir → ¬closed →
      (i = .gcmAad l → s.gcm.aadpart = false) →
      (s.key.keyed = false → exec i s = .next (errState (emptyOut s) 6 1)) ∧
      (s.key.keyed = true → s.gcm.givset = false → exec i s = .next (errState (emptyOut s) 2 10)))

/-- 43_gcm.md R317, R318, R320, R321, R330 (a chunk of length 0): the first GCM command of a session runs preset, with H the
encrypted zero block, J0 the 12-byte IV and 00000001, or what the fold of R317 makes of 0 over the 16-byte blocks of the
zero-padded IV, 8 zero bytes and the IV's bit length in 8 bytes, and the counters at 0. -/
def Obligations.PresetStartsTheSession : Prop :=
  ∀ s : State, s.params.bs = .sixteen → s.gcm.gph = .config → s.gcm.aadpart = false → s.key.keyed = true →
    s.gcm.givset = true → 1 ≤ s.gcm.givlen → s.gcm.givlen ≤ 64 →
    let l := s.gcm.givlen
    let iv := s.gcm.giv.toList.take l
    let h : Block := fill 16 (btEnc s.params.bt 16 (s.key.ks.getD []) (List.replicate 16 0))
    let foldStep := fun acc x : Block => blockOfInt (gmm (blockToInt (xorBlock acc x)) (blockToInt h))
    let hashed : Bytes := iv ++ List.replicate ((16 - l % 16) % 16) 0 ++ List.replicate 8 0 ++
      (List.replicate 6 0 ++ [BitVec.ofNat 8 (8 * l / 256), BitVec.ofNat 8 (8 * l)])
    ∃ j0 : Block,
      exec (.gcmAad 0) s = .next (okState { emptyOut s with
        gcm := { s.gcm with h := h, j0 := j0, cb := j0, acc := Vector.replicate 16 0, alen := 0, clen := 0, gph := .aad } }) ∧
      (l = 12 → j0.toList = iv ++ [0, 0, 0, 1]) ∧
      (l ≠ 12 → j0 = ((List.range (hashed.length / 16)).map fun k => fill 16 ((hashed.drop (16 * k)).take 16)).foldl foldStep
        (Vector.replicate 16 0))

/-- 43_gcm.md R330: a chunk of AAD in an open session folds once and counts its bits; a short one closes the AAD. -/
def Obligations.AadFoldsOnce : Prop :=
  ∀ (s : State) (l : Nat), s.params.bs = .sixteen → s.gcm.gph = .aad → s.gcm.aadpart = false → 1 ≤ l → l ≤ 16 →
    exec (.gcmAad l) s = .next (okState { emptyOut s with
      gcm := { s.gcm with
        acc := blockOfInt (gmm (blockToInt (xorBlock s.gcm.acc (fill 16 (s.host.din.toList.take l)))) (blockToInt s.gcm.h))
        alen := s.gcm.alen + BitVec.ofNat 64 (8 * l)
        aadpart := decide (l < 16) } })

/-- 43_gcm.md R316, R334, R337: a GCM data chunk in an open session, in both directions: the counter steps once, the output
is the chunk under the keystream, GHASH folds the ciphertext, the bits are counted, and a short chunk closes the data. -/
def Obligations.GcmDataCommandEquations : Prop :=
  ∀ (s : State) (dir : Dir) (l : Nat), s.params.bs = .sixteen → s.gcm.gph = .aad ∨ s.gcm.gph = .data →
    s.gcm.gdir = .none ∨ s.gcm.gdir = (match dir with
      | .enc => GcmDir.enc
      | .dec => GcmDir.dec) →
    s.gcm.dpart = false → 1 ≤ l → l ≤ 16 →
    let i : Instr := match dir with
      | .enc => .gcmEnc l
      | .dec => .gcmDec l
    let cb := inc32 s.gcm.cb
    let result := xorBytes (s.host.din.toList.take l) ((btEnc s.params.bt 16 (s.key.ks.getD []) cb.toList).take l)
    let ciphertext := match dir with
      | .enc => result
      | .dec => s.host.din.toList.take l
    exec i s = .next (okState { s with
      results := { s.results with dout := fill 16 result }
      status := { s.status with outlen := l }
      gcm := { s.gcm with
        cb := cb
        acc := blockOfInt (gmm (blockToInt (xorBlock s.gcm.acc (fill 16 ciphertext))) (blockToInt s.gcm.h))
        clen := s.gcm.clen + BitVec.ofNat 64 (8 * l)
        dpart := decide (l < 16)
        gph := .data
        gdir := match dir with
          | .enc => .enc
          | .dec => .dec } })

/-- 43_gcm.md R310, R320, R330, R334, R337, R341, R343: the first GCM command of a session that passes its checks does what
it does after preset, from the state that an AAD chunk of length 0 leaves (`PresetStartsTheSession`), whatever its length;
and a data chunk of length 0 opens the session if need be and does nothing else (D46). The premises on AADPART, DPART and
GDIR hold in every CONFIG state that a run reaches. -/
def Obligations.EmptyGcmChunkOnlyPresets : Prop :=
  (∀ (s p : State) (l : Nat) (i : Instr), s.params.bs = .sixteen → s.gcm.gph = .config → s.key.keyed = true →
    s.gcm.givset = true → s.gcm.aadpart = false → s.gcm.dpart = false → s.gcm.gdir = .none → l ≤ 16 →
    i = .gcmAad l ∨ i = .gcmEnc l ∨ i = .gcmDec l ∨ i = .gcmFine ∨ i = .gcmFind →
    exec (.gcmAad 0) s = .next p → p.gcm.gph = .aad ∧ exec i s = exec i p) ∧
  ∀ (s : State) (i : Instr), s.params.bs = .sixteen → s.gcm.dpart = false →
    (i = .gcmEnc 0 ∧ s.gcm.gdir ≠ .dec) ∨ (i = .gcmDec 0 ∧ s.gcm.gdir ≠ .enc) →
    (s.gcm.gph = .aad ∨ s.gcm.gph = .data → exec i s = .next (okState (emptyOut s))) ∧
    (s.gcm.gph = .config → s.gcm.aadpart = false → exec i s = exec (.gcmAad 0) s)

/-- 43_gcm.md R316: the counter step changes the last four bytes only, and they count modulo 2^32. -/
def Obligations.CounterStepsItsLowWord : Prop :=
  ∀ cb : Block, (inc32 cb).toList.take 12 = cb.toList.take 12 ∧
    beNat ((inc32 cb).toList.drop 12) = (beNat (cb.toList.drop 12) + 1) % 2 ^ 32

/-- 43_gcm.md R334, R337: GCM.DEC of a GCM.ENC's output from the same session state gives the plaintext back and leaves the
same counter, accumulator, length and phase, so the two sides' tags agree. -/
def Obligations.GcmDecUndoesEnc : Prop :=
  ∀ (s t : State) (l : Nat), s.params.bs = .sixteen → s.gcm.gph = .aad ∨ s.gcm.gph = .data → s.gcm.gdir = .none →
    s.gcm.dpart = false → 1 ≤ l → l ≤ 16 → exec (.gcmEnc l) s = .next t →
    ∃ u, exec (.gcmDec l) { s with host := { s.host with din := t.results.dout } } = .next u ∧
      u.results.dout.toList.take l = s.host.din.toList.take l ∧ u.gcm = { t.gcm with gdir := .dec }

/-- 43_gcm.md R340, R341, R343: in an open session GCM.FINE folds the two bit counts, encrypts J0 and exposes the leftmost
TAGLEN bytes of the tag; GCM.FIND does the same work, compares them with TAGIN and exposes nothing. -/
def Obligations.GcmFinishCommandEquations : Prop :=
  ∀ s : State, s.params.bs = .sixteen → s.gcm.gph = .aad ∨ s.gcm.gph = .data →
    let acc := blockOfInt (gmm (blockToInt (xorBlock s.gcm.acc
      (fill 16 (beBytes 8 s.gcm.alen.toNat ++ beBytes 8 s.gcm.clen.toNat)))) (blockToInt s.gcm.h))
    let full := xorBytes (btEnc s.params.bt 16 (s.key.ks.getD []) s.gcm.j0.toList) acc.toList
    (s.gcm.gdir ≠ .dec → exec .gcmFine s = .next (okState { s with
      gcm := { s.gcm with acc := acc, gph := .done }
      results := { s.results with dout := Vector.replicate 16 0, tag := fill 16 (full.take s.modes.taglen) }
      status := { s.status with outlen := 0, tagv := true } })) ∧
    (s.gcm.gdir ≠ .enc →
      let u : State := { s with
        gcm := { s.gcm with acc := acc, gph := .done }
        results := { s.results with dout := Vector.replicate 16 0, tag := Vector.replicate 16 0 }
        status := { s.status with outlen := 0, tagv := false } }
      (s.host.tagin.toList.take s.modes.taglen = full.take s.modes.taglen → exec .gcmFind s = .next (okState u)) ∧
      (s.host.tagin.toList.take s.modes.taglen ≠ full.take s.modes.taglen → exec .gcmFind s = .next (errState u 4 1)))

/-- 43_gcm.md R343: from any state in which both finishes run, GCM.FIND succeeds exactly when the first TAGLEN bytes of
TAGIN are those of the tag GCM.FINE produces; either way the session is DONE and the tag is not readable. -/
def Obligations.FindAcceptsExactlyTheTag : Prop :=
  ∀ s t : State, s.params.bs = .sixteen → s.gcm.gph ≠ .done → s.gcm.gdir = .none → Legal s →
    exec .gcmFine s = .next t → t.status.err = false →
    let u : State := { t with
      results := { t.results with tag := Vector.replicate 16 0 }
      status := { t.status with tagv := false } }
    (s.host.tagin.toList.take s.modes.taglen = t.results.tag.toList.take s.modes.taglen →
      exec .gcmFind s = .next (okState u)) ∧
    (s.host.tagin.toList.take s.modes.taglen ≠ t.results.tag.toList.take s.modes.taglen →
      exec .gcmFind s = .next (errState u 4 1))

/-- 43_gcm.md R310, R312: the phases of the GCM controller: which command moves it from which phase to which. Anything else
leaves the phase alone. -/
def Obligations.GcmPhaseTransitions : Prop :=
  ∀ (i : Instr) (s t : State), exec i s = .next t → t.gcm.gph ≠ s.gcm.gph →
    (t.gcm.gph = .config → i = .clear ∨ i = .reset ∨ (∃ l k, i = .setkey l k) ∨
      (s.gcm.gph = .done ∧ ∃ l, i = .gcmSetiv l)) ∧
    (t.gcm.gph = .aad → s.gcm.gph = .config ∧ ((∃ l, i = .gcmAad l) ∨ i = .gcmEnc 0 ∨ i = .gcmDec 0)) ∧
    (t.gcm.gph = .data → s.gcm.gph ≠ .done ∧ ∃ l, 1 ≤ l ∧ (i = .gcmEnc l ∨ i = .gcmDec l)) ∧
    (t.gcm.gph = .done → i = .gcmFine ∨ i = .gcmFind)

/-! ## Whole-machine rules -/

/-- 42_galois.md R262, R285, 43_gcm.md R346, 41_chaining.md: the units are separate. A Galois field command changes GR and
the status only; a chaining command neither the GCM unit nor GR, WOUT, TAG; a GCM command neither the chaining driver nor
GR, WOUT. -/
def Obligations.UnitsAreSeparate : Prop :=
  ∀ (i : Instr) (s t : State), exec i s = .next t →
    (i ∈ [Instr.gfMod, .gfAdd, .gfMul, .gfInv, .gfDiv, .gfGmm] →
      t = { s with
        results := { s.results with gr := t.results.gr }
        status := { s.status with busy := false, err := t.status.err, ecode := t.status.ecode, edet := t.status.edet } } ∧
      (t.status.err = true → t.results.gr = s.results.gr)) ∧
    ((∃ dir l nc, i = dataCommand dir l nc ∨ i = finishCommand dir) →
      t.gcm = s.gcm ∧ t.modes = s.modes ∧ t.key = s.key ∧ t.results = { s.results with dout := t.results.dout } ∧
      t.status.tagv = s.status.tagv ∧ t.chn.civ = s.chn.civ) ∧
    ((∃ l, i = .gcmSetiv l ∨ i = .gcmSettaglen l ∨ i = .gcmAad l ∨ i = .gcmEnc l ∨ i = .gcmDec l ∨ i = .gcmFine ∨
        i = .gcmFind) →
      t.chn = s.chn ∧ t.key = s.key ∧ t.modes = { s.modes with taglen := t.modes.taglen } ∧
      t.results = { s.results with dout := t.results.dout, tag := t.results.tag })

/-- 10_state.md R33, R36 to R46, 30_encoding.md R125: which commands may change the registers that all others leave: the
host's registers (only RESET, and only KEYBUF), OVR (only NOP), MODE, PAD and TAGLEN (only their own commands), KEY, KLEN,
KS and KEYED (only SETKEY and RESET), WOUT (only WAIST), GR (only a Galois field command), PEND, the parameters and the
outside (none). -/
def Obligations.RegistersHaveOneOwner : Prop :=
  ∀ (i : Instr) (s t : State), exec i s = .next t →
    t.params = s.params ∧ t.pend = s.pend ∧ t.env = s.env ∧
    t.host = { s.host with keybuf := t.host.keybuf } ∧
    (t.host.keybuf ≠ s.host.keybuf → i = .reset) ∧
    (t.status.ovr ≠ s.status.ovr → i = .nop) ∧
    (t.modes.mode ≠ s.modes.mode → ∃ l, i = .setmode l) ∧
    (t.modes.pad ≠ s.modes.pad → ∃ l, i = .setpad l) ∧
    (t.modes.taglen ≠ s.modes.taglen → ∃ l, i = .gcmSettaglen l) ∧
    (t.key ≠ s.key → i = .reset ∨ ∃ l k, i = .setkey l k) ∧
    (t.results.wout ≠ s.results.wout → i = .waist) ∧
    (t.results.gr ≠ s.results.gr → i ∈ [Instr.gfMod, .gfAdd, .gfMul, .gfInv, .gfDiv, .gfGmm]) ∧
    (t.chn.civ ≠ s.chn.civ → i = .reset ∨ ∃ l, i = .chnSetiv l)
end

