-- ==== Sys2Proof/Laws/State.lean ====
section
/-! SUPPORT. What each named update of the state leaves and writes, one lemma per part of the state, each true by rfl, so
that no later proof unfolds a record update. -/

namespace Sys2Proof.Machine

/-! ### The end of a command -/

@[simp] theorem Status.complete_busy (st : Status) (e : Option CmdError) : (st.complete e).busy = false := by
  cases e <;> rfl

@[simp] theorem Status.complete_ovr (st : Status) (e : Option CmdError) : (st.complete e).ovr = st.ovr := by
  cases e <;> rfl

@[simp] theorem Status.complete_tagv (st : Status) (e : Option CmdError) : (st.complete e).tagv = st.tagv := by
  cases e <;> rfl

@[simp] theorem Status.complete_outlen (st : Status) (e : Option CmdError) : (st.complete e).outlen = st.outlen := by
  cases e <;> rfl

theorem Status.complete_none (st : Status) :
    st.complete none = { st with busy := false, err := false, ecode := 0, edet := 0 } := rfl

theorem Status.complete_some (st : Status) (e : CmdError) :
    st.complete (some e) = { st with busy := false, err := true, ecode := e.ecode, edet := e.edet } := rfl

@[simp] theorem succeed_state (s : State) : (succeed s).state = s := rfl

@[simp] theorem succeed_error (s : State) : (succeed s).error = none := rfl

@[simp] theorem raise_state (s : State) (e : CmdError) : (raise s e).state = s := rfl

@[simp] theorem raise_error (s : State) (e : CmdError) : (raise s e).error = some e := rfl

/-- The end of a command is a next state, the rule's with the status written. -/
theorem complete_eq (r : Run) : complete r = .next { r.state with status := r.state.status.complete r.error } := rfl

theorem complete_inj (r : Run) (t : State) :
    complete r = .next t ↔ t = { r.state with status := r.state.status.complete r.error } := by
  simp only [complete, Host.Outcome.next.injEq]
  exact eq_comm

theorem complete_succeed (s : State) : complete (succeed s) =
    .next { s with status := { s.status with busy := false, err := false, ecode := 0, edet := 0 } } := rfl

theorem complete_raise (s : State) (e : CmdError) : complete (raise s e) =
    .next { s with status := { s.status with busy := false, err := true, ecode := e.ecode, edet := e.edet } } := rfl

/-! ### out -/

@[simp] theorem out_params (b : Bytes) (s : State) : (out b s).params = s.params := rfl

@[simp] theorem out_status (b : Bytes) (s : State) : (out b s).status = { s.status with outlen := b.length } := rfl

@[simp] theorem out_host (b : Bytes) (s : State) : (out b s).host = s.host := rfl

@[simp] theorem out_results (b : Bytes) (s : State) : (out b s).results = { s.results with dout := fill 16 b } := rfl

@[simp] theorem out_key (b : Bytes) (s : State) : (out b s).key = s.key := rfl

@[simp] theorem out_modes (b : Bytes) (s : State) : (out b s).modes = s.modes := rfl

@[simp] theorem out_chn (b : Bytes) (s : State) : (out b s).chn = s.chn := rfl

@[simp] theorem out_gcm (b : Bytes) (s : State) : (out b s).gcm = s.gcm := rfl

@[simp] theorem out_pend (b : Bytes) (s : State) : (out b s).pend = s.pend := rfl

@[simp] theorem out_env (b : Bytes) (s : State) : (out b s).env = s.env := rfl

@[simp] theorem out_bsz (b : Bytes) (s : State) : (out b s).bsz = s.bsz := rfl

/-! ### clearOut -/

@[simp] theorem clearOut_params (s : State) : (clearOut s).params = s.params := rfl

@[simp] theorem clearOut_status (s : State) : (clearOut s).status = { s.status with outlen := 0 } := rfl

@[simp] theorem clearOut_host (s : State) : (clearOut s).host = s.host := rfl

@[simp] theorem clearOut_results (s : State) : (clearOut s).results = { s.results with dout := fill 16 [] } := rfl

@[simp] theorem clearOut_key (s : State) : (clearOut s).key = s.key := rfl

@[simp] theorem clearOut_modes (s : State) : (clearOut s).modes = s.modes := rfl

@[simp] theorem clearOut_chn (s : State) : (clearOut s).chn = s.chn := rfl

@[simp] theorem clearOut_gcm (s : State) : (clearOut s).gcm = s.gcm := rfl

@[simp] theorem clearOut_pend (s : State) : (clearOut s).pend = s.pend := rfl

@[simp] theorem clearOut_env (s : State) : (clearOut s).env = s.env := rfl

@[simp] theorem clearOut_bsz (s : State) : (clearOut s).bsz = s.bsz := rfl

/-! ### gcmSessionReset -/

@[simp] theorem gcmSessionReset_params (s : State) : (gcmSessionReset s).params = s.params := rfl

@[simp] theorem gcmSessionReset_status (s : State) : (gcmSessionReset s).status =
    { s.status with tagv := false } := rfl

@[simp] theorem gcmSessionReset_host (s : State) : (gcmSessionReset s).host = s.host := rfl

@[simp] theorem gcmSessionReset_results (s : State) : (gcmSessionReset s).results =
    { s.results with tag := fill 16 [] } := rfl

@[simp] theorem gcmSessionReset_key (s : State) : (gcmSessionReset s).key = s.key := rfl

@[simp] theorem gcmSessionReset_modes (s : State) : (gcmSessionReset s).modes = s.modes := rfl

@[simp] theorem gcmSessionReset_chn (s : State) : (gcmSessionReset s).chn = s.chn := rfl

@[simp] theorem gcmSessionReset_gcm (s : State) : (gcmSessionReset s).gcm =
    { s.gcm with gph := .config, acc := fill 16 [], alen := 0, clen := 0, aadpart := false, dpart := false,
                 gdir := .none } := rfl

@[simp] theorem gcmSessionReset_pend (s : State) : (gcmSessionReset s).pend = s.pend := rfl

@[simp] theorem gcmSessionReset_env (s : State) : (gcmSessionReset s).env = s.env := rfl

@[simp] theorem gcmSessionReset_bsz (s : State) : (gcmSessionReset s).bsz = s.bsz := rfl

/-! ### clearActions -/

@[simp] theorem clearActions_params (s : State) : (clearActions s).params = s.params := rfl

@[simp] theorem clearActions_status (s : State) : (clearActions s).status =
    { s.status with tagv := false, outlen := 0 } := rfl

@[simp] theorem clearActions_host (s : State) : (clearActions s).host = s.host := rfl

@[simp] theorem clearActions_results (s : State) : (clearActions s).results =
    { s.results with dout := fill 16 [], tag := fill 16 [] } := rfl

@[simp] theorem clearActions_key (s : State) : (clearActions s).key = s.key := rfl

@[simp] theorem clearActions_modes (s : State) : (clearActions s).modes = s.modes := rfl

@[simp] theorem clearActions_chn (s : State) : (clearActions s).chn =
    { s.chn with chain := s.chn.civ, ibuf := fill 16 [], iblen := 0, cph := .idle } := rfl

@[simp] theorem clearActions_gcm (s : State) : (clearActions s).gcm =
    { s.gcm with gph := .config, acc := fill 16 [], alen := 0, clen := 0, aadpart := false, dpart := false,
                 gdir := .none } := rfl

@[simp] theorem clearActions_pend (s : State) : (clearActions s).pend = s.pend := rfl

@[simp] theorem clearActions_env (s : State) : (clearActions s).env = s.env := rfl

@[simp] theorem clearActions_bsz (s : State) : (clearActions s).bsz = s.bsz := rfl

/-! ### releaseKeyAndIvs -/

@[simp] theorem releaseKeyAndIvs_params (s : State) : (releaseKeyAndIvs s).params = s.params := rfl

@[simp] theorem releaseKeyAndIvs_status (s : State) : (releaseKeyAndIvs s).status = s.status := rfl

@[simp] theorem releaseKeyAndIvs_host (s : State) : (releaseKeyAndIvs s).host =
    { s.host with keybuf := fill 32 [] } := rfl

@[simp] theorem releaseKeyAndIvs_results (s : State) : (releaseKeyAndIvs s).results = s.results := rfl

@[simp] theorem releaseKeyAndIvs_key (s : State) : (releaseKeyAndIvs s).key =
    { key := fill 32 [], klen := 0, ks := none, keyed := false } := rfl

@[simp] theorem releaseKeyAndIvs_modes (s : State) : (releaseKeyAndIvs s).modes = s.modes := rfl

@[simp] theorem releaseKeyAndIvs_chn (s : State) : (releaseKeyAndIvs s).chn = { s.chn with civ := fill 16 [] } := rfl

@[simp] theorem releaseKeyAndIvs_gcm (s : State) : (releaseKeyAndIvs s).gcm =
    { s.gcm with giv := fill 64 [], givlen := 0, givset := false, h := fill 16 [], j0 := fill 16 [],
                 cb := fill 16 [] } := rfl

@[simp] theorem releaseKeyAndIvs_pend (s : State) : (releaseKeyAndIvs s).pend = s.pend := rfl

@[simp] theorem releaseKeyAndIvs_env (s : State) : (releaseKeyAndIvs s).env = s.env := rfl

@[simp] theorem releaseKeyAndIvs_bsz (s : State) : (releaseKeyAndIvs s).bsz = s.bsz := rfl

/-! ### bindKey -/

@[simp] theorem bindKey_params (l : Nat) (s : State) : (bindKey l s).params = s.params := rfl

@[simp] theorem bindKey_status (l : Nat) (s : State) : (bindKey l s).status = s.status := rfl

@[simp] theorem bindKey_host (l : Nat) (s : State) : (bindKey l s).host = s.host := rfl

@[simp] theorem bindKey_results (l : Nat) (s : State) : (bindKey l s).results = s.results := rfl

@[simp] theorem bindKey_key (l : Nat) (s : State) : (bindKey l s).key =
    { key := fill 32 (keyOperand s l), klen := l, ks := some (btSetkey s.params.bt s.bsz (keyOperand s l)),
      keyed := true } := rfl

@[simp] theorem bindKey_modes (l : Nat) (s : State) : (bindKey l s).modes = s.modes := rfl

@[simp] theorem bindKey_chn (l : Nat) (s : State) : (bindKey l s).chn = s.chn := rfl

@[simp] theorem bindKey_gcm (l : Nat) (s : State) : (bindKey l s).gcm = s.gcm := rfl

@[simp] theorem bindKey_pend (l : Nat) (s : State) : (bindKey l s).pend = s.pend := rfl

@[simp] theorem bindKey_env (l : Nat) (s : State) : (bindKey l s).env = s.env := rfl

@[simp] theorem bindKey_bsz (l : Nat) (s : State) : (bindKey l s).bsz = s.bsz := rfl

/-! ### setChain -/

@[simp] theorem setChain_params (b : Bytes) (s : State) : (setChain b s).params = s.params := rfl

@[simp] theorem setChain_status (b : Bytes) (s : State) : (setChain b s).status = s.status := rfl

@[simp] theorem setChain_host (b : Bytes) (s : State) : (setChain b s).host = s.host := rfl

@[simp] theorem setChain_results (b : Bytes) (s : State) : (setChain b s).results = s.results := rfl

@[simp] theorem setChain_key (b : Bytes) (s : State) : (setChain b s).key = s.key := rfl

@[simp] theorem setChain_modes (b : Bytes) (s : State) : (setChain b s).modes = s.modes := rfl

@[simp] theorem setChain_chn (b : Bytes) (s : State) : (setChain b s).chn = { s.chn with chain := fill 16 b } := rfl

@[simp] theorem setChain_gcm (b : Bytes) (s : State) : (setChain b s).gcm = s.gcm := rfl

@[simp] theorem setChain_pend (b : Bytes) (s : State) : (setChain b s).pend = s.pend := rfl

@[simp] theorem setChain_env (b : Bytes) (s : State) : (setChain b s).env = s.env := rfl

@[simp] theorem setChain_bsz (b : Bytes) (s : State) : (setChain b s).bsz = s.bsz := rfl

/-! ### setBuffer -/

@[simp] theorem setBuffer_params (b : Bytes) (s : State) : (setBuffer b s).params = s.params := rfl

@[simp] theorem setBuffer_status (b : Bytes) (s : State) : (setBuffer b s).status = s.status := rfl

@[simp] theorem setBuffer_host (b : Bytes) (s : State) : (setBuffer b s).host = s.host := rfl

@[simp] theorem setBuffer_results (b : Bytes) (s : State) : (setBuffer b s).results = s.results := rfl

@[simp] theorem setBuffer_key (b : Bytes) (s : State) : (setBuffer b s).key = s.key := rfl

@[simp] theorem setBuffer_modes (b : Bytes) (s : State) : (setBuffer b s).modes = s.modes := rfl

@[simp] theorem setBuffer_chn (b : Bytes) (s : State) : (setBuffer b s).chn =
    { s.chn with ibuf := fill 16 b, iblen := b.length } := rfl

@[simp] theorem setBuffer_gcm (b : Bytes) (s : State) : (setBuffer b s).gcm = s.gcm := rfl

@[simp] theorem setBuffer_pend (b : Bytes) (s : State) : (setBuffer b s).pend = s.pend := rfl

@[simp] theorem setBuffer_env (b : Bytes) (s : State) : (setBuffer b s).env = s.env := rfl

@[simp] theorem setBuffer_bsz (b : Bytes) (s : State) : (setBuffer b s).bsz = s.bsz := rfl

/-! ### setCph -/

@[simp] theorem setCph_params (ph : ChainPhase) (s : State) : (setCph ph s).params = s.params := rfl

@[simp] theorem setCph_status (ph : ChainPhase) (s : State) : (setCph ph s).status = s.status := rfl

@[simp] theorem setCph_host (ph : ChainPhase) (s : State) : (setCph ph s).host = s.host := rfl

@[simp] theorem setCph_results (ph : ChainPhase) (s : State) : (setCph ph s).results = s.results := rfl

@[simp] theorem setCph_key (ph : ChainPhase) (s : State) : (setCph ph s).key = s.key := rfl

@[simp] theorem setCph_modes (ph : ChainPhase) (s : State) : (setCph ph s).modes = s.modes := rfl

@[simp] theorem setCph_chn (ph : ChainPhase) (s : State) : (setCph ph s).chn = { s.chn with cph := ph } := rfl

@[simp] theorem setCph_gcm (ph : ChainPhase) (s : State) : (setCph ph s).gcm = s.gcm := rfl

@[simp] theorem setCph_pend (ph : ChainPhase) (s : State) : (setCph ph s).pend = s.pend := rfl

@[simp] theorem setCph_env (ph : ChainPhase) (s : State) : (setCph ph s).env = s.env := rfl

@[simp] theorem setCph_bsz (ph : ChainPhase) (s : State) : (setCph ph s).bsz = s.bsz := rfl

/-! ### setGr -/

@[simp] theorem setGr_params (v : Nat) (s : State) : (setGr v s).params = s.params := rfl

@[simp] theorem setGr_status (v : Nat) (s : State) : (setGr v s).status = s.status := rfl

@[simp] theorem setGr_host (v : Nat) (s : State) : (setGr v s).host = s.host := rfl

@[simp] theorem setGr_results (v : Nat) (s : State) : (setGr v s).results =
    { s.results with gr := BitVec.ofNat 256 v } := rfl

@[simp] theorem setGr_key (v : Nat) (s : State) : (setGr v s).key = s.key := rfl

@[simp] theorem setGr_modes (v : Nat) (s : State) : (setGr v s).modes = s.modes := rfl

@[simp] theorem setGr_chn (v : Nat) (s : State) : (setGr v s).chn = s.chn := rfl

@[simp] theorem setGr_gcm (v : Nat) (s : State) : (setGr v s).gcm = s.gcm := rfl

@[simp] theorem setGr_pend (v : Nat) (s : State) : (setGr v s).pend = s.pend := rfl

@[simp] theorem setGr_env (v : Nat) (s : State) : (setGr v s).env = s.env := rfl

@[simp] theorem setGr_bsz (v : Nat) (s : State) : (setGr v s).bsz = s.bsz := rfl

/-! ### fold -/

@[simp] theorem fold_params (x : Block) (s : State) : (fold x s).params = s.params := rfl

@[simp] theorem fold_status (x : Block) (s : State) : (fold x s).status = s.status := rfl

@[simp] theorem fold_host (x : Block) (s : State) : (fold x s).host = s.host := rfl

@[simp] theorem fold_results (x : Block) (s : State) : (fold x s).results = s.results := rfl

@[simp] theorem fold_key (x : Block) (s : State) : (fold x s).key = s.key := rfl

@[simp] theorem fold_modes (x : Block) (s : State) : (fold x s).modes = s.modes := rfl

@[simp] theorem fold_chn (x : Block) (s : State) : (fold x s).chn = s.chn := rfl

@[simp] theorem fold_gcm (x : Block) (s : State) : (fold x s).gcm =
    { s.gcm with acc := ghashStep s.gcm.h s.gcm.acc x } := rfl

@[simp] theorem fold_pend (x : Block) (s : State) : (fold x s).pend = s.pend := rfl

@[simp] theorem fold_env (x : Block) (s : State) : (fold x s).env = s.env := rfl

@[simp] theorem fold_bsz (x : Block) (s : State) : (fold x s).bsz = s.bsz := rfl

/-! ### startSession -/

@[simp] theorem startSession_params (s : State) : (startSession s).params = s.params := rfl

@[simp] theorem startSession_status (s : State) : (startSession s).status = s.status := rfl

@[simp] theorem startSession_host (s : State) : (startSession s).host = s.host := rfl

@[simp] theorem startSession_results (s : State) : (startSession s).results = s.results := rfl

@[simp] theorem startSession_key (s : State) : (startSession s).key = s.key := rfl

@[simp] theorem startSession_modes (s : State) : (startSession s).modes = s.modes := rfl

@[simp] theorem startSession_chn (s : State) : (startSession s).chn = s.chn := rfl

@[simp] theorem startSession_pend (s : State) : (startSession s).pend = s.pend := rfl

@[simp] theorem startSession_env (s : State) : (startSession s).env = s.env := rfl

@[simp] theorem startSession_bsz (s : State) : (startSession s).bsz = s.bsz := rfl

/-! ### The operands the updates leave -/

@[simp] theorem clearOut_chunk (s : State) (l : Nat) : chunk (clearOut s) l = chunk s l := rfl

@[simp] theorem clearOut_bufferedBytes (s : State) : bufferedBytes (clearOut s) = bufferedBytes s := rfl

@[simp] theorem clearOut_chainBytes (s : State) : chainBytes (clearOut s) = chainBytes s := rfl

@[simp] theorem clearOut_schedule (s : State) : schedule (clearOut s) = schedule s := rfl

@[simp] theorem clearOut_encryptBlock (s : State) (b : Bytes) : encryptBlock (clearOut s) b = encryptBlock s b := rfl

@[simp] theorem clearOut_decryptBlock (s : State) (b : Bytes) : decryptBlock (clearOut s) b = decryptBlock s b := rfl

theorem bsz_eq (s : State) : s.bsz = s.params.bs.bytes := rfl

theorem BlockSize.bytes_cases (b : BlockSize) : b.bytes = 8 ∨ b.bytes = 16 := by
  cases b <;> simp [BlockSize.bytes]

theorem bsz_pos (s : State) : 0 < s.bsz := by
  rcases BlockSize.bytes_cases s.params.bs with h | h <;> simp [bsz_eq, h]

theorem bsz_le (s : State) : s.bsz ≤ 16 := by
  rcases BlockSize.bytes_cases s.params.bs with h | h <;> simp [bsz_eq, h]

theorem bsz_eq_sixteen (s : State) : s.bsz = 16 ↔ s.params.bs = .sixteen := by
  rw [bsz_eq]
  cases s.params.bs <;> simp [BlockSize.bytes]

end Sys2Proof.Machine
end

