-- ==== Sys2Proof/Laws/Bytes.lean ====
section
/-! SUPPORT. Byte strings and registers: fill, first, exclusive or, big-endian numbers, and the lengths and law of the
block transforms. -/

namespace Sys2Proof.Machine

/-! ### fill -/

@[simp] theorem fill_getElem (n : Nat) (b : Bytes) (i : Nat) (h : i < n) : (fill n b)[i] = b.getD i 0 := by
  unfold fill
  simp

theorem fill_nil (n : Nat) : fill n [] = Vector.replicate n 0 := by
  ext i h
  simp

theorem fill_toList (n : Nat) (b : Bytes) : (fill n b).toList = b.take n ++ zeros (n - b.length) := by
  apply List.ext_getElem
  · simp only [Vector.length_toList, List.length_append, List.length_take, zeros, List.length_replicate]
    omega
  · intro i h1 h2
    have hi : i < n := by simpa using h1
    by_cases hb : i < b.length
    · simp [Vector.getElem_toList, List.getElem_append_left, hb, hi, List.getD_eq_getElem?_getD]
    · have : b.length ≤ i := by omega
      rw [List.getElem_append_right (by simp; omega)]
      simp [Vector.getElem_toList, zeros, List.getD_eq_getElem?_getD, this]

/-- A byte string of a register's length fills it exactly. -/
theorem fill_toList_eq (n : Nat) (b : Bytes) (h : b.length = n) : (fill n b).toList = b := by
  simp [fill_toList, zeros, ← h]

/-- The first bytes of a filled register are the byte string's. -/
theorem first_fill (n m : Nat) (b : Bytes) (hb : b.length = n) (hm : n ≤ m) : first (fill m b) n = b := by
  subst hb
  rw [first, fill_toList, List.take_of_length_le hm, List.take_left]

theorem toList_take_fill (n m : Nat) (b : Bytes) (hb : b.length = n) (hm : n ≤ m) : (fill m b).toList.take n = b :=
  first_fill n m b hb hm

/-- A filled register determines a byte string of known length. -/
theorem fill_inj (n m : Nat) (a b : Bytes) (ha : a.length = n) (hb : b.length = n) (hm : n ≤ m)
    (h : fill m a = fill m b) : a = b := by
  rw [← first_fill n m a ha hm, ← first_fill n m b hb hm, h]

theorem fill_first_self (b : Block) : fill 16 (first b 16) = b := by
  ext i h
  simp [first, List.getD_eq_getElem?_getD, h]

@[simp] theorem fill_self (b : Block) : fill 16 b.toList = b := by
  ext i h
  simp [List.getD_eq_getElem?_getD, h]

/-! ### first -/

theorem first_length {m : Nat} (r : Vector Byte m) (n : Nat) (h : n ≤ m) : (first r n).length = n := by
  simp [first, h]

@[simp] theorem first_zero {m : Nat} (r : Vector Byte m) : first r 0 = [] := by simp [first]

theorem first_length_le {m : Nat} (r : Vector Byte m) (n : Nat) : (first r n).length ≤ n := by
  simp [first]

/-! ### Exclusive or -/

@[simp] theorem xorBytes_length (a b : Bytes) : (xorBytes a b).length = min a.length b.length := by
  simp [xorBytes]

theorem xorBytes_comm (a b : Bytes) : xorBytes a b = xorBytes b a := by
  simp [xorBytes, List.zipWith_comm_of_comm, BitVec.xor_comm]

/-- Exclusive or with the same string twice gives the string back. -/
theorem xorBytes_cancel (a b : Bytes) (h : a.length ≤ b.length) : xorBytes (xorBytes a b) b = a := by
  apply List.ext_getElem
  · simp
    omega
  · intro i h1 h2
    simp [xorBytes]

theorem xorBytes_left_inj (a b c : Bytes) (ha : a.length = c.length) (hb : b.length = c.length)
    (h : xorBytes a c = xorBytes b c) : a = b := by
  rw [← xorBytes_cancel a c (by omega), ← xorBytes_cancel b c (by omega), h]

theorem xorBlock_toList (a b : Block) : (xorBlock a b).toList = xorBytes a.toList b.toList := by
  unfold xorBlock
  exact fill_toList_eq 16 _ (by simp)

/-! ### Big-endian numbers -/

@[simp] theorem beBytes_length (n v : Nat) : (beBytes n v).length = n := by simp [beBytes]

theorem beNat_foldl (b : Bytes) (v : Nat) :
    b.foldl (fun v x => v * 256 + x.toNat) v = v * 256 ^ b.length + beNat b := by
  induction b generalizing v with
  | nil => simp [beNat]
  | cons x xs ih =>
    simp only [List.foldl_cons, List.length_cons, beNat]
    rw [ih, ih (0 * 256 + x.toNat)]
    ring

theorem beNat_cons (x : Byte) (b : Bytes) : beNat (x :: b) = x.toNat * 256 ^ b.length + beNat b := by
  simp only [beNat, List.foldl_cons]
  rw [beNat_foldl]
  simp [beNat]

theorem beNat_append (a b : Bytes) : beNat (a ++ b) = beNat a * 256 ^ b.length + beNat b := by
  induction a with
  | nil => simp [beNat]
  | cons x xs ih =>
    rw [List.cons_append, beNat_cons, ih, beNat_cons, List.length_append]
    ring

theorem beNat_lt (b : Bytes) : beNat b < 256 ^ b.length := by
  induction b with
  | nil => simp [beNat]
  | cons x xs ih =>
    rw [beNat_cons, List.length_cons, pow_succ]
    have := x.isLt
    nlinarith [Nat.pos_of_neZero (256 ^ xs.length)]

/-- The n-byte encoding drops what does not fit (R18). -/
theorem beBytes_succ (n v : Nat) : beBytes (n + 1) v = BitVec.ofNat 8 (v >>> (8 * n)) :: beBytes n v := by
  simp only [beBytes, List.range_succ_eq_map, List.map_cons, List.map_map]
  congr 1
  apply List.map_congr_left
  intro i hi
  have : n + 1 - 1 - (i + 1) = n - 1 - i := by omega
  simp only [Function.comp, Nat.succ_eq_add_one, this]

theorem beNat_beBytes (n v : Nat) : beNat (beBytes n v) = v % 256 ^ n := by
  induction n with
  | zero => simp [beBytes, beNat, Nat.mod_one]
  | succ n ih =>
    rw [beBytes_succ, beNat_cons, ih, beBytes_length, BitVec.toNat_ofNat, Nat.shiftRight_eq_div_pow]
    have h : (2 : Nat) ^ (8 * n) = 256 ^ n := by rw [pow_mul]; norm_num
    rw [h, show (2 : Nat) ^ 8 = 256 by norm_num, Nat.pow_succ, Nat.mod_mul (x := v) (a := 256 ^ n) (b := 256)]
    ring

/-! ### Block transforms -/

@[simp] theorem btEnc_length (bt : Transform) (n : Nat) (ks : KeySchedule) (b : Bytes) :
    (btEnc bt n ks b).length = n := by
  cases bt <;> simp [btEnc, toyEnc]

@[simp] theorem btDec_length (bt : Transform) (n : Nat) (ks : KeySchedule) (b : Bytes) :
    (btDec bt n ks b).length = n := by
  cases bt <;> simp [btDec, toyDec]

@[simp] theorem encryptBlock_length (s : State) (b : Bytes) : (encryptBlock s b).length = s.bsz := by
  simp [encryptBlock]

@[simp] theorem decryptBlock_length (s : State) (b : Bytes) : (decryptBlock s b).length = s.bsz := by
  simp [decryptBlock]

end Sys2Proof.Machine
end

