-- ==== Sys2Proof/Laws/Chaining.lean ====
section
/-! SUPPORT. What the chaining driver can do, said once per operation: process_block, absorb, the common checks, the data
rule, the two finish rules, and the padding engine. -/

namespace Sys2Proof.Machine

/-! ### Operands -/

@[simp] theorem chainBytes_length (s : State) : (chainBytes s).length = s.bsz :=
  first_length _ _ (bsz_le s)

theorem bufferedBytes_length (s : State) (h : s.chn.iblen ≤ 16) : (bufferedBytes s).length = s.chn.iblen :=
  first_length _ _ h

theorem chunk_length (s : State) (l : Nat) (h : l ≤ 16) : (chunk s l).length = l := first_length _ _ h

/-! ### process_block -/

@[simp] theorem processBlock_length (dir : Dir) (x : Bytes) (s : State) (h : x.length = s.bsz) :
    (processBlock dir x s).1.length = s.bsz := by
  unfold processBlock
  split <;> simp [h]

/-- The CHAIN that process_block leaves, as a byte string; `none` where the mode leaves it alone (R205). -/
def nextChain (dir : Dir) (x : Bytes) (s : State) : Option Bytes :=
  match s.modes.mode, dir with
  | .ecb, _ => none
  | .cbc, .enc | .xcbc, .enc => some (encryptBlock s (xorBytes x (chainBytes s)))
  | .cbc, .dec | .xcbc, .dec | .cfb, .dec => some x
  | .cfb, .enc => some (xorBytes x (encryptBlock s (chainBytes s)))
  | .ofb, _ => some (encryptBlock s (chainBytes s))

theorem nextChain_length {dir : Dir} {x : Bytes} {s : State} {b : Bytes} (h : x.length = s.bsz)
    (hb : nextChain dir x s = some b) : b.length = s.bsz := by
  unfold nextChain at hb
  split at hb <;> cases hb <;> simp [h]

/-- process_block writes CHAIN and nothing else. -/
theorem processBlock_state (dir : Dir) (x : Bytes) (s : State) : (processBlock dir x s).2 =
    { s with chn := { s.chn with chain := ((nextChain dir x s).map (fill 16)).getD s.chn.chain } } := by
  unfold processBlock nextChain
  cases s.modes.mode <;> cases dir <;> rfl

/-- process_block reads the parameters, the mode, the key schedule and CHAIN only. -/
theorem processBlock_congr (dir : Dir) (x : Bytes) (s t : State) (hp : t.params = s.params)
    (hm : t.modes.mode = s.modes.mode) (hk : t.key.ks = s.key.ks) (hc : t.chn.chain = s.chn.chain) :
    (processBlock dir x t).1 = (processBlock dir x s).1 ∧ nextChain dir x t = nextChain dir x s := by
  have hb : t.bsz = s.bsz := by simp [bsz_eq, hp]
  have he : ∀ b, encryptBlock t b = encryptBlock s b := fun b => by simp [encryptBlock, schedule, hp, hk, hb]
  have hd : ∀ b, decryptBlock t b = decryptBlock s b := fun b => by simp [decryptBlock, schedule, hp, hk, hb]
  have hcb : chainBytes t = chainBytes s := by simp [chainBytes, hc, hb]
  unfold processBlock nextChain
  rw [hm]
  cases s.modes.mode <;> cases dir <;> simp [he, hd, hcb]

/-- A lawful transform's decode direction undoes its encode direction from the same CHAIN and leaves the same CHAIN. -/
theorem processBlock_dec_enc (x : Bytes) (s : State) (hx : x.length = s.bsz)
    (law : ∀ b : Bytes, b.length = s.bsz → decryptBlock s (encryptBlock s b) = b) :
    (processBlock .dec (processBlock .enc x s).1 s).1 = x ∧
      nextChain .dec (processBlock .enc x s).1 s = nextChain .enc x s := by
  unfold processBlock nextChain
  cases s.modes.mode <;> simp only
  · exact ⟨law x hx, trivial⟩
  · rw [law _ (by simp [hx])]
    exact ⟨xorBytes_cancel _ _ (by simp [hx]), trivial⟩
  · rw [law _ (by simp [hx])]
    exact ⟨xorBytes_cancel _ _ (by simp [hx]), trivial⟩
  · exact ⟨xorBytes_cancel _ _ (by simp [hx]), trivial⟩
  · exact ⟨xorBytes_cancel _ _ (by simp [hx]), trivial⟩

/-! ### absorb -/

/-- The buffered bytes and the new chunk (R213). -/
def absorbed (l : Nat) (s : State) : Bytes := bufferedBytes s ++ chunk s l

theorem absorbed_length (l : Nat) (s : State) (h : s.chn.iblen ≤ 16) (hl : l ≤ 16) :
    (absorbed l s).length = s.chn.iblen + l := by
  simp [absorbed, bufferedBytes_length s h, chunk_length s l hl]

/-- Whether absorb outputs a block: more than a block stands, or exactly one that is not held back (R213 to R215). -/
def outputsBlock (dir : Dir) (l : Nat) (s : State) : Prop :=
  s.bsz < s.chn.iblen + l ∨ (s.chn.iblen + l = s.bsz ∧ ¬(dir = .dec ∧ s.modes.pad ≠ .none))

theorem holdsBack_eq_false_iff (dir : Dir) (s : State) :
    holdsBack dir s = false ↔ ¬(dir = .dec ∧ s.modes.pad ≠ .none) := by
  cases dir <;> cases h : s.modes.pad <;> simp [holdsBack, h]

/-- absorb that outputs: one block, and the rest of the bytes in the buffer. -/
theorem absorb_output (dir : Dir) (l : Nat) (s : State) (h : s.chn.iblen ≤ 16) (hl : l ≤ 16)
    (ho : outputsBlock dir l s) : absorb dir l s =
      setBuffer ((absorbed l s).drop s.bsz)
        (out (processBlock dir ((absorbed l s).take s.bsz) s).1
          { s with chn := { s.chn with
              chain := ((nextChain dir ((absorbed l s).take s.bsz) s).map (fill 16)).getD s.chn.chain } }) := by
  unfold absorb
  simp only
  rw [if_pos, processBlock_state]
  · rfl
  · have := absorbed_length l s h hl
    unfold absorbed at this
    rw [this, holdsBack_eq_false_iff]
    exact ho

/-- absorb that outputs nothing buffers every byte. -/
theorem absorb_hold (dir : Dir) (l : Nat) (s : State) (h : s.chn.iblen ≤ 16) (hl : l ≤ 16)
    (ho : ¬outputsBlock dir l s) : absorb dir l s = setBuffer (absorbed l s) s := by
  unfold absorb
  simp only
  rw [if_neg]
  · rfl
  · have := absorbed_length l s h hl
    unfold absorbed at this
    rw [this, holdsBack_eq_false_iff]
    exact ho

/-- Whatever the state, absorb writes CHAIN, the buffer and the output only. -/
theorem absorb_frame (dir : Dir) (l : Nat) (s : State) : ∃ c b o y, absorb dir l s =
    { s with
      chn := { s.chn with chain := c, ibuf := fill 16 b, iblen := b.length }
      results := { s.results with dout := y }
      status := { s.status with outlen := o } } := by
  unfold absorb
  simp only
  split
  · rw [processBlock_state]
    exact ⟨_, _, _, _, rfl⟩
  · exact ⟨s.chn.chain, _, s.status.outlen, s.results.dout, rfl⟩

/-! ### The rules -/

/-- The common checks pass exactly on a keyed state whose stream, if any, has not failed and is not the other one. -/
theorem chnCheck_none_iff (other : ChainPhase) (s : State) : chnCheck other s = none ↔
    s.key.keyed = true ∧ s.chn.cph ≠ .failed ∧ s.chn.cph ≠ other := by
  unfold chnCheck
  split
  · simp_all
  · split
    · simp_all
    · split <;> simp_all

theorem chnCheck_otherPhase_none_iff (dir : Dir) (s : State) : chnCheck dir.otherPhase s = none ↔
    s.key.keyed = true ∧ (s.chn.cph = .idle ∨ s.chn.cph = dir.phase) := by
  rw [chnCheck_none_iff]
  cases dir <;> cases s.chn.cph <;> simp [Dir.otherPhase, Dir.phase]

/-- The checks read the key and the phase only. -/
theorem chnCheck_clearOut (other : ChainPhase) (s : State) : chnCheck other (clearOut s) = chnCheck other s := rfl

/-- A data command raises an error and leaves the state, or runs from CHAIN, or from CIV when XCBC starts a new call. -/
theorem chnDataRule_cases (dir : Dir) (imm : Nat) (nc : Bool) (s : State) :
    (∃ e, chnDataRule dir imm nc s = raise s e) ∨
    (s.key.keyed = true ∧ (s.chn.cph = .idle ∨ s.chn.cph = dir.phase) ∧ imm ≤ s.bsz ∧
      ∃ c, (c = s.chn.chain ∨ c = s.chn.civ) ∧ chnDataRule dir imm nc s =
        succeed (setCph dir.phase (absorb dir imm { s with chn := { s.chn with chain := c } }))) := by
  unfold chnDataRule
  cases hc : chnCheck dir.otherPhase s with
  | some e => exact .inl ⟨e, rfl⟩
  | none =>
    obtain ⟨hk, hp⟩ := (chnCheck_otherPhase_none_iff dir s).mp hc
    by_cases hl : imm > s.bsz
    · rw [if_pos hl]
      exact .inl ⟨_, rfl⟩
    · rw [if_neg hl]
      by_cases hn : s.modes.mode = .xcbc ∧ nc = true
      · rw [if_pos hn]
        by_cases hi : s.chn.iblen ≠ 0
        · rw [if_pos hi]
          exact .inl ⟨_, rfl⟩
        · rw [if_neg hi]
          exact .inr ⟨hk, hp, by omega, _, .inr rfl, rfl⟩
      · rw [if_neg hn]
        exact .inr ⟨hk, hp, by omega, _, .inl rfl, rfl⟩

/-- A data command that passes its checks and starts no new call. -/
theorem chnDataRule_runs (dir : Dir) (imm : Nat) (nc : Bool) (s : State) (hk : s.key.keyed = true)
    (hp : s.chn.cph = .idle ∨ s.chn.cph = dir.phase) (hl : imm ≤ s.bsz) (hn : ¬(s.modes.mode = .xcbc ∧ nc = true)) :
    chnDataRule dir imm nc s = succeed (setCph dir.phase (absorb dir imm s)) := by
  unfold chnDataRule
  rw [(chnCheck_otherPhase_none_iff dir s).mpr ⟨hk, hp⟩]
  simp only
  rw [if_neg (by omega), if_neg hn]

/-- CHN.FINE raises an error and leaves the state, ends an unpadded stream, or pads the last block. -/
theorem chnFineRule_cases (s : State) :
    (∃ e, chnFineRule s = raise s e) ∨
    (s.key.keyed = true ∧ (s.chn.cph = .idle ∨ s.chn.cph = .enc) ∧
      ((s.modes.pad = .none ∧ s.chn.iblen = 0 ∧ chnFineRule s = succeed (setCph .idle (setBuffer [] s))) ∨
       (s.modes.pad ≠ .none ∧
        let x := bufferedBytes s ++ padBytes s.modes.pad (s.bsz - s.chn.iblen)
        chnFineRule s = succeed (setCph .idle (setBuffer [] (out (processBlock .enc x s).1
          { s with chn := { s.chn with chain := ((nextChain .enc x s).map (fill 16)).getD s.chn.chain } })))))) := by
  unfold chnFineRule
  cases hc : chnCheck .dec s with
  | some e => exact .inl ⟨e, rfl⟩
  | none =>
    obtain ⟨hk, hp⟩ := (chnCheck_otherPhase_none_iff .enc s).mp hc
    by_cases hn : s.modes.pad = .none
    · simp only [if_pos hn]
      by_cases hi : s.chn.iblen ≠ 0
      · rw [if_pos hi]
        exact .inl ⟨_, rfl⟩
      · rw [if_neg hi]
        exact .inr ⟨hk, hp, .inl ⟨hn, by omega, rfl⟩⟩
    · simp only [if_neg hn, processBlock_state]
      exact .inr ⟨hk, hp, .inr ⟨hn, trivial⟩⟩

/-- CHN.FIND raises an error and leaves the state, ends an unpadded stream, fails for want of a held block, or decodes the
held block and strips its padding or fails. -/
theorem chnFindRule_cases (s : State) :
    (∃ e, chnFindRule s = raise s e) ∨
    (s.key.keyed = true ∧ (s.chn.cph = .idle ∨ s.chn.cph = .dec) ∧
      ((s.modes.pad = .none ∧ s.chn.iblen = 0 ∧ chnFindRule s = succeed (setCph .idle s)) ∨
       (s.modes.pad ≠ .none ∧ s.chn.iblen ≠ s.bsz ∧
        chnFindRule s = raise (setCph .failed (setBuffer [] s)) .padShort) ∨
       (s.modes.pad ≠ .none ∧ s.chn.iblen = s.bsz ∧
        let x := first s.chn.ibuf s.bsz
        let y := (processBlock .dec x s).1
        let t : State :=
          { s with chn := { s.chn with chain := ((nextChain .dec x s).map (fill 16)).getD s.chn.chain } }
        (padLength s.modes.pad s.bsz y = none ∧ chnFindRule s = raise (setCph .failed (setBuffer [] t)) .padBad) ∨
        (∃ p, padLength s.modes.pad s.bsz y = some p ∧
          chnFindRule s = succeed (setCph .idle (out (y.take (s.bsz - p)) (setBuffer [] t))))))) := by
  unfold chnFindRule
  cases hc : chnCheck .enc s with
  | some e => exact .inl ⟨e, rfl⟩
  | none =>
    obtain ⟨hk, hp⟩ := (chnCheck_otherPhase_none_iff .dec s).mp hc
    refine if hn : s.modes.pad = .none then ?_ else ?_
    · simp only [if_pos hn]
      by_cases hi : s.chn.iblen ≠ 0
      · rw [if_pos hi]
        exact .inl ⟨_, rfl⟩
      · rw [if_neg hi]
        exact .inr ⟨hk, hp, .inl ⟨hn, by omega, rfl⟩⟩
    · simp only [if_neg hn]
      by_cases hi : s.chn.iblen ≠ s.bsz
      · rw [if_pos hi]
        exact .inr ⟨hk, hp, .inr (.inl ⟨hn, hi, rfl⟩)⟩
      · rw [if_neg hi, processBlock_state]
        refine .inr ⟨hk, hp, .inr (.inr ⟨hn, by omega, ?_⟩)⟩
        simp only
        cases hl : padLength s.modes.pad s.bsz (processBlock .dec (first s.chn.ibuf s.bsz) s).1 with
        | none => exact .inl ⟨rfl, rfl⟩
        | some p => exact .inr ⟨p, rfl, rfl⟩

/-! ### Padding -/

theorem padBytes_length (pad : PadMode) (p : Nat) (h : pad ≠ .none) (hp : 1 ≤ p) : (padBytes pad p).length = p := by
  cases pad <;> simp_all [padBytes, zeros]

/-- An accepted pad length is at least 1 and at most the block (R219). -/
theorem padLength_le (pad : PadMode) (bs : Nat) (y : Bytes) (p : Nat) (hy : y.length = bs)
    (h : padLength pad bs y = some p) : 1 ≤ p ∧ p ≤ bs := by
  cases pad with
  | none => cases h
  | bit =>
    unfold padLength at h
    simp only at h
    split at h
    · rename_i hh
      cases h
      have : (y.reverse.drop (y.reverse.takeWhile fun b => b == 0).length) ≠ [] := by
        intro h0
        rw [h0] at hh
        cases hh
      have h1 : ¬(y.reverse.length ≤ (y.reverse.takeWhile fun b => b == 0).length) := fun hle =>
        this (List.drop_eq_nil_of_le hle)
      simp only [List.length_reverse] at h1
      omega
    · cases h
  | x923 =>
    unfold padLength at h
    simp only at h
    split at h
    · cases h
    · split at h
      · cases h
        omega
      · cases h
  | pkcs7 =>
    unfold padLength at h
    simp only at h
    split at h
    · cases h
    · split at h
      · cases h
        omega
      · cases h

end Sys2Proof.Machine
end

