-- ==== Sys2Proof/Laws/Encoding.lean ====
section
/-! SUPPORT. The command word: its fields as quotients and remainders, and the must-be-zero masks as bounds. -/

namespace Sys2Proof

theorem toNat_append_eq {n m : Nat} (x : BitVec n) (y : BitVec m) : (x ++ y).toNat = x.toNat * 2 ^ m + y.toNat := by
  rw [BitVec.toNat_append, ← Nat.shiftLeft_add_eq_or_of_lt y.isLt, Nat.shiftLeft_eq]

/-- The number a command word is (R121). -/
theorem wordOf_toNat (a b c : Nat) : (wordOf a b c).toNat = a % 256 + 256 * (b % 256) + 65536 * (c % 16) := by
  unfold wordOf
  simp only [toNat_append_eq, BitVec.toNat_ofNat]
  omega

theorem fieldsOf_eq (w : Word) : fieldsOf w =
    { opc := w.toNat % 256, imm := w.toNat / 256 % 256, sub := w.toNat / 65536 % 16, rsv := w.toNat / 1048576 % 4096 } := by
  simp [fieldsOf, BitVec.extractLsb'_toNat, Nat.shiftRight_eq_div_pow]

/-- No bit at or above k is set exactly when the word is below 2^k. -/
theorem and_high_mask_eq_zero {n : Nat} (w : BitVec n) (k : Nat) :
    w &&& (BitVec.allOnes n <<< k) = 0 ↔ w.toNat < 2 ^ k := by
  constructor
  · intro h
    apply Nat.lt_pow_two_of_testBit
    intro i hi
    rw [BitVec.testBit_toNat]
    by_cases hn : i < n
    · have := congrArg (fun v : BitVec n => v.getLsbD i) h
      simp only [BitVec.getLsbD_and, BitVec.getLsbD_shiftLeft, BitVec.getLsbD_allOnes] at this
      have h1 : i - k < n := by omega
      have h2 : ¬i < k := by omega
      simpa [hn, h1, h2] using this
    · exact BitVec.getLsbD_of_ge w i (by omega)
  · intro h
    apply BitVec.eq_of_getLsbD_eq
    intro i hi
    simp only [BitVec.getLsbD_and, BitVec.getLsbD_shiftLeft, BitVec.getLsbD_allOnes]
    by_cases hk : k ≤ i
    · have : w.getLsbD i = false := by
        rw [← BitVec.testBit_toNat]
        exact Nat.testBit_lt_two_pow (lt_of_lt_of_le h (Nat.pow_le_pow_right (by norm_num) hk))
      simp [this]
    · have : i < k := by omega
      simp [this]

/-- How many low bits a format may use: 8, 16, 20 or 17 (R122). -/
def Format.usedBits : Format → Nat
  | .z => 8
  | .i => 16
  | .k => 20
  | .d => 17

/-- The must-be-zero check of R127 as a bound on the word. -/
theorem mustBeZero_iff (f : Format) (w : Word) : w &&& f.mustBeZero = 0 ↔ w.toNat < 2 ^ f.usedBits := by
  rw [← and_high_mask_eq_zero]
  cases f <;> simp only [Format.mustBeZero, Format.usedBits] <;> rfl

end Sys2Proof
end

