-- ==== Sys2Proof/Laws/Gcm.lean ====
section
/-! SUPPORT. What the GCM controller can do, said once per operation: the opening of a session, the data path, the tag, and
the rule of each command. -/

namespace Sys2Proof.Machine

/-- A command's session state: preset's where the session is not open yet, else the state as it is. -/
def Opens (s t : State) : Prop :=
  (s.gcm.gph = .config ∧ s.key.keyed = true ∧ s.gcm.givset = true ∧ t = startSession s) ∨ (s.gcm.gph ≠ .config ∧ t = s)

/-- What the opening of a session leaves and ends in, in a state where an open session has a key and an IV (R57). -/
theorem Opens.frame {s t : State} (h : Opens s t)
    (hs : s.gcm.gph ≠ .config → s.key.keyed = true ∧ s.gcm.givset = true) :
    t.params = s.params ∧ t.status = s.status ∧ t.host = s.host ∧ t.results = s.results ∧ t.key = s.key ∧
      t.modes = s.modes ∧ t.chn = s.chn ∧ t.pend = s.pend ∧ t.env = s.env ∧ t.gcm.gph ≠ .config ∧
      t.key.keyed = true ∧ t.gcm.givset = true ∧ t.gcm.aadpart = s.gcm.aadpart ∧ t.gcm.dpart = s.gcm.dpart ∧
      t.gcm.gdir = s.gcm.gdir ∧ (t.gcm.gph = s.gcm.gph ∨ (t.gcm.gph = .aad ∧ s.gcm.gph = .config)) := by
  rcases h with ⟨hc, hk, hi, rfl⟩ | ⟨hc, rfl⟩
  · simp [startSession, hk, hi, hc]
  · simp [hc, hs hc]

/-- A command that opens the session raises preset's error and leaves the state, or goes on in the session state. -/
theorem withSession_cases (s : State) (k : State → Run) :
    (s.gcm.gph = .config ∧ s.key.keyed = false ∧ withSession s k = raise s .notKeyed) ∨
    (s.gcm.gph = .config ∧ s.key.keyed = true ∧ s.gcm.givset = false ∧ withSession s k = raise s .gcmNoIv) ∨
    (∃ t, Opens s t ∧ withSession s k = k t) := by
  unfold withSession preset
  by_cases hc : s.gcm.gph = .config
  · simp only [if_pos hc]
    by_cases hk : s.key.keyed = false
    · simp only [if_pos hk]
      exact .inl ⟨hc, hk, trivial⟩
    · simp only [if_neg hk]
      have hk' : s.key.keyed = true := by simpa using hk
      by_cases hi : s.gcm.givset = false
      · simp only [if_pos hi]
        exact .inr (.inl ⟨hc, hk', hi, trivial⟩)
      · simp only [if_neg hi]
        exact .inr (.inr ⟨_, .inl ⟨hc, hk', by simpa using hi, rfl⟩, rfl⟩)
  · simp only [if_neg hc]
    exact .inr (.inr ⟨s, .inr ⟨hc, rfl⟩, rfl⟩)

/-- In an open session nothing is opened. -/
theorem withSession_open (s : State) (k : State → Run) (h : s.gcm.gph ≠ .config) : withSession s k = k s := by
  unfold withSession
  rw [if_neg h]

/-- A session opens from CONFIG with a key and an IV. -/
theorem withSession_config (s : State) (k : State → Run) (h : s.gcm.gph = .config) (hk : s.key.keyed = true)
    (hi : s.gcm.givset = true) : withSession s k = k (startSession s) := by
  unfold withSession preset
  simp [h, hk, hi]

/-- What preset writes (R320). -/
theorem startSession_eq (s : State) : ∃ h j0, startSession s =
    { s with gcm := { s.gcm with h := h, j0 := j0, cb := j0, acc := fill 16 [], alen := 0, clen := 0, gph := .aad } } :=
  ⟨_, _, rfl⟩

/-- GHASH over n blocks is the fold of R317 over them, in order (R318). -/
theorem ghashBlocks_eq_foldl (h : Block) (n : Nat) (acc : Block) (b : Bytes) : ghashBlocks h n acc b =
    ((List.range n).map fun k => fill 16 ((b.drop (16 * k)).take 16)).foldl (ghashStep h) acc := by
  induction n generalizing acc b with
  | zero => rfl
  | succ n ih =>
    rw [ghashBlocks, ih, List.range_succ_eq_map]
    simp only [List.map_cons, List.map_map, List.foldl_cons]
    congr 1
    apply List.map_congr_left
    intro k _
    simp only [Function.comp, List.drop_drop]
    congr 3
    omega

/-- The AAD step changes the accumulator, the AAD count and the closing flag only. -/
theorem absorbAad_eq (l : Nat) (s : State) : ∃ acc alen, absorbAad l s =
    { s with gcm := { s.gcm with acc := acc, alen := alen,
                                 aadpart := if l ≠ 0 ∧ l < 16 then true else s.gcm.aadpart } } := by
  unfold absorbAad
  by_cases h : l = 0
  · rw [if_pos h]
    exact ⟨s.gcm.acc, s.gcm.alen, by simp [h]⟩
  · rw [if_neg h]
    refine ⟨ghashStep s.gcm.h s.gcm.acc (fill 16 (chunk s l)), s.gcm.alen + BitVec.ofNat 64 (8 * l), ?_⟩
    simp only [fold, ne_eq, h, not_false_eq_true, true_and]

/-- An empty data chunk does nothing in an open session. -/
theorem cryptData_zero (dir : Dir) (s : State) : cryptData dir 0 s = s := by
  unfold cryptData
  rw [if_pos rfl]

/-- The output of a data step (R334, R337). -/
def cryptResult (l : Nat) (s : State) : Bytes := xorBytes (chunk s l) ((encryptBlock s (inc32 s.gcm.cb).toList).take l)

theorem cryptResult_length (l : Nat) (s : State) (hl : l ≤ 16) (hb : s.bsz = 16) : (cryptResult l s).length = l := by
  simp only [cryptResult, xorBytes_length, chunk, first, List.length_take, Vector.length_toList, encryptBlock_length, hb]
  omega

/-- The data step on a chunk that is not empty: it changes the output and the session only, enters the data phase and
latches the direction. -/
theorem cryptData_eq (dir : Dir) (l : Nat) (s : State) (h : 1 ≤ l) (hl : l ≤ 16) (hb : s.bsz = 16) :
    cryptData dir l s =
      { s with
        results := { s.results with dout := fill 16 (cryptResult l s) }
        status := { s.status with outlen := l }
        gcm := { s.gcm with
          cb := inc32 s.gcm.cb
          acc := ghashStep s.gcm.h s.gcm.acc (fill 16 (dir.ciphertext (chunk s l) (cryptResult l s)))
          clen := s.gcm.clen + BitVec.ofNat 64 (8 * l)
          dpart := if l < 16 then true else s.gcm.dpart
          gph := .data
          gdir := dir.gcmDir } } := by
  unfold cryptData
  rw [if_neg (by omega)]
  have hy := cryptResult_length l s hl hb
  unfold cryptResult at hy ⊢
  simp only [fold, out, hy]

/-- gtag folds once. -/
theorem gtag_state (s : State) : ∃ acc, (gtag s).2 = { s with gcm := { s.gcm with acc := acc } } := ⟨_, rfl⟩

/-- The end of GCM.FINE. -/
theorem produceTag_eq (s : State) : ∃ acc tag, produceTag s = succeed
    { s with
      gcm := { s.gcm with acc := acc, gph := .done }
      results := { s.results with tag := tag }
      status := { s.status with tagv := true } } := ⟨_, _, rfl⟩

/-- The end of GCM.FIND: one state, whether the tags agree or not. -/
theorem compareTag_eq (s : State) : ∃ acc,
    let u : State :=
      { s with
        gcm := { s.gcm with acc := acc, gph := .done }
        results := { s.results with tag := fill 16 [] }
        status := { s.status with tagv := false } }
    compareTag s = raise u .tagMismatch ∨ compareTag s = succeed u := by
  unfold compareTag
  refine ⟨((gtag s).2).gcm.acc, ?_⟩
  simp only
  split
  · exact .inl rfl
  · exact .inr rfl

/-! ### The rules -/

/-- GCM.SETIV raises an error and leaves the state, or configures an IV. -/
theorem gcmSetivRule_cases (imm : Nat) (s : State) :
    (∃ e, gcmSetivRule imm s = raise s e) ∨
    (1 ≤ imm ∧ imm ≤ 64 ∧ (s.gcm.gph = .config ∨ s.gcm.gph = .done) ∧ gcmSetivRule imm s =
      succeed (gcmSessionReset
        { s with gcm := { s.gcm with giv := fill 64 (ivOperand s imm), givlen := imm, givset := true } })) := by
  unfold gcmSetivRule
  split
  · exact .inl ⟨_, rfl⟩
  · split
    · exact .inl ⟨_, rfl⟩
    · split
      · exact .inl ⟨_, rfl⟩
      · rename_i h1 h2 h3
        refine .inr ⟨by omega, by omega, ?_, rfl⟩
        cases h : s.gcm.gph <;> simp [h] at h3 ⊢

/-- GCM.SETTAGLEN raises an error and leaves the state, or sets one of the seven lengths. -/
theorem gcmSettaglenRule_cases (imm : Nat) (s : State) :
    (∃ e, gcmSettaglenRule imm s = raise s e) ∨
    (imm ∈ tagLengths ∧ gcmSettaglenRule imm s = succeed { s with modes := { s.modes with taglen := imm } }) := by
  unfold gcmSettaglenRule
  split
  · exact .inl ⟨_, rfl⟩
  · split
    · exact .inl ⟨_, rfl⟩
    · rename_i h1 h2
      exact .inr ⟨by simpa using h2, rfl⟩

/-- GCM.AAD raises an error and leaves the state, or absorbs a chunk in a session that is in CONFIG or AAD. -/
theorem gcmAadRule_cases (imm : Nat) (s : State) :
    (∃ e, gcmAadRule imm s = raise s e) ∨
    (s.bsz = 16 ∧ imm ≤ 16 ∧ (s.gcm.gph = .config ∨ s.gcm.gph = .aad) ∧ s.gcm.aadpart = false ∧
      ∃ t, Opens s t ∧ gcmAadRule imm s = succeed (absorbAad imm t)) := by
  unfold gcmAadRule
  split
  · exact .inl ⟨_, rfl⟩
  · split
    · exact .inl ⟨_, rfl⟩
    · split
      · exact .inl ⟨_, rfl⟩
      · split
        · exact .inl ⟨_, rfl⟩
        · split
          · exact .inl ⟨_, rfl⟩
          · rename_i h1 h2 h3 h4 h5
            rcases withSession_cases s (fun t => succeed (absorbAad imm t)) with ⟨_, _, h⟩ | ⟨_, _, _, h⟩ | ⟨t, ht, h⟩
            · exact .inl ⟨_, h⟩
            · exact .inl ⟨_, h⟩
            · refine .inr ⟨by omega, by omega, ?_, by simpa using h5, t, ht, h⟩
              cases hg : s.gcm.gph <;> simp [hg] at h3 h4 ⊢

/-- GCM.ENC and GCM.DEC raise an error and leave the state, or crypt a chunk in a session that is not done. -/
theorem gcmDataRule_cases (dir : Dir) (imm : Nat) (s : State) :
    (∃ e, gcmDataRule dir imm s = raise s e) ∨
    (s.bsz = 16 ∧ imm ≤ 16 ∧ s.gcm.gph ≠ .done ∧ s.gcm.gdir ≠ dir.otherGcmDir ∧ s.gcm.dpart = false ∧
      ∃ t, Opens s t ∧ gcmDataRule dir imm s = succeed (cryptData dir imm t)) := by
  unfold gcmDataRule
  split
  · exact .inl ⟨_, rfl⟩
  · split
    · exact .inl ⟨_, rfl⟩
    · split
      · exact .inl ⟨_, rfl⟩
      · split
        · exact .inl ⟨_, rfl⟩
        · split
          · exact .inl ⟨_, rfl⟩
          · rename_i h1 h2 h3 h4 h5
            rcases withSession_cases s (fun t => succeed (cryptData dir imm t)) with ⟨_, _, h⟩ | ⟨_, _, _, h⟩ | ⟨t, ht, h⟩
            · exact .inl ⟨_, h⟩
            · exact .inl ⟨_, h⟩
            · exact .inr ⟨by omega, by omega, h3, h4, by simpa using h5, t, ht, h⟩

/-- GCM.FINE raises an error and leaves the state, or produces the tag. -/
theorem gcmFineRule_cases (s : State) :
    (∃ e, gcmFineRule s = raise s e) ∨
    (s.bsz = 16 ∧ s.gcm.gph ≠ .done ∧ s.gcm.gdir ≠ .dec ∧ ∃ t, Opens s t ∧ gcmFineRule s = produceTag t) := by
  unfold gcmFineRule
  split
  · exact .inl ⟨_, rfl⟩
  · split
    · exact .inl ⟨_, rfl⟩
    · split
      · exact .inl ⟨_, rfl⟩
      · rename_i h1 h2 h3
        rcases withSession_cases s produceTag with ⟨_, _, h⟩ | ⟨_, _, _, h⟩ | ⟨t, ht, h⟩
        · exact .inl ⟨_, h⟩
        · exact .inl ⟨_, h⟩
        · exact .inr ⟨by omega, h2, h3, t, ht, h⟩

/-- GCM.FIND raises an error and leaves the state, or compares the tag. -/
theorem gcmFindRule_cases (s : State) :
    (∃ e, gcmFindRule s = raise s e) ∨
    (s.bsz = 16 ∧ s.gcm.gph ≠ .done ∧ s.gcm.gdir ≠ .enc ∧ ∃ t, Opens s t ∧ gcmFindRule s = compareTag t) := by
  unfold gcmFindRule
  split
  · exact .inl ⟨_, rfl⟩
  · split
    · exact .inl ⟨_, rfl⟩
    · split
      · exact .inl ⟨_, rfl⟩
      · rename_i h1 h2 h3
        rcases withSession_cases s compareTag with ⟨_, _, h⟩ | ⟨_, _, _, h⟩ | ⟨t, ht, h⟩
        · exact .inl ⟨_, h⟩
        · exact .inl ⟨_, h⟩
        · exact .inr ⟨by omega, h2, h3, t, ht, h⟩

end Sys2Proof.Machine
end

