-- ==== Sys2Proof/Laws/PerInstr.lean ====
section
/-! SUPPORT. One law of every command as syntax: its word carries its opcode, and every bit that its format makes
must-be-zero is 0 (30_encoding.md R122, R126). -/

namespace Sys2Proof.Laws.WordMatches

open Sys2Proof

/-- The word of a command has the command's opcode, which is assigned, and no must-be-zero bit of its format at 1. -/
def Statement (i : Instr) : Prop :=
  (encode i).toNat % 256 = i.opcode ∧ ∃ f, formatOf i.opcode = some f ∧ encode i &&& f.mustBeZero = 0

theorem opcode_lt (i : Instr) : i.opcode < 256 := by
  cases i <;> simp [Instr.opcode]

/-- The law from the three fields' bounds. -/
theorem of_fields (i : Instr) (f : Format) (hf : formatOf i.opcode = some f)
    (hb : i.opcode % 256 + 256 * (i.immField % 256) + 65536 * (i.subField % 16) < 2 ^ f.usedBits) : Statement i := by
  unfold Statement
  have ho := opcode_lt i
  rw [encode, wordOf_toNat]
  exact ⟨by omega, f, hf, by rw [mustBeZero_iff, wordOf_toNat]; exact hb⟩

theorem nop : Statement .nop := by
  refine of_fields _ .z rfl ?_
  simp only [Instr.opcode, Instr.immField, Instr.subField, Format.usedBits]
  omega

theorem reset : Statement .reset := by
  refine of_fields _ .z rfl ?_
  simp only [Instr.opcode, Instr.immField, Instr.subField, Format.usedBits]
  omega

theorem clear : Statement .clear := by
  refine of_fields _ .z rfl ?_
  simp only [Instr.opcode, Instr.immField, Instr.subField, Format.usedBits]
  omega

theorem setkey (imm ktype : Nat) : Statement (.setkey imm ktype) := by
  refine of_fields _ .k rfl ?_
  simp only [Instr.opcode, Instr.immField, Instr.subField, Format.usedBits]
  omega

theorem setmode (imm : Nat) : Statement (.setmode imm) := by
  refine of_fields _ .i rfl ?_
  simp only [Instr.opcode, Instr.immField, Instr.subField, Format.usedBits]
  omega

theorem setpad (imm : Nat) : Statement (.setpad imm) := by
  refine of_fields _ .i rfl ?_
  simp only [Instr.opcode, Instr.immField, Instr.subField, Format.usedBits]
  omega

theorem waist : Statement .waist := by
  refine of_fields _ .z rfl ?_
  simp only [Instr.opcode, Instr.immField, Instr.subField, Format.usedBits]
  omega

theorem chnSetiv (imm : Nat) : Statement (.chnSetiv imm) := by
  refine of_fields _ .i rfl ?_
  simp only [Instr.opcode, Instr.immField, Instr.subField, Format.usedBits]
  omega

theorem chnEnc (imm : Nat) (nc : Bool) : Statement (.chnEnc imm nc) := by
  refine of_fields _ .d rfl ?_
  simp only [Instr.opcode, Instr.immField, Instr.subField, Format.usedBits]
  cases nc <;> simp only [Bool.toNat_true, Bool.toNat_false] <;> omega

theorem chnDec (imm : Nat) (nc : Bool) : Statement (.chnDec imm nc) := by
  refine of_fields _ .d rfl ?_
  simp only [Instr.opcode, Instr.immField, Instr.subField, Format.usedBits]
  cases nc <;> simp only [Bool.toNat_true, Bool.toNat_false] <;> omega

theorem chnFine : Statement .chnFine := by
  refine of_fields _ .z rfl ?_
  simp only [Instr.opcode, Instr.immField, Instr.subField, Format.usedBits]
  omega

theorem chnFind : Statement .chnFind := by
  refine of_fields _ .z rfl ?_
  simp only [Instr.opcode, Instr.immField, Instr.subField, Format.usedBits]
  omega

theorem gfMod : Statement .gfMod := by
  refine of_fields _ .z rfl ?_
  simp only [Instr.opcode, Instr.immField, Instr.subField, Format.usedBits]
  omega

theorem gfAdd : Statement .gfAdd := by
  refine of_fields _ .z rfl ?_
  simp only [Instr.opcode, Instr.immField, Instr.subField, Format.usedBits]
  omega

theorem gfMul : Statement .gfMul := by
  refine of_fields _ .z rfl ?_
  simp only [Instr.opcode, Instr.immField, Instr.subField, Format.usedBits]
  omega

theorem gfInv : Statement .gfInv := by
  refine of_fields _ .z rfl ?_
  simp only [Instr.opcode, Instr.immField, Instr.subField, Format.usedBits]
  omega

theorem gfDiv : Statement .gfDiv := by
  refine of_fields _ .z rfl ?_
  simp only [Instr.opcode, Instr.immField, Instr.subField, Format.usedBits]
  omega

theorem gfGmm : Statement .gfGmm := by
  refine of_fields _ .z rfl ?_
  simp only [Instr.opcode, Instr.immField, Instr.subField, Format.usedBits]
  omega

theorem gcmSetiv (imm : Nat) : Statement (.gcmSetiv imm) := by
  refine of_fields _ .i rfl ?_
  simp only [Instr.opcode, Instr.immField, Instr.subField, Format.usedBits]
  omega

theorem gcmSettaglen (imm : Nat) : Statement (.gcmSettaglen imm) := by
  refine of_fields _ .i rfl ?_
  simp only [Instr.opcode, Instr.immField, Instr.subField, Format.usedBits]
  omega

theorem gcmAad (imm : Nat) : Statement (.gcmAad imm) := by
  refine of_fields _ .i rfl ?_
  simp only [Instr.opcode, Instr.immField, Instr.subField, Format.usedBits]
  omega

theorem gcmEnc (imm : Nat) : Statement (.gcmEnc imm) := by
  refine of_fields _ .i rfl ?_
  simp only [Instr.opcode, Instr.immField, Instr.subField, Format.usedBits]
  omega

theorem gcmDec (imm : Nat) : Statement (.gcmDec imm) := by
  refine of_fields _ .i rfl ?_
  simp only [Instr.opcode, Instr.immField, Instr.subField, Format.usedBits]
  omega

theorem gcmFine : Statement .gcmFine := by
  refine of_fields _ .z rfl ?_
  simp only [Instr.opcode, Instr.immField, Instr.subField, Format.usedBits]
  omega

theorem gcmFind : Statement .gcmFind := by
  refine of_fields _ .z rfl ?_
  simp only [Instr.opcode, Instr.immField, Instr.subField, Format.usedBits]
  omega

end Sys2Proof.Laws.WordMatches
end

