-- ==== Sys2Proof/Laws/Poly.lean ====
section
/-! SUPPORT. The Galois field unit's integers as polynomials over GF(2): coefficients, sum, shift, product, remainder, gcd
and inverse. -/

namespace Sys2Proof.Machine

open Polynomial

/-! ### Coefficients -/

theorem toPoly_coeff (a i : Nat) : (toPoly a).coeff i = if a.testBit i then 1 else 0 := by
  unfold toPoly
  rw [finsetSum_coeff]
  have h1 : ∀ j ∈ Finset.range a, (if a.testBit j then (X : (ZMod 2)[X]) ^ j else 0).coeff i =
      if i = j then (if a.testBit i then 1 else 0) else 0 := by
    intro j _
    by_cases hb : a.testBit j
    · simp only [if_pos hb, coeff_X_pow]
      by_cases hij : i = j
      · subst hij
        simp [hb]
      · simp [hij]
    · simp only [if_neg hb, coeff_zero]
      by_cases hij : i = j
      · subst hij
        simp [hb]
      · simp [hij]
  rw [Finset.sum_congr rfl h1, Finset.sum_ite_eq]
  by_cases ht : a.testBit i
  · have : i < a := lt_of_lt_of_le Nat.lt_two_pow_self (Nat.ge_two_pow_of_testBit ht)
    simp [this]
  · simp [ht]

@[simp] theorem toPoly_zero : toPoly 0 = 0 := by simp [toPoly]

@[simp] theorem toPoly_one : toPoly 1 = 1 := by simp [toPoly]

theorem toPoly_injective {a b : Nat} (h : toPoly a = toPoly b) : a = b := by
  apply Nat.eq_of_testBit_eq
  intro i
  have hc := congrArg (fun p : (ZMod 2)[X] => p.coeff i) h
  simp only [toPoly_coeff] at hc
  by_cases ha : a.testBit i <;> by_cases hb : b.testBit i <;> simp_all

theorem toPoly_eq_zero_iff (a : Nat) : toPoly a = 0 ↔ a = 0 :=
  ⟨fun h => toPoly_injective (by rw [h, toPoly_zero]), fun h => by rw [h, toPoly_zero]⟩

theorem toPoly_eq_one_iff (a : Nat) : toPoly a = 1 ↔ a = 1 :=
  ⟨fun h => toPoly_injective (by rw [h, toPoly_one]), fun h => by rw [h, toPoly_one]⟩

theorem toPoly_xor (a b : Nat) : toPoly (a ^^^ b) = toPoly a + toPoly b := by
  ext i
  rw [coeff_add, toPoly_coeff, toPoly_coeff, toPoly_coeff, Nat.testBit_xor]
  by_cases ha : a.testBit i <;> by_cases hb : b.testBit i <;> simp [ha, hb]
  decide

theorem toPoly_shiftLeft (a k : Nat) : toPoly (a <<< k) = toPoly a * X ^ k := by
  ext i
  rw [coeff_mul_X_pow', toPoly_coeff, toPoly_coeff, Nat.testBit_shiftLeft]
  by_cases h : k ≤ i <;> simp [h]

theorem toPoly_two_pow (k : Nat) : toPoly (1 <<< k) = X ^ k := by
  rw [toPoly_shiftLeft, toPoly_one, one_mul]

/-- A polynomial is its own negative. -/
theorem poly_add_self (p : (ZMod 2)[X]) : p + p = 0 := CharTwo.add_self_eq_zero p

/-! ### Degree -/

theorem bitLen_le_iff (a n : Nat) : bitLen a ≤ n ↔ a < 2 ^ n := by
  unfold bitLen
  split
  · rename_i h
    subst h
    simp
  · rename_i h
    rw [Nat.succ_le_iff, Nat.log2_lt h]

theorem toPoly_degree_lt_iff (a n : Nat) : (toPoly a).degree < n ↔ a < 2 ^ n := by
  rw [degree_lt_iff_coeff_zero]
  constructor
  · intro h
    apply Nat.lt_pow_two_of_testBit
    intro i hi
    have := h i hi
    rw [toPoly_coeff] at this
    by_cases hb : a.testBit i <;> simp_all
  · intro h i hi
    rw [toPoly_coeff, Nat.testBit_lt_two_pow (lt_of_lt_of_le h (Nat.pow_le_pow_right (by norm_num) hi))]
    simp

/-- Degrees compare as bit lengths do (R19). -/
theorem degree_lt_degree_iff (a b : Nat) : (toPoly a).degree < (toPoly b).degree ↔ bitLen a < bitLen b := by
  by_cases hb : b = 0
  · subst hb
    simp [bitLen]
  · have hp : toPoly b ≠ 0 := fun h => hb ((toPoly_eq_zero_iff b).mp h)
    have hd : (toPoly b).degree = ((bitLen b - 1 : Nat) : WithBot Nat) := by
      apply le_antisymm
      · have : (toPoly b).degree < ((bitLen b : Nat) : WithBot Nat) :=
          (toPoly_degree_lt_iff b _).mpr ((bitLen_le_iff b _).mp le_rfl)
        rw [degree_eq_natDegree hp] at this ⊢
        have h2 : (toPoly b).natDegree < bitLen b := by exact_mod_cast this
        exact_mod_cast (by omega : (toPoly b).natDegree ≤ bitLen b - 1)
      · by_contra hlt
        have h1 := (toPoly_degree_lt_iff b (bitLen b - 1)).mp (not_le.mp hlt)
        have h2 := (bitLen_le_iff b (bitLen b - 1)).mpr h1
        have h3 : 0 < bitLen b := by simp [bitLen, hb]
        omega
    have h3 : 0 < bitLen b := by simp [bitLen, hb]
    rw [hd, toPoly_degree_lt_iff, ← bitLen_le_iff]
    omega

/-! ### Product -/

theorem toPoly_clmulBits (n a b : Nat) : toPoly (clmulBits n a b) = toPoly a * toPoly (b % 2 ^ n) := by
  induction n with
  | zero => simp [clmulBits, Nat.mod_one]
  | succ n ih =>
    have hm : b % 2 ^ (n + 1) = (if b.testBit n then 1 <<< n else 0) ^^^ (b % 2 ^ n) := by
      apply Nat.eq_of_testBit_eq
      intro i
      rw [Nat.testBit_xor, Nat.testBit_mod_two_pow, Nat.testBit_mod_two_pow]
      by_cases hb : b.testBit n
      · simp only [if_pos hb, Nat.one_shiftLeft, Nat.testBit_two_pow]
        by_cases hi : n = i
        · subst hi
          simp [hb]
        · have : (i < n + 1) ↔ i < n := by omega
          simp [hi, this]
      · simp only [if_neg hb, Nat.zero_testBit]
        by_cases hi : n = i
        · subst hi
          simp [hb]
        · have : (i < n + 1) ↔ i < n := by omega
          simp [this]
    rw [clmulBits, toPoly_xor, ih, hm, toPoly_xor, mul_add]
    congr 1
    split
    · rw [toPoly_shiftLeft, toPoly_two_pow]
    · simp

/-- The carry-less product is the product of polynomials (R19). -/
theorem toPoly_clmul (a b : Nat) : toPoly (clmul a b) = toPoly a * toPoly b := by
  unfold clmul
  rw [toPoly_clmulBits, Nat.mod_eq_of_lt ((bitLen_le_iff b _).mp le_rfl)]

/-! ### Division -/

theorem bitLen_xor_shift_lt (a b : Nat) (hb : b ≠ 0) (h : bitLen b ≤ bitLen a) :
    bitLen (a ^^^ (b <<< (bitLen a - bitLen b))) < bitLen a := by
  have hb0 : 0 < bitLen b := by simp [bitLen, hb]
  have top : ∀ c : Nat, 0 < bitLen c → c.testBit (bitLen c - 1) = true := by
    intro c hc
    unfold bitLen at hc ⊢
    split at hc
    · omega
    · rename_i hc0
      rw [if_neg hc0, Nat.add_sub_cancel]
      exact Nat.testBit_log2 hc0
  have hlt : a ^^^ (b <<< (bitLen a - bitLen b)) < 2 ^ (bitLen a - 1) := by
    apply Nat.lt_pow_two_of_testBit
    intro i hi
    rw [Nat.testBit_xor, Nat.testBit_shiftLeft]
    have hge : bitLen a - bitLen b ≤ i := by omega
    by_cases hie : i = bitLen a - 1
    · subst hie
      have e1 : bitLen a - 1 - (bitLen a - bitLen b) = bitLen b - 1 := by omega
      rw [top a (by omega), e1, top b hb0]
      simp [hge]
    · have ha : a.testBit i = false := Nat.testBit_lt_two_pow
        (lt_of_lt_of_le ((bitLen_le_iff a _).mp le_rfl) (Nat.pow_le_pow_right (by norm_num) (by omega)))
      have hb' : b.testBit (i - (bitLen a - bitLen b)) = false := Nat.testBit_lt_two_pow
        (lt_of_lt_of_le ((bitLen_le_iff b _).mp le_rfl) (Nat.pow_le_pow_right (by norm_num) (by omega)))
      simp [ha, hb']
  have := (bitLen_le_iff _ _).mpr hlt
  omega

/-- The division loop keeps `a = q * b + r` and ends with a remainder of lower degree. -/
theorem divLoop_spec (n a b q : Nat) (hb : b ≠ 0) (hn : bitLen a ≤ n) :
    toPoly (divLoop n a b q).1 * toPoly b + toPoly (divLoop n a b q).2 = toPoly q * toPoly b + toPoly a ∧
      bitLen (divLoop n a b q).2 < bitLen b := by
  have hb0 : 0 < bitLen b := by simp [bitLen, hb]
  induction n generalizing a q with
  | zero =>
    simp only [divLoop]
    exact ⟨trivial, by omega⟩
  | succ n ih =>
    unfold divLoop
    split
    · rename_i hle
      have hlt := bitLen_xor_shift_lt a b hb hle
      obtain ⟨h1, h2⟩ := ih (a ^^^ (b <<< (bitLen a - bitLen b))) (q ^^^ (1 <<< (bitLen a - bitLen b))) (by omega)
      refine ⟨?_, h2⟩
      rw [h1, toPoly_xor, toPoly_xor, toPoly_two_pow, toPoly_shiftLeft]
      have := poly_add_self (X ^ (bitLen a - bitLen b) * toPoly b)
      linear_combination this
    · rename_i hle
      exact ⟨rfl, not_le.mp hle⟩

theorem polyDivMod_spec (a b : Nat) (hb : b ≠ 0) :
    toPoly (polyDivMod a b).1 * toPoly b + toPoly (polyDivMod a b).2 = toPoly a ∧
      (toPoly (polyDivMod a b).2).degree < (toPoly b).degree := by
  obtain ⟨h1, h2⟩ := divLoop_spec (bitLen a) a b 0 hb le_rfl
  refine ⟨by simpa [polyDivMod] using h1, ?_⟩
  rw [degree_lt_degree_iff]
  exact h2

/-- A remainder of lower degree is the remainder. -/
theorem mod_eq_of_degree_lt {p q r a : (ZMod 2)[X]} (h : q * p + r = a) (hr : r.degree < p.degree) : a % p = r := by
  have hp : p ≠ 0 := by
    rintro rfl
    simp at hr
  rw [← h, Polynomial.add_mod, (EuclideanDomain.mod_eq_zero).mpr (dvd_mul_left p q), zero_add,
    (Polynomial.mod_eq_self_iff hp).mpr hr]

/-- Reduction is the remainder of polynomials (R263), and nothing for P = 0 (R264). -/
theorem toPoly_red (p a : Nat) (hp : p ≠ 0) : toPoly (red p a) = toPoly a % toPoly p := by
  unfold red
  rw [if_neg hp]
  obtain ⟨h1, h2⟩ := polyDivMod_spec a p hp
  exact (mod_eq_of_degree_lt h1 h2).symm

theorem red_zero (a : Nat) : red 0 a = a := by
  unfold red
  rw [if_pos rfl]

theorem red_degree_lt (p a : Nat) (hp : p ≠ 0) : (toPoly (red p a)).degree < (toPoly p).degree := by
  unfold red
  rw [if_neg hp]
  exact (polyDivMod_spec a p hp).2

theorem red_lt (p a : Nat) (hp : p ≠ 0) (n : Nat) (hn : p < 2 ^ n) : red p a < 2 ^ n := by
  rw [← bitLen_le_iff] at hn ⊢
  have := (degree_lt_degree_iff _ _).mp (red_degree_lt p a hp)
  omega

/-! ### Extended Euclid -/

/-- The loop of R291 keeps the two cofactor congruences and the common divisors, and ends with a gcd and its cofactor. -/
theorem euclidLoop_spec (n r0 r1 s0 s1 : Nat) (x p : (ZMod 2)[X]) (hn : bitLen r1 < n)
    (h0 : p ∣ toPoly r0 + toPoly s0 * x) (h1 : p ∣ toPoly r1 + toPoly s1 * x) :
    p ∣ toPoly (euclidLoop n r0 r1 s0 s1).1 + toPoly (euclidLoop n r0 r1 s0 s1).2 * x ∧
      ∀ d, d ∣ toPoly (euclidLoop n r0 r1 s0 s1).1 ↔ d ∣ toPoly r0 ∧ d ∣ toPoly r1 := by
  induction n generalizing r0 r1 s0 s1 with
  | zero => omega
  | succ n ih =>
    unfold euclidLoop
    split
    · rename_i hr
      subst hr
      exact ⟨h0, fun d => by simp⟩
    · rename_i hr
      obtain ⟨e1, e2⟩ := polyDivMod_spec r0 r1 hr
      simp only
      generalize polyDivMod r0 r1 = qr at e1 e2 ⊢
      have hlt := (degree_lt_degree_iff _ _).mp e2
      have hc : p ∣ toPoly qr.2 + toPoly (s0 ^^^ clmul qr.1 s1) * x := by
        have e : toPoly qr.2 + toPoly (s0 ^^^ clmul qr.1 s1) * x =
            (toPoly r0 + toPoly s0 * x) + toPoly qr.1 * (toPoly r1 + toPoly s1 * x) := by
          rw [toPoly_xor, toPoly_clmul, ← e1]
          have := poly_add_self (toPoly qr.1 * toPoly r1)
          linear_combination -this
        rw [e]
        exact dvd_add h0 (dvd_mul_of_dvd_right h1 _)
      obtain ⟨i1, i2⟩ := ih r1 qr.2 s1 (s0 ^^^ clmul qr.1 s1) (by omega) h1 hc
      refine ⟨i1, fun d => ?_⟩
      rw [i2 d]
      constructor
      · rintro ⟨d1, d2⟩
        exact ⟨e1 ▸ dvd_add (dvd_mul_of_dvd_right d1 _) d2, d1⟩
      · rintro ⟨d1, d2⟩
        refine ⟨d2, ?_⟩
        rw [← e1] at d1
        exact (dvd_add_right (dvd_mul_of_dvd_right d2 _)).mp d1

/-- The extended Euclid gives a greatest common divisor of p and x, and a cofactor of x modulo p (R291). -/
theorem euclid_spec (p x : Nat) :
    toPoly p ∣ toPoly (euclid p x).1 + toPoly (euclid p x).2 * toPoly x ∧
      ∀ d, d ∣ toPoly (euclid p x).1 ↔ d ∣ toPoly p ∧ d ∣ toPoly x := by
  unfold euclid
  apply euclidLoop_spec (bitLen x + 1) p x 0 1 (toPoly x) (toPoly p) (by omega)
  · simp
  · simp [poly_add_self]

/-- The gcd is 1 exactly for coprime operands (R289). -/
theorem polyGcd_eq_one_iff (x p : Nat) : polyGcd x p = 1 ↔ IsCoprime (toPoly x) (toPoly p) := by
  obtain ⟨h1, h2⟩ := euclid_spec p x
  unfold polyGcd
  constructor
  · intro h
    rw [h, toPoly_one] at h1
    obtain ⟨k, hk⟩ := h1
    refine ⟨toPoly (euclid p x).2, k, ?_⟩
    have := poly_add_self (toPoly (euclid p x).2 * toPoly x)
    linear_combination this - hk
  · intro h
    obtain ⟨hp, hx⟩ := (h2 _).mp dvd_rfl
    have hu : IsUnit (toPoly (euclid p x).1) := h.isUnit_of_dvd' hx hp
    apply (toPoly_eq_one_iff _).mp
    obtain ⟨c, hc, he⟩ := Polynomial.isUnit_iff.mp hu
    rw [← he]
    have one_of_ne : ∀ v : ZMod 2, v ≠ 0 → v = 1 := by decide
    rw [one_of_ne c hc.ne_zero, C_1]

/-- The inverse of R291 is reduced, and its product with x leaves 1 modulo p. -/
theorem polyInv_spec (p x : Nat) (hp : p ≠ 0) (h : polyGcd x p = 1) :
    (toPoly (polyInv p x)).degree < (toPoly p).degree ∧
      toPoly p ∣ toPoly x * toPoly (polyInv p x) + 1 := by
  unfold polyInv
  refine ⟨red_degree_lt p _ hp, ?_⟩
  obtain ⟨h1, _⟩ := euclid_spec p x
  unfold polyGcd at h
  rw [h, toPoly_one] at h1
  rw [toPoly_red p _ hp]
  have hm := EuclideanDomain.mod_add_div (toPoly (euclid p x).2) (toPoly p)
  have e : toPoly x * (toPoly (euclid p x).2 % toPoly p) + 1 =
      (1 + toPoly (euclid p x).2 * toPoly x) - toPoly p * (toPoly x * (toPoly (euclid p x).2 / toPoly p)) := by
    linear_combination toPoly x * hm
  rw [e]
  exact dvd_sub h1 (dvd_mul_right _ _)

/-! ### The GCM multiplication -/

/-- The polynomial a block integer stands for: the x^i coefficient is bit 127 - i (R280). -/
noncomputable def reflPoly (v : BitVec 128) : (ZMod 2)[X] := toPoly (rev128 v).toNat

/-- The GCM polynomial (R280). -/
noncomputable def gcmPoly : (ZMod 2)[X] := X ^ 128 + (X ^ 7 + X ^ 2 + X + 1)

theorem reflPoly_coeff (v : BitVec 128) (i : Nat) : (reflPoly v).coeff i =
    if i < 128 ∧ v.getLsbD (127 - i) = true then 1 else 0 := by
  unfold reflPoly rev128
  rw [toPoly_coeff, BitVec.testBit_toNat, BitVec.getLsbD_reverse]
  by_cases h : i < 128
  · simp only [h, true_and, BitVec.getMsbD, decide_true, Bool.true_and]
  · rw [BitVec.getMsbD_of_ge _ _ (by omega)]
    simp [h]

theorem reflPoly_injective {v w : BitVec 128} (h : reflPoly v = reflPoly w) : v = w := by
  apply BitVec.eq_of_getLsbD_eq
  intro i hi
  have hc := congrArg (fun p : (ZMod 2)[X] => p.coeff (127 - i)) h
  simp only [reflPoly_coeff] at hc
  have e : 127 - (127 - i) = i := by omega
  have hl : 127 - i < 128 := by omega
  rw [e] at hc
  by_cases h1 : v.getLsbD i = true <;> by_cases h2 : w.getLsbD i = true <;> simp_all

theorem reflPoly_xor (v w : BitVec 128) : reflPoly (v ^^^ w) = reflPoly v + reflPoly w := by
  ext i
  simp only [coeff_add, reflPoly_coeff, BitVec.getLsbD_xor]
  by_cases h : i < 128
  · by_cases h1 : v.getLsbD (127 - i) = true <;> by_cases h2 : w.getLsbD (127 - i) = true <;> simp_all
    decide
  · simp [h]

@[simp] theorem reflPoly_zero : reflPoly 0 = 0 := by
  ext i
  simp [reflPoly_coeff]

theorem reflPoly_degree_lt (v : BitVec 128) : (reflPoly v).degree < ((128 : Nat) : WithBot Nat) := by
  rw [degree_lt_iff_coeff_zero]
  intro i hi
  rw [reflPoly_coeff]
  simp [show ¬i < 128 by omega]

theorem reflPoly_one : reflPoly (1#128 <<< 127) = 1 := by
  ext i
  rw [reflPoly_coeff, coeff_one]
  have : (1#128 <<< 127).getLsbD (127 - i) = true ↔ 127 - i = 127 := by
    simp only [BitVec.getLsbD_shiftLeft, BitVec.getLsbD_one]
    by_cases h : i = 0
    · subst h
      decide
    · have h2 : 127 - i < 127 := by omega
      simp only [h2, decide_true, Bool.not_true, Bool.and_false, Bool.false_and, Bool.false_eq_true, false_iff]
      omega
  simp only [this]
  by_cases h : i = 0
  · simp [h]
  · have : ¬(i < 128 ∧ 127 - i = 127) := by omega
    simp [h, this]

theorem reflPoly_gmmR : reflPoly gmmR = X ^ 7 + X ^ 2 + X + 1 := by
  ext i
  rw [reflPoly_coeff]
  simp only [coeff_add, coeff_X_pow, coeff_X, coeff_one]
  by_cases h : i < 128
  · have all : ∀ j : Fin 128, (if j.val < 128 ∧ gmmR.getLsbD (127 - j.val) = true then (1 : ZMod 2) else 0) =
        (if j.val = 7 then 1 else 0) + (if j.val = 2 then 1 else 0) + (if 1 = j.val then 1 else 0) +
          (if j.val = 0 then 1 else 0) := by decide +kernel
    exact all ⟨i, h⟩
  · have h7 : i ≠ 7 := by omega
    have h2 : i ≠ 2 := by omega
    have h1 : 1 ≠ i := by omega
    have h0 : i ≠ 0 := by omega
    simp [h, h7, h2, h1, h0]

theorem X_pow_128 : (X : (ZMod 2)[X]) ^ 128 = gcmPoly + reflPoly gmmR := by
  unfold gcmPoly
  generalize (X : (ZMod 2)[X]) ^ 128 = top
  rw [reflPoly_gmmR, add_assoc, poly_add_self, add_zero]

/-- One round's step of V is multiplication by x, modulo the GCM polynomial (R281). -/
theorem reflPoly_step (v : BitVec 128) : ∃ k : (ZMod 2)[X],
    reflPoly (if v.getLsbD 0 then (v >>> 1) ^^^ gmmR else v >>> 1) = X * reflPoly v + gcmPoly * k := by
  have shift : reflPoly (v >>> 1) = X * reflPoly v + (if v.getLsbD 0 then X ^ 128 else 0) := by
    ext i
    have e : (if v.getLsbD 0 then (X : (ZMod 2)[X]) ^ 128 else 0).coeff i =
        if i = 128 ∧ v.getLsbD 0 = true then 1 else 0 := by
      cases v.getLsbD 0 <;> simp [coeff_X_pow]
    rw [coeff_add, e]
    cases i with
    | zero =>
      rw [reflPoly_coeff, coeff_X_mul_zero]
      simp
    | succ j =>
      rw [coeff_X_mul, reflPoly_coeff, reflPoly_coeff, BitVec.getLsbD_ushiftRight]
      by_cases hj : j + 1 < 128
      · have e1 : 1 + (127 - (j + 1)) = 127 - j := by omega
        have e2 : j < 128 := by omega
        have e3 : ¬(j + 1 = 128) := by omega
        rw [e1]
        simp [hj, e2, e3]
      · by_cases hj2 : j + 1 = 128
        · have : j = 127 := by omega
          subst this
          have e1 : 127 - 127 = 0 := rfl
          rw [e1]
          cases v.getLsbD 0
          · simp
          · simp
            decide
        · have e2 : ¬j < 128 := by omega
          simp [hj, e2, hj2]
  by_cases hb : v.getLsbD 0 = true
  · refine ⟨1, ?_⟩
    rw [if_pos hb, reflPoly_xor, shift, if_pos hb, X_pow_128]
    have := poly_add_self (reflPoly gmmR)
    linear_combination this
  · refine ⟨0, ?_⟩
    rw [if_neg hb, shift, if_neg hb, mul_zero]

/-- The loop of R281 adds the product of V and the bits of X still to come. -/
theorem gmmLoop_spec (n : Nat) (x z v : BitVec 128) : ∃ k : (ZMod 2)[X],
    reflPoly (gmmLoop n x z v) = reflPoly z +
      (∑ i ∈ Finset.range n, if x.getLsbD (n - 1 - i) then X ^ i else 0) * reflPoly v + gcmPoly * k := by
  induction n generalizing z v with
  | zero => exact ⟨0, by simp [gmmLoop]⟩
  | succ n ih =>
    unfold gmmLoop
    obtain ⟨k1, h1⟩ := ih (if x.getLsbD n then z ^^^ v else z) (if v.getLsbD 0 then (v >>> 1) ^^^ gmmR else v >>> 1)
    obtain ⟨k2, h2⟩ := reflPoly_step v
    rw [h2] at h1
    rw [h1, Finset.sum_range_succ']
    have hz : reflPoly (if x.getLsbD n then z ^^^ v else z) =
        reflPoly z + (if x.getLsbD n then X ^ 0 else 0) * reflPoly v := by
      by_cases hb : x.getLsbD n = true
      · rw [if_pos hb, if_pos hb, reflPoly_xor]
        ring
      · rw [if_neg hb, if_neg hb]
        ring
    have hs : (∑ i ∈ Finset.range n, if x.getLsbD (n + 1 - 1 - (i + 1)) then (X : (ZMod 2)[X]) ^ (i + 1) else 0) =
        X * ∑ i ∈ Finset.range n, if x.getLsbD (n - 1 - i) then X ^ i else 0 := by
      rw [Finset.mul_sum]
      apply Finset.sum_congr rfl
      intro i _
      have e : n + 1 - 1 - (i + 1) = n - 1 - i := by omega
      rw [e]
      split
      · ring
      · ring
    rw [hz, hs, show n + 1 - 1 - 0 = n by omega]
    refine ⟨k1 + (∑ i ∈ Finset.range n, if x.getLsbD (n - 1 - i) then X ^ i else 0) * k2, ?_⟩
    ring

theorem degree_top_add (n : Nat) (h : 7 < n) :
    ((X : (ZMod 2)[X]) ^ n + (X ^ 7 + X ^ 2 + X + 1)).degree = (n : WithBot Nat) := by
  have h7 : ((X : (ZMod 2)[X]) ^ 7 + X ^ 2 + X + 1).degree = 7 := by compute_degree!
  have hlt : ((X : (ZMod 2)[X]) ^ 7 + X ^ 2 + X + 1).degree < ((X : (ZMod 2)[X]) ^ n).degree := by
    rw [h7, degree_X_pow]
    exact_mod_cast h
  exact (degree_add_eq_left_of_degree_lt hlt).trans (degree_X_pow n)

theorem gcmPoly_degree : gcmPoly.degree = ((128 : Nat) : WithBot Nat) := by
  unfold gcmPoly
  exact degree_top_add 128 (by norm_num)

theorem reflPoly_eq_sum (x : BitVec 128) : reflPoly x =
    ∑ i ∈ Finset.range 128, if x.getLsbD (128 - 1 - i) then X ^ i else 0 := by
  ext i
  rw [finsetSum_coeff, reflPoly_coeff]
  have h1 : ∀ j ∈ Finset.range 128, (if x.getLsbD (128 - 1 - j) then (X : (ZMod 2)[X]) ^ j else 0).coeff i =
      if i = j then (if x.getLsbD (127 - i) then 1 else 0) else 0 := by
    intro j _
    by_cases hij : i = j
    · subst hij
      by_cases hb : x.getLsbD (127 - i) <;> simp [hb]
    · by_cases hb : x.getLsbD (128 - 1 - j) <;> simp [hb, hij, coeff_X_pow]
  rw [Finset.sum_congr rfl h1, Finset.sum_ite_eq]
  by_cases hi : i < 128 <;> simp [hi]

/-- gmm is the product modulo the GCM polynomial, in the reflected reading (R280, R281). -/
theorem reflPoly_gmm (x y : BitVec 128) : reflPoly (gmm x y) = (reflPoly x * reflPoly y) % gcmPoly := by
  obtain ⟨k, h⟩ := gmmLoop_spec 128 x 0 y
  rw [← reflPoly_eq_sum, reflPoly_zero] at h
  unfold gmm
  have hk : -k * gcmPoly + reflPoly (gmmLoop 128 x 0 y) = reflPoly x * reflPoly y := by linear_combination h
  refine (mod_eq_of_degree_lt hk ?_).symm
  · rw [gcmPoly_degree]
    exact reflPoly_degree_lt _

end Sys2Proof.Machine
end

