-- ==== Sys2Proof/Laws/Step.lean ====
section
/-! SUPPORT. What a command and a step can do, said once: exec as a rule and its completion, the cases of a step, of an
event and of a host write. -/

namespace Sys2Proof.Machine

/-- The rule of each command, whose completion is its meaning. -/
def ruleOf (i : Instr) (s : State) : Run :=
  match i with
  | .nop => succeed { s with status := { s.status with ovr := false } }
  | .reset => succeed (clearActions (releaseKeyAndIvs s))
  | .clear => succeed (clearActions s)
  | .setkey imm ktype => setkeyRule imm ktype s
  | .setmode imm => setmodeRule imm s
  | .setpad imm => setpadRule imm s
  | .waist => succeed { s with results :=
      { s.results with wout := BitVec.ofNat 64 (outputSize s.bsz s.modes.pad s.host.win.toNat) } }
  | .chnSetiv imm => chnSetivRule imm s
  | .chnEnc imm nc => chnDataRule .enc imm nc (clearOut s)
  | .chnDec imm nc => chnDataRule .dec imm nc (clearOut s)
  | .chnFine => chnFineRule (clearOut s)
  | .chnFind => chnFindRule (clearOut s)
  | .gfMod => succeed (setGr (red (pPoly s) (gaPoly s)) s)
  | .gfAdd => succeed (setGr (gfAddValue s.params.zeroArith (pPoly s) (gaPoly s) (gbPoly s)) s)
  | .gfMul => succeed (setGr (gfMulValue s.params.zeroArith (pPoly s) (gaPoly s) (gbPoly s)) s)
  | .gfInv => gfInvRule s
  | .gfDiv => gfDivRule s
  | .gfGmm => succeed (setGr (gmm (gaLow s) (gbLow s)).toNat s)
  | .gcmSetiv imm => gcmSetivRule imm s
  | .gcmSettaglen imm => gcmSettaglenRule imm s
  | .gcmAad imm => gcmAadRule imm (clearOut s)
  | .gcmEnc imm => gcmDataRule .enc imm (clearOut s)
  | .gcmDec imm => gcmDataRule .dec imm (clearOut s)
  | .gcmFine => gcmFineRule (clearOut s)
  | .gcmFind => gcmFindRule (clearOut s)

theorem exec_eq_complete (i : Instr) (s : State) : exec i s = complete (ruleOf i s) := by
  cases i <;> rfl

/-- A command always answers a next state: its rule's, with the status written. -/
theorem exec_next_iff (i : Instr) (s t : State) : exec i s = .next t ↔
    t = { (ruleOf i s).state with status := (ruleOf i s).state.status.complete (ruleOf i s).error } := by
  rw [exec_eq_complete, complete_inj]

/-- Every command completes. -/
theorem exec_completes (i : Instr) (s : State) : ∃ t, exec i s = .next t := ⟨_, exec_eq_complete i s⟩

/-- The engine step is a command's, or the completion with IllegalCommand of a word that does not decode. -/
theorem engineStep_cases {s t : State} (h : engineStep s = .next t) :
    (∃ i, decode s.pend = .ok i ∧ exec i s = .next t) ∨
    (∃ e, decode s.pend = .error e ∧ t = { s with status := s.status.complete (some (illegalCommand e)) }) := by
  unfold engineStep at h
  split at h
  · rename_i i hi
    exact .inl ⟨i, hi, h⟩
  · rename_i e he
    exact .inr ⟨e, he, (complete_inj _ _).mp h⟩

/-- A step is the engine's, the oldest event, or nothing at all. -/
theorem step_cases {s t : State} (h : step s = .next t) :
    (engineMoves s = true ∧ ∃ i, decode s.pend = .ok i ∧ exec i s = .next t) ∨
    (engineMoves s = true ∧ ∃ e, decode s.pend = .error e ∧
      t = { s with status := s.status.complete (some (illegalCommand e)) }) ∨
    (engineMoves s = false ∧ s.env.inputs = [] ∧ t = s) ∨
    (engineMoves s = false ∧ ∃ i rest, s.env.inputs = i :: rest ∧
      applyEvent i.event { s with env := { s.env with inputs := rest } } = .next t) := by
  unfold step at h
  by_cases he : engineMoves s = true
  · rw [if_pos he] at h
    rcases engineStep_cases h with h | h
    · exact .inl ⟨he, h⟩
    · exact .inr (.inl ⟨he, h⟩)
  · have he' : engineMoves s = false := by simpa using he
    rw [if_neg he] at h
    unfold hostStep at h
    split at h
    · rename_i hin
      exact .inr (.inr (.inl ⟨he', hin, (Host.Outcome.next.inj h).symm⟩))
    · rename_i i rest hin
      exact .inr (.inr (.inr ⟨he', i, rest, hin, h⟩))

/-- A host write changes nothing, sets OVR, starts a command, or writes the host's registers. -/
theorem writeWord_cases (s : State) (off : Nat) (v : Word) :
    writeWord s off v = s ∨
    writeWord s off v = { s with status := { s.status with ovr := true } } ∨
    writeWord s off v = { s with pend := v, status := { s.status with busy := true } } ∨
    ∃ r, writeWord s off v = { s with host := r } := by
  unfold writeWord
  split
  · exact .inl rfl
  · rename_i row _
    split
    · exact .inl rfl
    · split
      · exact .inr (.inl rfl)
      · cases row.reg
        case cmd => exact .inr (.inr (.inl rfl))
        case win => exact .inr (.inr (.inr ⟨{ s.host with win := v }, rfl⟩))
        case din => exact .inr (.inr (.inr ⟨{ s.host with din := setArrayWord s.host.din _ v }, rfl⟩))
        case tagin => exact .inr (.inr (.inr ⟨{ s.host with tagin := setArrayWord s.host.tagin _ v }, rfl⟩))
        case keybuf => exact .inr (.inr (.inr ⟨{ s.host with keybuf := setArrayWord s.host.keybuf _ v }, rfl⟩))
        case ivin => exact .inr (.inr (.inr ⟨{ s.host with ivin := setArrayWord s.host.ivin _ v }, rfl⟩))
        case ga => exact .inr (.inr (.inr ⟨{ s.host with ga := setIntWord s.host.ga _ v }, rfl⟩))
        case gb => exact .inr (.inr (.inr ⟨{ s.host with gb := setIntWord s.host.gb _ v }, rfl⟩))
        case p => exact .inr (.inr (.inr ⟨{ s.host with p := setIntWord s.host.p _ v }, rfl⟩))
        all_goals exact .inl rfl

/-- An event leaves a read's answer, a host write, or the reset input's new level. -/
theorem applyEvent_cases {e : Event} {s t : State} (h : applyEvent e s = .next t) :
    (∃ w c, t = { s with env := { s.env with rdata := w, freeCtr := c } }) ∨ t = s ∨
    (∃ off v, t = writeWord s off v) ∨ (∃ b, e = .resetLine b ∧ t = driveReset b s) := by
  unfold applyEvent at h
  split at h
  · split at h
    · cases h
    · split at h
      · cases h
      · split at h
        · exact .inl ⟨_, _, (Host.Outcome.next.inj h).symm⟩
        · exact .inl ⟨_, _, (Host.Outcome.next.inj h).symm⟩
  · split at h
    · cases h
    · split at h
      · cases h
      · split at h
        · exact .inr (.inl (Host.Outcome.next.inj h).symm)
        · exact .inr (.inr (.inl ⟨_, _, (Host.Outcome.next.inj h).symm⟩))
  · exact .inr (.inr (.inr ⟨_, rfl, (Host.Outcome.next.inj h).symm⟩))

/-- What a host step can do to a state: the env changes; beside it, the status, PEND and the host's registers may, as a
host write says, or everything goes to its reset value. -/
theorem hostEvent_cases {e : Event} {s t : State} (h : applyEvent e s = .next t) :
    (∃ env, t = { s with env := env }) ∨
    (t = { s with status := { s.status with ovr := true } }) ∨
    (∃ v, t = { s with pend := v, status := { s.status with busy := true } }) ∨
    (∃ r, t = { s with host := r }) ∨
    (e = .resetLine true ∧ t = { State.resetWith s.params with env := { s.env with inReset := true } }) := by
  rcases applyEvent_cases h with ⟨w, c, rfl⟩ | rfl | ⟨off, v, rfl⟩ | ⟨b, rfl, rfl⟩
  · exact .inl ⟨_, rfl⟩
  · exact .inl ⟨_, rfl⟩
  · rcases writeWord_cases s off v with h | h | h | ⟨r, h⟩
    · exact .inl ⟨s.env, h⟩
    · exact .inr (.inl h)
    · exact .inr (.inr (.inl ⟨v, h⟩))
    · exact .inr (.inr (.inr (.inl ⟨r, h⟩)))
  · cases b
    · exact .inl ⟨_, rfl⟩
    · exact .inr (.inr (.inr (.inr ⟨rfl, rfl⟩)))

end Sys2Proof.Machine
end

