-- ==== Sys2Proof/Laws/Transform.lean ====
section
/-! SUPPORT. The law of the block transform (00_scope.md R9) for the attached transform and for the test transform. -/

namespace Sys2Proof.Machine

/-- The attached transform is a permutation of blocks, so it meets the law. -/
theorem attached_lawful (n : Nat) : Lawful .attached n := by
  intro ks b hb
  have h : fill n (fill n b).toList = fill n b := by
    rw [fill_toList_eq n b hb]
  have e : ∀ v : Vector Byte n, fill n v.toList = v := by
    intro v
    ext i hi
    simp [List.getD_eq_getElem?_getD, hi]
  simp only [btEnc, btDec, e, Equiv.symm_apply_apply]
  exact fill_toList_eq n b hb

/-- The test transform meets the law: rotating right undoes rotating left. -/
theorem toy_lawful (n : Nat) : Lawful .toy n := by
  intro ks b hb
  simp only [btEnc, btDec]
  apply List.ext_getElem
  · simp [toyDec, hb]
  · intro i h1 h2
    have hi : i < n := by simpa [toyDec] using h1
    have hj : (i + n - 1) % n < n := Nat.mod_lt _ (by omega)
    have hk : ((i + n - 1) % n + 1) % n = i := by
      rcases Nat.eq_zero_or_pos i with h0 | h0
      · subst h0
        rw [show 0 + n - 1 = n - 1 by omega, Nat.mod_eq_of_lt (by omega : n - 1 < n), show n - 1 + 1 = n by omega,
          Nat.mod_self]
      · rw [show i + n - 1 = (i - 1) + n by omega, Nat.add_mod_right, Nat.mod_eq_of_lt (by omega : i - 1 < n),
          show i - 1 + 1 = i by omega, Nat.mod_eq_of_lt hi]
    simp only [toyDec, toyEnc, List.getElem_map, List.getElem_range, List.getD_eq_getElem?_getD, List.getElem?_map,
      List.getElem?_range hj, Option.map_some, Option.getD_some, hk, BitVec.xor_assoc, BitVec.xor_self, BitVec.xor_zero]
    simp [List.getElem?_eq_getElem h2]

end Sys2Proof.Machine
end

