-- ==== Sys2Proof/Laws/Window.lean ====
section
/-! SUPPORT. The register window: the words of byte arrays and of integers after a write, and the row an offset falls in. -/

namespace Sys2Proof.Machine

/-! ### Byte arrays -/

theorem laneOf_append (v : Word) : laneOf v 3 ++ laneOf v 2 ++ laneOf v 1 ++ laneOf v 0 = v := by
  apply BitVec.eq_of_getLsbD_eq
  intro i hi
  simp only [laneOf, BitVec.getLsbD_append, BitVec.getLsbD_extractLsb']
  by_cases h0 : i < 8
  · simp [h0]
  · by_cases h1 : i < 16
    · have e1 : i - 8 < 8 := by omega
      have e2 : 8 * 1 + (i - 8) = i := by omega
      simp [h0, e1]
      congr 1
    · by_cases h2 : i < 24
      · have e1 : ¬i - 8 < 8 := by omega
        have e2 : i - 8 - 8 < 8 := by omega
        simp [h0, e1, e2]
        congr 1
        omega
      · have e1 : ¬i - 8 < 8 := by omega
        have e2 : ¬i - 8 - 8 < 8 := by omega
        have e3 : i - 8 - 8 - 8 < 8 := by omega
        simp [h0, e1, e2, e3]
        congr 1
        omega

theorem setArrayWord_getD {n : Nat} (r : Vector Byte n) (k i : Nat) (v : Word) (h : i < n) :
    (setArrayWord r k v).toList.getD i 0 = if i / 4 = k then laneOf v (i % 4) else r.toList.getD i 0 := by
  simp [setArrayWord, List.getD_eq_getElem?_getD, h]

/-- A written word reads back (R87). -/
theorem arrayWord_setArrayWord_self {n : Nat} (r : Vector Byte n) (k : Nat) (v : Word) (h : 4 * k + 3 < n) :
    arrayWord (setArrayWord r k v) k = v := by
  unfold arrayWord
  simp only
  rw [setArrayWord_getD r k _ v (by omega), setArrayWord_getD r k _ v (by omega), setArrayWord_getD r k _ v (by omega),
    setArrayWord_getD r k _ v (by omega), if_pos (by omega), if_pos (by omega), if_pos (by omega), if_pos (by omega),
    show (4 * k + 3) % 4 = 3 by omega, show (4 * k + 2) % 4 = 2 by omega, show (4 * k + 1) % 4 = 1 by omega,
    show (4 * k + 0) % 4 = 0 by omega]
  exact laneOf_append v

/-- A write leaves the other words (R87). -/
theorem arrayWord_setArrayWord_of_ne {n : Nat} (r : Vector Byte n) (j k : Nat) (v : Word) (h : 4 * j + 3 < n)
    (hne : j ≠ k) : arrayWord (setArrayWord r k v) j = arrayWord r j := by
  unfold arrayWord
  simp only
  rw [setArrayWord_getD r k _ v (by omega), setArrayWord_getD r k _ v (by omega), setArrayWord_getD r k _ v (by omega),
    setArrayWord_getD r k _ v (by omega), if_neg (by omega), if_neg (by omega), if_neg (by omega), if_neg (by omega)]

/-- The bytes of a word, by lane (R87). -/
theorem extractLsb'_append_lanes (a b c d : Byte) (j : Nat) (hj : j < 4) : (a ++ b ++ c ++ d).extractLsb' (8 * j) 8 =
    if j = 0 then d else if j = 1 then c else if j = 2 then b else a := by
  apply BitVec.eq_of_getLsbD_eq
  intro t ht
  rw [BitVec.getLsbD_extractLsb']
  simp only [BitVec.getLsbD_append]
  obtain rfl | rfl | rfl | rfl : j = 0 ∨ j = 1 ∨ j = 2 ∨ j = 3 := by omega
  · simp [ht]
  · simp [ht, show ¬8 + t < 8 by omega]
  · simp [ht, show ¬16 + t < 8 by omega, show ¬16 + t - 8 < 8 by omega, show 16 + t - 8 - 8 = t by omega]
  · simp [ht, show ¬24 + t < 8 by omega, show ¬24 + t - 8 < 8 by omega, show ¬24 + t - 8 - 8 < 8 by omega,
      show 24 + t - 8 - 8 - 8 = t by omega]

/-- A written array, byte by byte (R87). -/
theorem setArrayWord_getElem {n : Nat} (r : Vector Byte n) (k : Nat) (v : Word) (i : Fin n) :
    (setArrayWord r k v)[i] = if i.val / 4 = k then v.extractLsb' (8 * (i.val % 4)) 8 else r[i] := by
  have := setArrayWord_getD r k i.val v i.isLt
  simp only [List.getD_eq_getElem?_getD] at this
  simpa [laneOf] using this

/-- A read word, byte by byte (R87). -/
theorem extractLsb'_arrayWord {n : Nat} (r : Vector Byte n) (i : Fin n) :
    (arrayWord r (i.val / 4)).extractLsb' (8 * (i.val % 4)) 8 = r[i] := by
  have hget : ∀ x, x = i.val → r.toList.getD x 0 = r[i] := by
    rintro x rfl
    simp [List.getD_eq_getElem?_getD]
  unfold arrayWord
  simp only
  rw [extractLsb'_append_lanes _ _ _ _ _ (by omega)]
  split
  · exact hget _ (by omega)
  · split
    · exact hget _ (by omega)
    · split
      · exact hget _ (by omega)
      · exact hget _ (by omega)

/-! ### Integers -/

/-- A read word, bit by bit (R88). -/
theorem getLsbD_intWord {n : Nat} (r : BitVec n) (b : Nat) : (intWord r (b / 32)).getLsbD (b % 32) = r.getLsbD b := by
  unfold intWord
  rw [BitVec.getLsbD_extractLsb']
  simp [show b % 32 < 32 by omega, Nat.div_add_mod]

theorem getLsbD_setIntWord {n : Nat} (r : BitVec n) (k b : Nat) (v : Word) (h : b < n) :
    (setIntWord r k v).getLsbD b =
      if 32 * k ≤ b ∧ b < 32 * k + 32 then v.getLsbD (b - 32 * k) else r.getLsbD b := by
  unfold setIntWord
  simp only [BitVec.getLsbD_or, BitVec.getLsbD_and, BitVec.getLsbD_not, BitVec.getLsbD_shiftLeft, BitVec.getLsbD_setWidth, h,
    decide_true, Bool.true_and]
  have hall : (0xFFFFFFFF#32) = BitVec.allOnes 32 := by decide
  rw [hall, BitVec.getLsbD_allOnes]
  by_cases h1 : 32 * k ≤ b
  · have h1' : ¬b < 32 * k := by omega
    have h2 : b - 32 * k < n := by omega
    by_cases h3 : b < 32 * k + 32
    · have h4 : b - 32 * k < 32 := by omega
      simp [h1, h1', h2, h3, h4]
    · have h4 : ¬b - 32 * k < 32 := by omega
      simp [h1', h3, h4, BitVec.getLsbD_of_ge v (b - 32 * k) (by omega)]
  · have h1' : b < 32 * k := by omega
    simp [h1, h1']

/-- A written word reads back (R88). -/
theorem intWord_setIntWord_self {n : Nat} (r : BitVec n) (k : Nat) (v : Word) (h : 32 * k + 32 ≤ n) :
    intWord (setIntWord r k v) k = v := by
  apply BitVec.eq_of_getLsbD_eq
  intro i hi
  unfold intWord
  rw [BitVec.getLsbD_extractLsb', getLsbD_setIntWord _ _ _ _ (by omega), if_pos (by omega),
    show 32 * k + i - 32 * k = i by omega]
  simp [hi]

/-- A write leaves the other words (R88). -/
theorem intWord_setIntWord_of_ne {n : Nat} (r : BitVec n) (j k : Nat) (v : Word) (h : 32 * j + 32 ≤ n) (hne : j ≠ k) :
    intWord (setIntWord r k v) j = intWord r j := by
  apply BitVec.eq_of_getLsbD_eq
  intro i hi
  unfold intWord
  rw [BitVec.getLsbD_extractLsb', BitVec.getLsbD_extractLsb', getLsbD_setIntWord _ _ _ _ (by omega), if_neg (by omega)]

/-! ### The map -/

/-- The row of an offset, chosen by comparing bounds. -/
def rowByBounds (off : Nat) : Option MapRow :=
  if off = 0x000 then some ⟨0x000, 4, .id, .ro⟩ else if off = 0x004 then some ⟨0x004, 4, .cmd, .wo⟩
  else if off = 0x008 then some ⟨0x008, 4, .status, .ro⟩ else if off = 0x00C then some ⟨0x00C, 4, .cfg, .ro⟩
  else if off = 0x010 then some ⟨0x010, 4, .state, .ro⟩ else if off = 0x014 then some ⟨0x014, 4, .win, .rw⟩
  else if off = 0x018 then some ⟨0x018, 4, .woutLo, .ro⟩ else if off = 0x01C then some ⟨0x01C, 4, .woutHi, .ro⟩
  else if off < 0x030 then some ⟨0x020, 16, .din, .rw⟩ else if off < 0x040 then some ⟨0x030, 16, .dout, .ro⟩
  else if off < 0x050 then some ⟨0x040, 16, .tagin, .rw⟩ else if off < 0x060 then some ⟨0x050, 16, .tag, .ro⟩
  else if off < 0x080 then some ⟨0x060, 32, .keybuf, .wo⟩ else if off < 0x0C0 then some ⟨0x080, 64, .ivin, .rw⟩
  else if off < 0x0E0 then some ⟨0x0C0, 32, .ga, .rw⟩ else if off < 0x100 then some ⟨0x0E0, 32, .gb, .rw⟩
  else if off < 0x120 then some ⟨0x100, 32, .gr, .ro⟩ else if off < 0x140 then some ⟨0x120, 32, .p, .rw⟩ else none

/-- The map gives the row of an aligned offset of the window (R81). -/
theorem rowAt_eq (off : Nat) (h : off < 0x400) (h4 : off % 4 = 0) : rowAt off = rowByBounds off := by
  have all : ∀ k : Fin 256, rowAt (4 * k.val) = rowByBounds (4 * k.val) := by decide +kernel
  have := all ⟨off / 4, by omega⟩
  rwa [show 4 * (⟨off / 4, by omega⟩ : Fin 256).val = off by simp; omega] at this

/-- A host write with BUSY = 0 at an offset of a register that is not read-only. -/
theorem writeWord_of_row (s : State) (off : Nat) (v : Word) (r : MapRow) (hb : s.status.busy = false) (h : off < 0x400)
    (h4 : off % 4 = 0) (hr : rowByBounds off = some r) (ha : r.access ≠ .ro) :
    writeWord s off v = writeReg s r.reg ((off - r.offset) / 4) v := by
  unfold writeWord
  rw [rowAt_eq off h h4, hr]
  simp [ha, hb]

/-- A host read with BUSY = 0 at an offset of a register. -/
theorem idleReadWord_of_row (s : State) (off : Nat) (r : MapRow) (h : off < 0x400) (h4 : off % 4 = 0)
    (hr : rowByBounds off = some r) : idleReadWord s off = readReg s r.reg ((off - r.offset) / 4) := by
  unfold idleReadWord
  rw [rowAt_eq off h h4, hr]

/-- An access the block supports passes both checks of a host step (R80, R84). -/
theorem access_ok (s : State) (off : Nat) (h : off < 0x400) (h4 : off % 4 = 0) :
    inWindow s (s.params.base + off) = true ∧ supported s (s.params.base + off) 4 = true := by
  simp [inWindow, windowSize, supported]
  omega

end Sys2Proof.Machine
end

