-- ==== Sys2Proof/Tests/Slice0.lean ====
section
/-! SUPPORT. Tests, each of one decode or one step, with expected values from spec/95_test_vectors.md (V and P numbers) or
from the rules named, and witnesses that the hypotheses of the statements can be met. -/

namespace Sys2Proof.Tests

set_option Elab.async false

open Sys2Proof Sys2Proof.Machine

/-! ## Helpers -/

/-- A reset state of an instance with the given block size, transform and meaning of P = 0, at a base that is not 0. -/
def fresh (bs : BlockSize) (bt : Transform) (za : ZeroArith) : State :=
  State.resetWith { base := 0x40000000, bs := bs, zeroArith := za, bt := bt }

/-- The key KT of 95_test_vectors.md section 0. -/
def kt : Bytes := beBytes 16 0x000102030405060708090a0b0c0d0e0f

/-- The 16-byte block of a hexadecimal number. -/
def blk (n : Nat) : Block := fill 16 (beBytes 16 n)

/-- A state with a key bound. -/
def keyedWith (k : Bytes) (s : State) : State :=
  { s with key := { key := fill 32 k, klen := k.length, ks := some (btSetkey s.params.bt s.params.bs.bytes k), keyed := true } }

/-- TOY16 keyed with KT, in a mode and a padding. -/
def toy16 (m : Mode) (p : PadMode) : State :=
  let s := keyedWith kt (fresh .sixteen .toy .carryless)
  { s with modes := { s.modes with mode := m, pad := p } }

/-- TOY8 keyed with the first half of KT, in CBC with PKCS7 (V2.3.8). -/
def toy8 : State :=
  let s := keyedWith (kt.take 8) (fresh .eight .toy .carryless)
  { s with modes := { s.modes with mode := .cbc, pad := .pkcs7 } }

/-- The state with a number in DIN, as 16 bytes. -/
def withDin (n : Nat) (s : State) : State := { s with host := { s.host with din := blk n } }

/-- The state with CIV and CHAIN set. -/
def withChain (n : Nat) (s : State) : State := { s with chn := { s.chn with civ := blk n, chain := blk n } }

/-- The state with an open stream and buffered bytes. -/
def withBuffer (ph : ChainPhase) (b : Bytes) (s : State) : State :=
  { s with chn := { s.chn with ibuf := fill 16 b, iblen := b.length, cph := ph } }

/-- AES keyed with a 16-byte key. -/
def aes16 (k : Nat) : State := keyedWith (beBytes 16 k) (fresh .sixteen .aes .carryless)

/-- The start of V2.5: AES with key 0 and the 12-byte IV 0. -/
def gcm0 : State :=
  let s := aes16 0
  { s with gcm := { s.gcm with givlen := 12, givset := true } }

/-- The session state of `gcm0` after preset (H and J0 of V1.1). -/
def gcmOpen (ph : GcmPhase) (d : GcmDir) : State :=
  { gcm0 with
    gcm := { gcm0.gcm with h := blk 0x66e94bd4ef8a2c3b884cfa59ca342b2e, j0 := blk 1, cb := blk 1, gph := ph, gdir := d } }

/-- The operands of the Galois field unit. -/
def field (za : ZeroArith) (p a b : Nat) : State :=
  let s := fresh .sixteen .toy za
  { s with host := { s.host with p := BitVec.ofNat 256 p, ga := BitVec.ofNat 256 a, gb := BitVec.ofNat 256 b } }

/-- A value of the state after a command. -/
def after {α : Type} (i : Instr) (s : State) (f : State → α) : Option α :=
  match exec i s with
  | .next t => some (f t)
  | .fault _ => none
  | .refused _ => none

/-- DOUT as a number, with OUTLEN. -/
def output (s : State) : Nat × Nat := (beNat s.results.dout.toList, s.status.outlen)

/-- ECODE and EDET as numbers. -/
def code (s : State) : Nat × Nat := (s.status.ecode.toNat, s.status.edet.toNat)

/-! ## Well-formedness: the terms each check refuses -/

theorem test_wf_refuses_wide_imm : [Instr.setkey 256 0, .setmode 256, .setpad 256, .chnSetiv 256, .chnEnc 256 false,
    .chnDec 256 true, .gcmSetiv 256, .gcmSettaglen 256, .gcmAad 256, .gcmEnc 256, .gcmDec 256].all
      (fun i => i.wf == false) = true := by decide

theorem test_wf_refuses_wide_ktype : (Instr.setkey 16 16).wf = false := by decide

theorem test_wf_accepts_the_widest : (Instr.setkey 255 15).wf = true ∧ (Instr.chnEnc 255 true).wf = true := by decide

/-! ## Decoding: every command's word, written out bit by bit from 30_encoding.md R121, R122 and R126 -/

theorem test_decode_front_end :
    decode 0b00000000000000000000000000000000#32 = .ok .nop ∧
    decode 0b00000000000000000000000000000001#32 = .ok .reset ∧
    decode 0b00000000000000000000000000000010#32 = .ok .clear ∧
    decode 0b00000000000011010001100000000011#32 = .ok (.setkey 24 13) ∧
    decode 0b00000000000000001000001000000100#32 = .ok (.setmode 130) ∧
    decode 0b00000000000000000000001100000101#32 = .ok (.setpad 3) ∧
    decode 0b00000000000000000000000000000110#32 = .ok .waist := by decide

theorem test_decode_chaining :
    decode 0b00000000000000000000100000010000#32 = .ok (.chnSetiv 8) ∧
    decode 0b00000000000000010001000000010001#32 = .ok (.chnEnc 16 true) ∧
    decode 0b00000000000000000001000000010001#32 = .ok (.chnEnc 16 false) ∧
    decode 0b00000000000000010000010000010010#32 = .ok (.chnDec 4 true) ∧
    decode 0b00000000000000000000010000010010#32 = .ok (.chnDec 4 false) ∧
    decode 0b00000000000000000000000000010011#32 = .ok .chnFine ∧
    decode 0b00000000000000000000000000010100#32 = .ok .chnFind := by decide

theorem test_decode_galois :
    decode 0b00000000000000000000000000100000#32 = .ok .gfMod ∧
    decode 0b00000000000000000000000000100001#32 = .ok .gfAdd ∧
    decode 0b00000000000000000000000000100010#32 = .ok .gfMul ∧
    decode 0b00000000000000000000000000100011#32 = .ok .gfInv ∧
    decode 0b00000000000000000000000000100100#32 = .ok .gfDiv ∧
    decode 0b00000000000000000000000000100101#32 = .ok .gfGmm := by decide

theorem test_decode_gcm :
    decode 0b00000000000000000000110000110000#32 = .ok (.gcmSetiv 12) ∧
    decode 0b00000000000000000001000000110001#32 = .ok (.gcmSettaglen 16) ∧
    decode 0b00000000000000000001000000110010#32 = .ok (.gcmAad 16) ∧
    decode 0b00000000000000000000000100110011#32 = .ok (.gcmEnc 1) ∧
    decode 0b00000000000000001111111100110100#32 = .ok (.gcmDec 255) ∧
    decode 0b00000000000000000000000000110101#32 = .ok .gcmFine ∧
    decode 0b00000000000000000000000000110110#32 = .ok .gcmFind := by decide

/-- V2.2.1. -/
theorem test_decode_refuses : decode 0x00000107#32 = .error .badOpcode ∧ decode 0x000000FF#32 = .error .badOpcode ∧
    decode 0x00000113#32 = .error .reservedBits ∧ decode 0x00021011#32 = .error .reservedBits ∧
    decode 0x00100003#32 = .error .reservedBits ∧ decode 0x00010004#32 = .error .reservedBits ∧
    decode 0x80000000#32 = .error .reservedBits ∧ decode 0x00000100#32 = .error .reservedBits := by decide

theorem test_table_word : decodeTableWord 32 0x00011011 = some (.chnEnc 16 true) ∧ decodeTableWord 32 0x107 = none := by
  decide

/-! ## Reset, the window and the cycle -/

/-- V2.1.1. -/
theorem test_reset_words : readWord State.reset 0x000 = 0x47460001#32 ∧ readWord State.reset 0x008 = 0#32 ∧
    readWord State.reset 0x00C = 0x00101000#32 ∧ readWord State.reset 0x010 = 0#32 := by decide +kernel

/-- V2.5: GPH = DATA, GDIR = ENC, GIVLEN = 12 (P3). -/
theorem test_state_word : readWord (gcmOpen .data .enc) 0x010 = 0x00312000#32 := by decide +kernel

/-- P3: KEYED, GIVSET, KLEN 16. -/
theorem test_cfg_word : readWord gcm0 0x00C = 0x43101000#32 := by decide +kernel

/-- R90: DIN word 0 = 0x33221100 means DIN[0] = 0x00 to DIN[3] = 0x33; P2's second word. -/
theorem test_byte_lanes :
    (writeWord State.reset 0x020 0x33221100#32).host.din = blk 0x00112233000000000000000000000000 ∧
    (writeWord State.reset 0x024 0x48474645#32).host.din = blk 0x00000000454647480000000000000000 := by decide +kernel

/-- R88: the lowest offset holds the least significant word. -/
theorem test_word_order : (writeWord State.reset 0x0C0 0x53#32).host.ga = 0x53#256 ∧
    (writeWord State.reset 0x13C 1#32).host.p = BitVec.ofNat 256 (2 ^ 224) := by decide +kernel

/-- V2.6.2: a write that comes while BUSY = 1 is dropped and sets OVR; one that comes after is stored. -/
def racing (early : Bool) : State :=
  let s := acceptWord 0x00000022#32 (field .carryless 0x11B 0x57 0x83)
  { s with env := { s.env with inputs := [{ early := early, event := .write 0x400000C0 4 2#32 }] } }

/-- A value of the state after one step. -/
def afterStep {α : Type} (s : State) (f : State → α) : Option α :=
  match step s with
  | .next t => some (f t)
  | .fault _ => none
  | .refused _ => none

theorem test_busy_write_dropped :
    afterStep (racing true) (fun t => (t.host.ga.toNat, t.status.ovr, t.status.busy)) = some (0x57, true, true) := by
  decide +kernel

theorem test_engine_first :
    afterStep (racing false) (fun t => (t.results.gr.toNat, t.status.ovr, t.status.busy)) = some (0xC1, false, false) := by
  decide +kernel

/-- The step from reset with a word in the fetch place runs it: GF.INV with P = 0 fails with (5, 1). -/
theorem test_fetch_word : afterStep (State.reset.withFetchWord 32 0x23) code = some (5, 1) := by decide +kernel

/-- V2.2.1: a word that does not decode leaves DOUT and OUTLEN. -/
theorem test_illegal_word :
    afterStep ((out kt State.reset).withFetchWord 32 0x00021011) (fun t => (code t, output t)) =
      some ((7, 2), (0x000102030405060708090a0b0c0d0e0f, 16)) := by decide +kernel

/-- R131, R132, R133: the assembler and the expansion of a host write. -/
theorem test_assembler : assemble "chn.enc.nc 0x10" = some (.chnEnc 16 true) ∧
    assemble "setkey 32, sym" = some (.setkey 32 0) ∧ assemble "setmode 9x" = none := by decide +kernel

/-! ## One step of each command -/

/-- V2.1.6: OVR = 1, then NOP. -/
theorem test_nop : after .nop { gcm0 with status := { gcm0.status with ovr := true } } (fun t => (statusWord t, code t)) =
    some (0#32, (0, 0)) := by decide +kernel

/-- V2.1.6: RESET clears the key and CIV and keeps MODE. -/
theorem test_reset : after .reset (withBuffer .enc [1] (withChain 7 (toy16 .cbc .none)))
    (fun t => (cfgWord t, stateWord t, beNat t.chn.civ.toList + beNat t.chn.chain.toList)) =
      some (0x00101001#32, 0#32, 0) := by decide +kernel

/-- V2.1.6: CLEAR takes CHAIN from CIV and keeps the key. -/
theorem test_clear :
    after .clear (setChain kt (withBuffer .enc [1] (withChain 7 (toy16 .cbc .none))))
      (fun t => (cfgWord t, stateWord t, beNat t.chn.chain.toList)) = some (0x41101001#32, 0#32, 7) := by decide +kernel

/-- A keyless state with KT in KEYBUF (V2.1.2). -/
def withKeybuf (bt : Transform) : State :=
  let s := fresh .sixteen bt .carryless
  { s with host := { s.host with keybuf := fill 32 kt } }

/-- V2.1.2. -/
theorem test_setkey : after (.setkey 16 0) (withKeybuf .toy) (fun t => (cfgWord t, code t)) = some (0x41101000#32, (0, 0)) ∧
    after (.setkey 24 0) (withKeybuf .aes) (fun t => (cfgWord t, code t)) = some (0x61101000#32, (0, 0)) := by
  decide +kernel

/-- V2.1.2: the order of the checks. -/
theorem test_setkey_errors : after (.setkey 0 1) (withKeybuf .toy) code = some (1, 3) ∧
    after (.setkey 0 0) (withKeybuf .toy) code = some (1, 1) ∧ after (.setkey 33 0) (withKeybuf .toy) code = some (1, 1) ∧
    after (.setkey 8 0) (withKeybuf .toy) code = some (1, 2) ∧ after (.setkey 20 0) (withKeybuf .aes) code = some (1, 2) := by
  decide +kernel

/-- V2.1.3. -/
theorem test_setmode : after (.setmode 4) (toy16 .ecb .none) (fun t => (t.modes.mode, code t)) = some (.ofb, (0, 0)) ∧
    after (.setmode 5) (toy16 .ecb .none) (fun t => (t.modes.mode, code t)) = some (.ecb, (2, 1)) := by decide +kernel

/-- V2.1.3. -/
theorem test_setpad : after (.setpad 3) (toy16 .ecb .none) (fun t => (t.modes.pad, code t)) = some (.pkcs7, (0, 0)) ∧
    after (.setpad 4) (toy16 .ecb .none) (fun t => (t.modes.pad, code t)) = some (.none, (2, 2)) ∧
    after (.setpad 3) (withBuffer .enc [1, 2, 3] (toy16 .ecb .none)) (fun t => (t.modes.pad, code t)) =
      some (.none, (2, 3)) ∧
    after (.setpad 1) (setCph .failed (toy16 .ecb .none)) (fun t => (t.modes.pad, code t)) = some (.bit, (0, 0)) := by
  decide +kernel

/-- The state with an input size in WIN. -/
def withWin (n : Nat) (s : State) : State := { s with host := { s.host with win := BitVec.ofNat 32 n } }

/-- V2.1.5. -/
theorem test_waist : after .waist (withWin 0xFFFFFFFF (toy16 .cbc .pkcs7)) (fun t => t.results.wout.toNat) =
      some 0x100000000 ∧
    after .waist (withWin 16 (toy16 .cbc .bit)) (fun t => t.results.wout.toNat) = some 32 ∧
    after .waist (withWin 15 toy8) (fun t => t.results.wout.toNat) = some 16 ∧
    after .waist (withWin 17 (toy16 .cbc .none)) (fun t => t.results.wout.toNat) = some 17 := by decide +kernel

/-- The state with KT in IVIN. -/
def withIvin (s : State) : State := { s with host := { s.host with ivin := fill 64 kt } }

/-- V2.1.4. -/
theorem test_chn_setiv :
    after (.chnSetiv 16) (withIvin (toy16 .cbc .none)) (fun t => (t.chn.civ.toList, t.chn.chain.toList)) = some (kt, kt) ∧
    after (.chnSetiv 8) (withIvin toy8) (fun t => beNat t.chn.chain.toList) = some (0x0001020304050607 * 2 ^ 64) ∧
    after (.chnSetiv 12) (withIvin (toy16 .cbc .none)) (fun t => (beNat t.chn.civ.toList, code t)) = some (0, (2, 4)) := by
  decide +kernel

/-- The start of V2.3.1 with P1 in DIN. -/
def stream1 (m : Mode) : State :=
  withDin 0x202122232425262728292a2b2c2d2e2f (withChain 0x101112131415161718191a1b1c1d1e1f (toy16 m .none))

/-- V2.3.1: DOUT and CHAIN of the first block in ECB, CBC, CFB and OFB. -/
theorem test_chn_enc :
    after (.chnEnc 16 false) (stream1 .ecb) (fun t => (output t, beNat t.chn.chain.toList)) =
      some ((0x212321272123212f212321272123212f, 16), 0x101112131415161718191a1b1c1d1e1f) ∧
    after (.chnEnc 16 false) (stream1 .cbc) (fun t => (output t, beNat t.chn.chain.toList)) =
      some ((0x303132333435363738393a3b3c3d3e3f, 16), 0x303132333435363738393a3b3c3d3e3f) ∧
    after (.chnEnc 16 false) (stream1 .cfb) (fun t => (output t, beNat t.chn.chain.toList)) =
      some ((0x3132333435363738393a3b3c3d3e3f30, 16), 0x3132333435363738393a3b3c3d3e3f30) ∧
    after (.chnEnc 16 false) (stream1 .ofb) (fun t => (output t, beNat t.chn.chain.toList)) =
      some ((0x3132333435363738393a3b3c3d3e3f30, 16), 0x111311171113111f111311171113111f) := by
  decide +kernel

/-- V2.3.5 (the second command) and V2.3.7 (CALL_ALIGN). -/
theorem test_chn_enc_buffers :
    after (.chnEnc 10 false)
      (withDin 0x4b4c4d4e4f5051525354000000000000
        (withBuffer .enc [0x41, 0x42, 0x43, 0x44, 0x45, 0x46, 0x47, 0x48, 0x49, 0x4a] (toy16 .ecb .none)))
      (fun t => (output t, t.chn.iblen, beNat t.chn.ibuf.toList)) =
        some ((0x4242464642424e4e4242464642425e4e, 16), 4, 0x51525354 * 2 ^ 96) ∧
    after (.chnEnc 16 true) (withBuffer .enc [1, 2, 3, 4] (toy16 .xcbc .none)) (fun t => (code t, t.chn.iblen)) =
      some ((2, 8), 4) := by decide +kernel

/-- V1.3, the decryption of the first CBC block (SP 800-38A F.2.2). -/
theorem test_chn_dec :
    after (.chnDec 16 false)
      (withDin 0x7649abac8119b246cee98e9b12e9197d (withChain 0x000102030405060708090a0b0c0d0e0f
        { aes16 0x2b7e151628aed2a6abf7158809cf4f3c with modes := { mode := .cbc, pad := .none, taglen := 16 } }))
      (fun t => (output t, beNat t.chn.chain.toList)) =
        some ((0x6bc1bee22e409f96e93d7e117393172a, 16), 0x7649abac8119b246cee98e9b12e9197d) := by decide +kernel

/-- P2's decode: the first block is held. -/
theorem test_chn_dec_holds :
    after (.chnDec 16 false) (withDin 0x535055525754595e535055525754595e (toy16 .cbc .pkcs7))
      (fun t => (output t, stateWord t)) = some ((0, 0), 0x00000210#32) := by decide +kernel

/-- P2: 494a4b4c and twelve bytes of padding, after the first ciphertext block. -/
theorem test_chn_fine :
    after .chnFine (withBuffer .enc [0x49, 0x4a, 0x4b, 0x4c]
      (withChain 0x535055525754595e535055525754595e (toy16 .cbc .pkcs7))) (fun t => (output t, stateWord t, statusWord t)) =
        some ((0x1a1f1c585c5054585450545054585c15, 16), 0#32, 0x00100000#32) := by decide +kernel

/-- V2.3.5: RESIDUAL keeps the stream; V2.3.2: X923 with no byte buffered pads a whole block. -/
theorem test_chn_fine_pads :
    after .chnFine (withBuffer .enc [1, 2, 3, 4, 5] (toy16 .ecb .none)) (fun t => (code t, t.chn.iblen, t.chn.cph)) =
      some ((2, 7), 5, .enc) ∧
    after .chnFine (toy16 .ecb .x923) output = some (0x000102030405060708090a0b0c0d1e0f, 16) := by decide +kernel

/-- P2: the held second block gives the last four bytes. -/
theorem test_chn_find :
    after .chnFind (withBuffer .dec (beBytes 16 0x1a1f1c585c5054585450545054585c15)
      (withChain 0x535055525754595e535055525754595e (toy16 .cbc .pkcs7))) (fun t => (output t, stateWord t, statusWord t)) =
        some ((0x494a4b4c * 2 ^ 96, 4), 0#32, 0x00040000#32) := by decide +kernel

/-- P2: one byte changed gives PAD_BAD and phase FAILED. -/
theorem test_chn_find_bad :
    after .chnFind (withBuffer .dec (beBytes 16 0x1a1f1c585c5054585450545054585d15)
      (withChain 0x535055525754595e535055525754595e (toy16 .cbc .pkcs7))) (fun t => (output t, stateWord t, statusWord t)) =
        some ((0, 0), 0x00000300#32, 0x00000232#32) := by decide +kernel

/-- GR and the codes. -/
def gfResult (s : State) : Nat × Nat × Nat := (s.results.gr.toNat, code s)

/-- V2.4.1. -/
theorem test_gf_mod : after .gfMod (field .carryless 0x11B 0x1234 0) gfResult = some (0xA9, 0, 0) ∧
    after .gfMod (field .carryless 0x11B (2 ^ 256 - 1) 0) gfResult = some (1, 0, 0) ∧
    after .gfMod (field .carryless 0 0x1234 0) gfResult = some (0x1234, 0, 0) := by decide +kernel

/-- V2.4.2. -/
theorem test_gf_add : after .gfAdd (field .integer 0x11B 0x1234 0) gfResult = some (0xA9, 0, 0) ∧
    after .gfAdd (field .carryless 0 0x57 0x83) gfResult = some (0xD4, 0, 0) ∧
    after .gfAdd (field .integer 0 0x57 0x83) gfResult = some (0xDA, 0, 0) ∧
    after .gfAdd (field .integer 0 (2 ^ 256 - 1) 1) gfResult = some (0, 0, 0) := by decide +kernel

/-- V2.4.3. -/
theorem test_gf_mul : after .gfMul (field .integer 0x11B 0x57 0x83) gfResult = some (0xC1, 0, 0) ∧
    after .gfMul (field .carryless (2 ^ 255 + 0x425) (2 ^ 255) 2) gfResult = some (0x84A, 0, 0) ∧
    after .gfMul (field .carryless 0 0x57 0x83) gfResult = some (0x2B79, 0, 0) ∧
    after .gfMul (field .integer 0 0x57 0x83) gfResult = some (0x2C85, 0, 0) := by decide +kernel

/-- V2.4.4. -/
theorem test_gf_inv : after .gfInv (field .carryless 0x11B 0x53 0) gfResult = some (0xCA, 0, 0) ∧
    after .gfInv (field .carryless 0x11B 0x153 0) gfResult = some (0xA7, 0, 0) ∧
    after .gfInv (field .carryless (2 ^ 255 + 0x425) 2 0) gfResult = some (2 ^ 254 + 0x212, 0, 0) ∧
    after .gfInv (field .carryless 5 2 0) gfResult = some (2, 0, 0) := by decide +kernel

/-- V2.4.4: the three errors. -/
theorem test_gf_inv_errors : after .gfInv (field .carryless 5 3 0) gfResult = some (0, 5, 3) ∧
    after .gfInv (field .carryless 0x11B 0x11B 0) gfResult = some (0, 5, 2) ∧
    after .gfInv (field .carryless 0 0x53 0) gfResult = some (0, 5, 1) := by decide +kernel

/-- V2.4.5. -/
theorem test_gf_div : after .gfDiv (field .carryless 0x11B 0xC1 0x83) gfResult = some (0x57, 0, 0) ∧
    after .gfDiv (field .carryless 0x11B 0x57 0) gfResult = some (0, 5, 2) ∧
    after .gfDiv (field .integer 0 0x57 0x83) gfResult = some (0, 5, 1) := by decide +kernel

/-- V2.4.6. -/
theorem test_gf_gmm :
    after .gfGmm (field .carryless 5 0x0388dace60b6a392f328c2b971b2fe78 0x66e94bd4ef8a2c3b884cfa59ca342b2e) gfResult =
      some (0x5e2ec746917062882c85b0685353deb7, 0, 0) ∧
    after .gfGmm (field .carryless 5 1 1) gfResult = some (0xe6080000000000000000000000000003, 0, 0) ∧
    after .gfGmm (field .carryless 5 (2 ^ 200 + 2 ^ 127) (2 ^ 127)) gfResult = some (2 ^ 127, 0, 0) := by decide +kernel

/-- V2.5: the IV length's bounds, and the refusal while a message is open. -/
theorem test_gcm_setiv : after (.gcmSetiv 65) gcm0 code = some (2, 4) ∧ after (.gcmSetiv 0) gcm0 code = some (2, 4) ∧
    after (.gcmSetiv 12) (gcmOpen .data .enc) code = some (2, 16) ∧ after (.gcmSetiv 12) toy8 code = some (2, 9) ∧
    after (.gcmSetiv 12) (withIvin (gcmOpen .done .enc)) (fun t => (code t, t.gcm.gph, beNat t.gcm.giv.toList)) =
      some ((0, 0), .config, 0x000102030405060708090a0b * 2 ^ 416) := by decide +kernel

/-- V2.5. -/
theorem test_gcm_settaglen : after (.gcmSettaglen 3) gcm0 (fun t => (code t, t.modes.taglen)) = some ((2, 15), 16) ∧
    after (.gcmSettaglen 12) (gcmOpen .data .enc) (fun t => (code t, t.modes.taglen)) = some ((0, 0), 12) := by
  decide +kernel

/-- V2.5: a short AAD chunk closes the AAD; late AAD is refused. -/
theorem test_gcm_aad :
    after (.gcmAad 3) (withDin (0xfeedfa * 2 ^ 104) gcm0) (fun t => (code t, stateWord t, t.gcm.alen.toNat)) =
      some ((0, 0), 0x00305000#32, 24) ∧
    after (.gcmAad 4) (gcmOpen .data .enc) code = some (2, 11) := by decide +kernel

/-- V1.2 test case 2, from CONFIG: preset and the first block. -/
theorem test_gcm_enc :
    after (.gcmEnc 16) gcm0 (fun t => (output t, stateWord t, beNat t.gcm.h.toList)) =
      some ((0x0388dace60b6a392f328c2b971b2fe78, 16), 0x00312000#32, 0x66e94bd4ef8a2c3b884cfa59ca342b2e) := by
  decide +kernel

/-- V2.5: a chunk of five bytes. -/
theorem test_gcm_enc_short :
    after (.gcmEnc 5) (gcmOpen .aad .none) (fun t => (output t, t.gcm.dpart, t.gcm.clen.toNat)) =
      some ((0x0388dace60 * 2 ^ 88, 5), true, 40) := by decide +kernel

/-- V2.5 and P3: the ciphertext of test case 2 gives 0^16, and GHASH folds the ciphertext (V2.4.6's last row). -/
theorem test_gcm_dec :
    after (.gcmDec 16) (withDin 0x0388dace60b6a392f328c2b971b2fe78 (gcmOpen .aad .none))
      (fun t => (output t, t.gcm.gdir, beNat t.gcm.acc.toList)) =
        some ((0, 16), .dec, 0x5e2ec746917062882c85b0685353deb7) ∧
    after (.gcmDec 16) (gcmOpen .data .enc) code = some (2, 6) := by decide +kernel

/-- V1.1, from CONFIG: the tag of test case 1; and the end of test case 2 from its open session. -/
theorem test_gcm_fine :
    after .gcmFine gcm0 (fun t => (beNat t.results.tag.toList, statusWord t, t.gcm.gph)) =
      some (0x58e2fccefa7e3061367f1d57a4e7455a, 0x00000008#32, .done) ∧
    after .gcmFine
      (let s := gcmOpen .data .enc
       { s with gcm := { s.gcm with acc := blk 0x5e2ec746917062882c85b0685353deb7, clen := 128 } })
      (fun t => beNat t.results.tag.toList) = some 0xab6e47d42cec13bdf53a67b21257bddf := by decide +kernel

/-- V2.5: an IV of eight bytes, with J0 from GHASH. -/
theorem test_gcm_fine_long_iv :
    after .gcmFine { gcm0 with gcm := { gcm0.gcm with giv := fill 64 (beBytes 8 0xcafebabefacedbad), givlen := 8 } }
      (fun t => (beNat t.gcm.j0.toList, beNat t.results.tag.toList, stateWord t)) =
        some (0x96900847d7f24421554d777e4bdf5b8f, 0x88c4736bea448d08d767f46374e9fe05, 0x00203000#32) := by decide +kernel

/-- The start of V2.5 with a tag in TAGIN. -/
def withTagin (n taglen : Nat) (s : State) : State :=
  { s with host := { s.host with tagin := blk n }, modes := { s.modes with taglen := taglen } }

/-- V2.5: the right tag is accepted and not shown; with TAGLEN = 4 only four bytes are compared. -/
theorem test_gcm_find :
    after .gcmFind (withTagin 0x58e2fccefa7e3061367f1d57a4e7455a 16 gcm0)
      (fun t => (statusWord t, beNat t.results.tag.toList, t.gcm.gph)) = some (0#32, 0, .done) ∧
    after .gcmFind (withTagin 0x58e2fcceffffffffffffffffffffffff 4 gcm0) statusWord = some 0#32 := by decide +kernel

/-- V2.5: one bit changed. -/
theorem test_gcm_find_mismatch :
    after .gcmFind (withTagin 0x58e2fccefa7e3061367f1d57a4e7455b 16 gcm0) (fun t => (statusWord t, t.gcm.gph)) =
      some (0x00000142#32, .done) := by decide +kernel

/-! ## Witnesses: states that meet the hypotheses of the statements -/

/-- The invariants of R57 as a check. -/
def consistentCheck (s : State) : Bool :=
  decide (s.chn.cph = .idle → s.chn.iblen = 0) && decide (s.chn.iblen ≤ s.bsz) &&
    decide (s.chn.iblen = s.bsz → s.chn.cph = .dec ∧ s.modes.pad ≠ .none) &&
    decide (s.gcm.gph ≠ .config → s.key.keyed = true ∧ s.gcm.givset = true) &&
    decide (s.gcm.givset = true → 1 ≤ s.gcm.givlen ∧ s.gcm.givlen ≤ 64) &&
    decide (s.key.keyed = false → s.key.klen = 0) && decide (s.gcm.dpart = true → s.gcm.gph = .data ∨ s.gcm.gph = .done) &&
    decide (s.gcm.gdir ≠ .none → s.gcm.gph = .data ∨ s.gcm.gph = .done) &&
    decide (s.status.tagv = true → s.gcm.gph = .done ∧ s.gcm.gdir ≠ .dec) &&
    decide (s.status.outlen ≤ 16 ∧ s.status.outlen ≤ s.bsz)

theorem consistent_of_check {s : State} (h : consistentCheck s = true) : Consistent s := by
  simp only [consistentCheck, Bool.and_eq_true, decide_eq_true_eq] at h
  obtain ⟨⟨⟨⟨⟨⟨⟨⟨⟨h1, h2⟩, h3⟩, h4⟩, h5⟩, h6⟩, h7⟩, h8⟩, h9⟩, h10⟩ := h
  exact ⟨h1, h2, h3, h4, h5, h6, h7, h8, h9, h10⟩

/-- The codes of `Legal` as a check. -/
def legalCheck (s : State) : Bool :=
  decide ((s.status.err = false ∧ s.status.ecode = 0 ∧ s.status.edet = 0) ∨
    (s.status.err = true ∧ (s.status.ecode.toNat, s.status.edet.toNat) ∈ errorPairs)) &&
    decide (s.modes.taglen ∈ [4, 8, 12, 13, 14, 15, 16]) && decide (s.key.klen ≤ 32) && decide (s.gcm.givlen ≤ 64) &&
    decide (s.key.keyed = true → 1 ≤ s.key.klen) && decide (s.key.keyed = s.key.ks.isSome)

theorem legal_of_check {s : State} (h : legalCheck s = true) : Legal s := by
  simp only [legalCheck, Bool.and_eq_true, decide_eq_true_eq] at h
  obtain ⟨⟨⟨⟨⟨h1, h2⟩, h3⟩, h4⟩, h5⟩, h6⟩ := h
  exact ⟨h1, h2, h3, h4, h5, h6⟩

/-- The zero fill as a check. -/
def zeroFilledCheck (s : State) : Bool :=
  decide (∀ i : Fin 16, s.status.outlen ≤ i.val → s.results.dout[i] = 0) &&
    decide (∀ i : Fin 16, s.chn.iblen ≤ i.val → s.chn.ibuf[i] = 0) &&
    decide (∀ i : Fin 32, s.key.klen ≤ i.val → s.key.key[i] = 0) &&
    decide (∀ i : Fin 64, s.gcm.givlen ≤ i.val → s.gcm.giv[i] = 0) &&
    decide (∀ i : Fin 16, s.bsz ≤ i.val → s.chn.civ[i] = 0) && decide (∀ i : Fin 16, s.bsz ≤ i.val → s.chn.chain[i] = 0)

theorem zeroFilled_of_check {s : State} (h : zeroFilledCheck s = true) : ZeroFilled s := by
  simp only [zeroFilledCheck, Bool.and_eq_true, decide_eq_true_eq] at h
  obtain ⟨⟨⟨⟨⟨h1, h2⟩, h3⟩, h4⟩, h5⟩, h6⟩ := h
  exact ⟨h1, h2, h3, h4, h5, h6⟩

/-- A command in the middle of a decode stream, with a held block, and an open GCM message. -/
def busyMid : State :=
  acceptWord 0x00001012#32 (withBuffer .dec kt
    { toy16 .cbc .pkcs7 with gcm := { (toy16 .cbc .pkcs7).gcm with gph := .data, gdir := .enc, givset := true, givlen := 12 } })

theorem witness_DecodeOfEncodeIsTheCommand : (Instr.setkey 255 15).wf = true ∧ (Instr.setkey 0 0).wf = true ∧
    (Instr.chnDec 255 true).wf = true ∧ Instr.nop.wf = true := by decide

theorem witness_DecodedWordIsItsEncoding : decode 0x0001FF11#32 = .ok (.chnEnc 255 true) := by decide

/-- The unassigned opcodes at the ends of their ranges, a must-be-zero bit of each format, and words that decode. -/
theorem witness_UndecodableWordsAreIllegal :
    (∀ opc ∈ [0x07, 0x0F, 0x15, 0x1F, 0x26, 0x2F, 0x37, 0xFF],
      (0x07 ≤ opc ∧ opc ≤ 0x0F) ∨ (0x15 ≤ opc ∧ opc ≤ 0x1F) ∨ (0x26 ≤ opc ∧ opc ≤ 0x2F) ∨ 0x37 ≤ opc) ∧
    (∀ r ∈ [(0x00, 0x00000100#32), (0x03, 0x00100003#32), (0x11, 0x00020011#32), (0x34, 0x00010034#32), (0x36, 0x80000036#32)],
      r.2 &&& mustBeZeroOf r.1 ≠ 0) ∧
    (∀ r ∈ [(0x00, 0x00000000#32), (0x03, 0x000FFF03#32), (0x12, 0x0001FF12#32), (0x34, 0x0000FF34#32), (0x36, 0x00000036#32)],
      r.2 &&& mustBeZeroOf r.1 = 0) := by decide

theorem witness_StepRunsThePendingCommand :
    let s := racing false
    s.status.busy = true ∧ s.env.inReset = false ∧
      (s.env.inputs = [] ∨ ∃ e es, s.env.inputs = e :: es ∧ e.early = false) ∧ decode s.pend = .ok .gfMul :=
  ⟨rfl, rfl, .inr ⟨_, _, rfl, rfl⟩, by decide⟩

/-- The state with one event waiting. -/
def withEvent (early : Bool) (e : Event) (s : State) : State :=
  { s with env := { s.env with inputs := [{ early := early, event := e }] } }

theorem witness_CommandWriteIsAccepted :
    let s := withEvent false (.write 0x40000004 4 0x23#32) gcm0
    s.status.busy = false ∧ s.env.inReset = false ∧
      s.env.inputs = { early := false, event := .write (s.params.base + 0x004) 4 0x23#32 } :: [] := by decide +kernel

theorem witness_StepKeepsConsistency : Consistent busyMid ∧ ∃ t, step busyMid = .next t :=
  ⟨consistent_of_check (by decide +kernel), exec_completes (.chnDec 16 false) busyMid⟩

theorem witness_StepKeepsZeroFill : ZeroFilled busyMid ∧ ∃ t, step busyMid = .next t :=
  ⟨zeroFilled_of_check (by decide +kernel), exec_completes (.chnDec 16 false) busyMid⟩

theorem witness_StepKeepsLegalCodes : Legal busyMid ∧ ∃ t, step busyMid = .next t :=
  ⟨legal_of_check (by decide +kernel), exec_completes (.chnDec 16 false) busyMid⟩

/-- The state with the reset input asserted. -/
def inResetState : State := { gcm0 with env := { gcm0.env with inReset := true } }

/-- The three clauses: the input asserted while a command runs, an access under reset, and the release. -/
theorem witness_ResetInputResetsEverything :
    (let s := withEvent true (.resetLine true) busyMid
     s.env.inputs = { early := true, event := .resetLine true } :: [] ∧ s.status.busy = true) ∧
    (let s := withEvent false (.read 0x400003FC 4) inResetState
     s.env.inReset = true ∧ s.env.inputs = { early := false, event := .read (s.params.base + 0x3FC) 4 } :: []) ∧
    (let s := withEvent false (.write 0x40000000 4 1#32) inResetState
     s.env.inReset = true ∧ s.env.inputs = { early := false, event := .write (s.params.base + 0) 4 1#32 } :: []) ∧
    (let s := withEvent false (.resetLine false) inResetState
     s.env.inReset = true ∧ s.env.inputs = { early := false, event := .resetLine false } :: []) := by decide +kernel

/-- A run of the five commands of the statement, which end without an error. -/
theorem witness_ResetThenSetkeyIsFresh (s : State) (kb : Vector Byte 32) (d : Block) :
    ∃ r u v t t', exec .reset s = .next r ∧
      exec (.setkey 16 0) { r with host := { r.host with keybuf := kb } } = .next u ∧
      exec (.setkey 16 0)
        { State.resetWith s.params with
          modes := s.modes
          host := { (State.resetWith s.params).host with keybuf := kb } } = .next v ∧
      exec (.chnEnc 16 false) { u with host := { u.host with din := d } } = .next t ∧
      exec (.chnEnc 16 false) { v with host := { v.host with din := d } } = .next t' := by
  obtain ⟨r, hr⟩ := exec_completes .reset s
  obtain ⟨u, hu⟩ := exec_completes (.setkey 16 0) { r with host := { r.host with keybuf := kb } }
  obtain ⟨v, hv⟩ := exec_completes (.setkey 16 0)
    { State.resetWith s.params with
      modes := s.modes
      host := { (State.resetWith s.params).host with keybuf := kb } }
  obtain ⟨t, ht⟩ := exec_completes (.chnEnc 16 false) { u with host := { u.host with din := d } }
  obtain ⟨t', ht'⟩ := exec_completes (.chnEnc 16 false) { v with host := { v.host with din := d } }
  exact ⟨r, u, v, t, t', hr, hu, hv, ht, ht'⟩

/-- A narrow access, an unaligned one, and addresses on both sides of the window. -/
theorem witness_UnsupportedAccessesStop :
    (∀ r ∈ [(0x40000000, 1), (0x40000002, 4), (0x400003FF, 4), (0x400003FC, 8)],
      let s := withEvent false (.read r.1 r.2) gcm0
      s.env.inputs = { early := false, event := .read r.1 r.2 } :: [] ∧ s.status.busy = false ∧
        (s.params.base ≤ r.1 ∧ r.1 < s.params.base + 0x400) ∧ (r.2 ≠ 4 ∨ (r.1 - s.params.base) % 4 ≠ 0)) ∧
    (∀ addr ∈ [0x3FFFFFFC, 0x40000400],
      let s := withEvent false (.write addr 4 0) gcm0
      s.env.inputs = { early := false, event := .write addr 4 0 } :: [] ∧
        ¬(s.params.base ≤ addr ∧ addr < s.params.base + 0x400)) := by decide +kernel

/-- Writes and reads of the registers and reserved offsets at the ends of the statement's ranges, busy and not. -/
theorem witness_ReservedAndOneWayRegisters :
    (∀ off ∈ [0x000, 0x008, 0x010, 0x018, 0x01C, 0x030, 0x03C, 0x050, 0x05C, 0x100, 0x11C, 0x140, 0x3FC],
      let s := withEvent true (.write (0x40000000 + off) 4 7#32) busyMid
      s.env.inReset = false ∧ off < 0x400 ∧ off % 4 = 0 ∧
        s.env.inputs = { early := true, event := .write (s.params.base + off) 4 7#32 } :: [] ∧
        (off = 0x000 ∨ off = 0x008 ∨ off = 0x00C ∨ off = 0x010 ∨ off = 0x018 ∨ off = 0x01C ∨
          (0x030 ≤ off ∧ off < 0x040) ∨ (0x050 ≤ off ∧ off < 0x060) ∨ (0x100 ≤ off ∧ off < 0x120) ∨ 0x140 ≤ off)) ∧
    (∀ off ∈ [0x004, 0x060, 0x07C, 0x140, 0x3FC],
      let s := withEvent false (.read (0x40000000 + off) 4) gcm0
      s.env.inReset = false ∧ s.status.busy = false ∧
        s.env.inputs = { early := false, event := .read (s.params.base + off) 4 } :: [] ∧
        (off = 0x004 ∨ (0x060 ≤ off ∧ off < 0x080) ∨ 0x140 ≤ off)) ∧
    (let s := withEvent true (.write (0x40000000 + 0x004) 4 7#32) busyMid
     s.env.inReset = false ∧ s.status.busy = true ∧
       s.env.inputs = { early := true, event := .write (s.params.base + 0x004) 4 7#32 } :: []) := by decide +kernel

/-- A host write and a host read through step, at the first and the last offset of each range that reads back. -/
theorem witness_WindowWriteReadsBack : gcm0.status.busy = false ∧
    (∀ off ∈ [0x000, 0x014, 0x060, 0x3FC],
      let s := withEvent false (.write (0x40000000 + off) 4 7#32) gcm0
      let t := withEvent true (.read (0x40000000 + off) 4) gcm0
      s.status.busy = false ∧ s.env.inReset = false ∧ off < 0x400 ∧ off % 4 = 0 ∧
        s.env.inputs = { early := false, event := .write (s.params.base + off) 4 7#32 } :: [] ∧
        t.env.inputs = { early := true, event := .read (t.params.base + off) 4 } :: []) ∧
    (∀ off ∈ [0x014, 0x020, 0x02C, 0x040, 0x04C, 0x080, 0x0FC, 0x120, 0x13C], off < 0x400 ∧ off % 4 = 0 ∧
      (off = 0x014 ∨ (0x020 ≤ off ∧ off < 0x030) ∨ (0x040 ≤ off ∧ off < 0x050) ∨ (0x080 ≤ off ∧ off < 0x100) ∨
        (0x120 ≤ off ∧ off < 0x140))) ∧
    (0x060 ≠ 0x004 ∧ 0x3FC < 0x400 ∧ 0x3FC % 4 = 0 ∧ 0x3FC ≠ 0x060) := by decide +kernel

/-- BUSY = 0 and the last word of each register. -/
theorem witness_ByteLanesAndWordOrder : gcm0.status.busy = false ∧ 0 = 0 ∧ 3 < 4 ∧ 7 < 8 ∧ 15 < 16 ∧ 255 < 256 ∧ 63 < 64 := by
  decide +kernel

theorem witness_BusyWriteIsDropped :
    ∀ off ∈ [0x004, 0x014, 0x020, 0x02C, 0x040, 0x04C, 0x060, 0x0FC, 0x120, 0x13C],
      let s := withEvent true (.write (0x40000000 + off) 4 7#32) busyMid
      s.env.inReset = false ∧ s.status.busy = true ∧ off % 4 = 0 ∧
        s.env.inputs = { early := true, event := .write (s.params.base + off) 4 7#32 } :: [] ∧
        (off = 0x004 ∨ off = 0x014 ∨ (0x020 ≤ off ∧ off < 0x030) ∨ (0x040 ≤ off ∧ off < 0x050) ∨
          (0x060 ≤ off ∧ off < 0x100) ∨ (0x120 ≤ off ∧ off < 0x140)) := by decide +kernel

theorem witness_BusyReadShowsBusyAndOverrun :
    ∀ off ∈ [0x000, 0x008, 0x3FC],
      let s := withEvent true (.read (0x40000000 + off) 4) busyMid
      s.env.inReset = false ∧ s.status.busy = true ∧ off < 0x400 ∧ off % 4 = 0 ∧
        s.env.inputs = { early := true, event := .read (s.params.base + off) 4 } :: [] := by decide +kernel

theorem witness_MirrorWordFields : Consistent gcm0 ∧ Legal gcm0 ∧ gcm0.status.busy = false :=
  ⟨consistent_of_check (by decide +kernel), legal_of_check (by decide +kernel), by decide +kernel⟩

/-- The four outcomes of SETKEY, with the length at its bounds. -/
theorem witness_NopClearsOverrunOnly :
    let s : State := { gcm0 with status := { gcm0.status with ovr := true } }
    ∃ t, exec .nop s = .next t ∧ s.status.ovr = true ∧ t.status.ovr = false := ⟨_, rfl, rfl, rfl⟩

theorem witness_SetkeyBindsOrFails :
    btAccepts (withKeybuf .toy).params.bt (withKeybuf .toy).bsz (8 * 16) = true ∧
    btAccepts (withKeybuf .toy).params.bt (withKeybuf .toy).bsz (8 * 1) = false ∧
    btAccepts (withKeybuf .aes).params.bt (withKeybuf .aes).bsz (8 * 32) = true ∧ (0 < 1 ∧ 33 > 32) ∧ 15 ≠ 0 := by
  decide +kernel

theorem witness_SetmodeAndSetpadConfigure : (toy16 .ecb .none).chn.cph = .idle ∧
    (setCph .failed (toy16 .ecb .none)).chn.cph = .failed ∧ busyMid.chn.cph = .dec ∧ 5 > 4 ∧ 4 > 3 := by decide +kernel

theorem witness_WaistReportsOutputSize : (toy16 .ecb .none).modes.pad = .none ∧ toy8.modes.pad ≠ .none := by decide +kernel

theorem witness_ChnSetivSeedsTheChain : 8 = toy8.params.bs.bytes ∧ 16 ≠ toy8.params.bs.bytes := by decide +kernel

/-- A first block of whole input, a block in an open decode stream held back until now, and one completed from 7 buffered
bytes and 1 new one. -/
theorem witness_ChainingEquations :
    (let s := toy16 .cbc .none
     ZeroFilled s ∧ s.key.keyed = true ∧ s.key.ks = some kt ∧ s.chn.cph = .idle ∧ 16 ≤ s.params.bs.bytes ∧
      ¬(s.modes.mode = .xcbc ∧ true = true) ∧
      (s.chn.ibuf.toList.take s.chn.iblen ++ s.host.din.toList.take 16).length = s.params.bs.bytes ∧
      ¬(Dir.dec = .dec ∧ s.modes.pad ≠ .none)) ∧
    (let s := withBuffer .dec kt (toy16 .cfb .bit)
     ZeroFilled s ∧ s.key.keyed = true ∧ s.key.ks = some kt ∧ s.chn.cph = streamPhase .dec ∧ 1 ≤ s.params.bs.bytes ∧
      ¬(s.modes.mode = .xcbc ∧ false = true) ∧
      (s.chn.ibuf.toList.take s.chn.iblen ++ s.host.din.toList.take 1).length > s.params.bs.bytes) ∧
    (let s := withBuffer .enc (kt.take 7) toy8
     ZeroFilled s ∧ s.key.keyed = true ∧ s.key.ks = some (kt.take 8) ∧ s.chn.cph = streamPhase .enc ∧
      1 ≤ s.params.bs.bytes ∧ ¬(s.modes.mode = .xcbc ∧ true = true) ∧
      (s.chn.ibuf.toList.take s.chn.iblen ++ s.host.din.toList.take 1).length = s.params.bs.bytes ∧
      ¬(Dir.enc = .dec ∧ s.modes.pad ≠ .none)) := by
  refine ⟨⟨zeroFilled_of_check (by decide +kernel), ?_⟩, ⟨zeroFilled_of_check (by decide +kernel), ?_⟩,
    ⟨zeroFilled_of_check (by decide +kernel), ?_⟩⟩ <;> decide +kernel

/-- A held block and a whole chunk (output), a held block and nothing more (none), and the boundary L = BS. -/
theorem witness_DataCommandBuffersAndOutputs :
    let s := busyMid
    Consistent s ∧ s.key.keyed = true ∧ (s.chn.cph = .idle ∨ s.chn.cph = streamPhase .dec) ∧ 16 ≤ s.params.bs.bytes ∧
      ¬(s.modes.mode = .xcbc ∧ true = true) ∧ s.chn.iblen + 16 > s.params.bs.bytes ∧
      ¬(s.chn.iblen + 0 > s.params.bs.bytes ∨
        (s.chn.iblen + 0 = s.params.bs.bytes ∧ ¬(Dir.dec = .dec ∧ s.modes.pad ≠ .none))) := by
  refine ⟨consistent_of_check (by decide +kernel), ?_⟩
  decide +kernel

/-- An XCBC stream with an empty buffer and one with bytes buffered. -/
theorem witness_NewCallReseedsChain :
    (let s := toy16 .xcbc .none
     s.modes.mode = .xcbc ∧ s.key.keyed = true ∧ (s.chn.cph = .idle ∨ s.chn.cph = streamPhase .enc) ∧
       16 ≤ s.params.bs.bytes ∧ s.chn.iblen = 0) ∧
    (let s := withBuffer .enc [1] (toy16 .xcbc .none)
     s.modes.mode = .xcbc ∧ s.key.keyed = true ∧ (s.chn.cph = .idle ∨ s.chn.cph = streamPhase .enc) ∧
       s.chn.iblen ≠ 0) ∧ (toy16 .cbc .none).modes.mode ≠ .xcbc := by decide +kernel

/-- One state for each cause, in the order of the statement. -/
theorem witness_ChainingErrorsInOrder : (withKeybuf .toy).key.keyed = false ∧
    (let s := setCph .failed (toy16 .ecb .none)
     s.key.keyed = true ∧ s.chn.cph = .failed) ∧
    (busyMid.key.keyed = true ∧ busyMid.chn.cph = .dec) ∧
    (let s := withBuffer .enc [1] (toy16 .ecb .none)
     s.key.keyed = true ∧ s.chn.cph ≠ .failed ∧ s.chn.cph ≠ .dec ∧ 17 > s.params.bs.bytes ∧ s.modes.pad = .none ∧
       s.chn.iblen ≠ 0) := by decide +kernel

theorem witness_UnpaddedFinishEndsStream :
    let s := setCph .dec (toy16 .cbc .none)
    s.key.keyed = true ∧ (s.chn.cph = .idle ∨ s.chn.cph = streamPhase .dec) ∧ s.modes.pad = .none ∧ s.chn.iblen = 0 ∧
      ZeroFilled s := by
  refine ⟨by decide +kernel, by decide +kernel, by decide +kernel, by decide +kernel, zeroFilled_of_check (by decide +kernel)⟩

/-- The longest and the shortest padding, and the three kinds. -/
theorem witness_FinishPadsTheLastBlock :
    (let s := toy16 .ecb .bit
     Consistent s ∧ s.key.keyed = true ∧ s.chn.cph = .idle ∧ 16 = s.params.bs.bytes - s.chn.iblen ∧ s.modes.pad = .bit) ∧
    (let s := withBuffer .enc (kt.take 15) (toy16 .ecb .x923)
     Consistent s ∧ s.key.keyed = true ∧ s.chn.cph = .enc ∧ 1 = s.params.bs.bytes - s.chn.iblen ∧ s.modes.pad = .x923) ∧
    (Consistent toy8 ∧ toy8.key.keyed = true ∧ 8 = toy8.params.bs.bytes - toy8.chn.iblen ∧ toy8.modes.pad = .pkcs7) := by
  refine ⟨⟨consistent_of_check (by decide +kernel), ?_⟩, ⟨consistent_of_check (by decide +kernel), ?_⟩,
    ⟨consistent_of_check (by decide +kernel), ?_⟩⟩ <;> decide +kernel

/-- A held block, whose padding is right or wrong, and a stream without one. -/
theorem witness_FinishStripsTheLastBlock :
    (busyMid.key.keyed = true ∧ busyMid.chn.cph = .dec ∧ busyMid.modes.pad ≠ .none ∧
      busyMid.chn.iblen = busyMid.params.bs.bytes) ∧
    (toy8.key.keyed = true ∧ toy8.chn.cph = .idle ∧ toy8.modes.pad ≠ .none ∧ toy8.chn.iblen ≠ toy8.params.bs.bytes) ∧
    padLength .pkcs7 16 (List.replicate 16 0x10#8) = some 16 ∧ padLength .pkcs7 16 (List.replicate 16 0x11#8) = none := by
  decide +kernel

theorem witness_PaddingCheckIsExact : PadMode.bit ≠ .none ∧ (0x80#8 :: List.replicate 7 0#8).length = BlockSize.eight.bytes ∧
    padLength .bit 8 (0x80#8 :: List.replicate 7 0#8) = some 8 := by decide

/-- The state whose next step is a command. -/
def running (w : Nat) (s : State) : State := acceptWord (BitVec.ofNat 32 w) s

/-- CHN.FIND enters FAILED and CLEAR leaves it. -/
theorem witness_FailedPhaseEntryAndExit :
    (∃ t, step (running 0x14 (toy16 .cbc .pkcs7)) = .next t ∧ (toy16 .cbc .pkcs7).chn.cph ≠ .failed ∧
      t.chn.cph = .failed) ∧
    (∃ t, step (running 0x02 (setCph .failed (toy16 .cbc .pkcs7))) = .next t ∧ t.chn.cph ≠ .failed) := by
  constructor
  · obtain ⟨t, ht⟩ := exec_completes .chnFind (running 0x14 (toy16 .cbc .pkcs7))
    have h : afterStep (running 0x14 (toy16 .cbc .pkcs7)) (fun t => t.chn.cph) = some .failed := by decide +kernel
    have hs : step (running 0x14 (toy16 .cbc .pkcs7)) = .next t := ht
    rw [afterStep, hs] at h
    exact ⟨t, hs, by decide +kernel, by simpa using h⟩
  · obtain ⟨t, ht⟩ := exec_completes .clear (running 0x02 (setCph .failed (toy16 .cbc .pkcs7)))
    have h : afterStep (running 0x02 (setCph .failed (toy16 .cbc .pkcs7))) (fun t => t.chn.cph) = some .idle := by
      decide +kernel
    have hs : step (running 0x02 (setCph .failed (toy16 .cbc .pkcs7))) = .next t := ht
    rw [afterStep, hs] at h
    exact ⟨t, hs, by simp_all⟩

/-- A message in three chunks, one of them empty, and the chunks of its ciphertext. -/
def messageChunks : List Bytes := [kt.take 10, [], kt]

/-- The two streams' hypotheses: the encode finishes, its chunks are short enough, and the ciphertext is cut anew. -/
theorem witness_StreamRoundTrip :
    let s := toy16 .cbc .pkcs7
    Consistent s ∧ s.chn.cph = .idle ∧ Lawful s.params.bt s.params.bs.bytes ∧
      (∀ b ∈ messageChunks, b.length ≤ s.params.bs.bytes) ∧
      ∃ c u, runStream .enc messageChunks s = some (c, u) ∧ c.length = 32 ∧ ∃ cipher : List Bytes, cipher.flatten = c ∧
        ∀ b ∈ cipher, b.length ≤ s.params.bs.bytes := by
  refine ⟨consistent_of_check (by decide +kernel), by decide +kernel, toy_lawful 16, by decide +kernel, ?_⟩
  have h : (runStream .enc messageChunks (toy16 .cbc .pkcs7)).map (fun r => r.1.length) = some 32 := by decide +kernel
  cases hr : runStream .enc messageChunks (toy16 .cbc .pkcs7) with
  | none =>
    rw [hr] at h
    simp at h
  | some r =>
    rw [hr] at h
    have hl : r.1.length = 32 := by simpa using h
    refine ⟨r.1, r.2, rfl, hl, [r.1.take 16, r.1.drop 16], by simp, ?_⟩
    intro b hb
    have h16 : (toy16 .cbc .pkcs7).params.bs.bytes = 16 := by decide +kernel
    rw [h16]
    simp only [List.mem_cons, List.not_mem_nil, or_false] at hb
    rcases hb with rfl | rfl <;> simp [hl]

theorem witness_WaistIsTheStreamOutputLength :
    let s := toy16 .cbc .pkcs7
    Consistent s ∧ s.chn.cph = .idle ∧ (∀ b ∈ messageChunks, b.length ≤ s.params.bs.bytes) ∧
      messageChunks.flatten.length < 2 ^ 32 ∧ ∃ c u, runStream .enc messageChunks s = some (c, u) := by
  obtain ⟨h1, h2, _, h4, c, u, h5, _⟩ := witness_StreamRoundTrip
  exact ⟨h1, h2, h4, by decide +kernel, c, u, h5⟩

/-- Two plaintext blocks under one CHAIN at the start of a stream, and one block under two CHAINs in open streams, the second
completed from a buffered byte. -/
theorem witness_CbcDiffusion :
    let n := 16
    let block := fun (u : State) (k : Nat) => (u.chn.ibuf.toList.take u.chn.iblen ++ u.host.din.toList.take k).take n
    let chain := fun u : State => u.chn.chain.toList.take n
    let agree := fun s s' : State => s'.params = s.params ∧ s'.key = s.key ∧ s.key.keyed = true ∧ s.modes.mode = .cbc ∧
      s'.modes.mode = .cbc ∧ s.params.bs.bytes = n
    (let s := toy16 .cbc .none
     let s' := withDin 1 s
     Lawful s.params.bt s.params.bs.bytes ∧ agree s s' ∧ s.chn.cph = .idle ∧ s'.chn.cph = .idle ∧
      (block s 16).length = n ∧ (block s' 16).length = n ∧ (∃ t, exec (.chnEnc 16 false) s = .next t) ∧
      (∃ t, exec (.chnEnc 16 false) s' = .next t) ∧ chain s = chain s' ∧ block s 16 ≠ block s' 16) ∧
    (let s := setCph .enc (toy16 .cbc .none)
     let s' := withBuffer .enc [0] (withChain 1 (toy16 .cbc .none))
     Lawful s.params.bt s.params.bs.bytes ∧ agree s s' ∧ s.chn.cph = .enc ∧ s'.chn.cph = .enc ∧
      (block s 16).length = n ∧ (block s' 15).length = n ∧ (∃ t, exec (.chnEnc 16 false) s = .next t) ∧
      (∃ t, exec (.chnEnc 15 false) s' = .next t) ∧ block s 16 = block s' 15 ∧ chain s ≠ chain s') := by
  refine ⟨⟨toy_lawful 16, ?_, ?_, ?_, ?_, ?_, exec_completes _ _, exec_completes _ _, ?_, ?_⟩,
    ⟨toy_lawful 16, ?_, ?_, ?_, ?_, ?_, exec_completes _ _, exec_completes _ _, ?_, ?_⟩⟩ <;> decide +kernel

/-- The clauses of the sum and the product: P = 0 in both settings, P at 1 and at its top bit. -/
theorem witness_GfModIsPolynomialRemainder : (field .carryless 0 5 0).host.p = 0 ∧ (field .carryless 1 5 0).host.p ≠ 0 ∧
    (field .carryless (2 ^ 255) 5 0).host.p ≠ 0 := by decide +kernel

theorem witness_GfAddIsPolynomialSum :
    ((field .integer 0 1 1).host.p = 0 ∧ (field .integer 0 1 1).params.zeroArith = .integer) ∧
    ((field .carryless 0 1 1).host.p = 0 ∧ (field .carryless 0 1 1).params.zeroArith = .carryless) ∧
    (field .integer 1 1 1).host.p ≠ 0 := by decide +kernel

theorem witness_GfMulIsPolynomialProduct :
    ((field .integer 0 1 1).host.p = 0 ∧ (field .integer 0 1 1).params.zeroArith = .integer) ∧
    ((field .carryless 0 1 1).host.p = 0 ∧ (field .carryless 0 1 1).params.zeroArith = .carryless) ∧
    (field .integer (2 ^ 255) 1 1).host.p ≠ 0 := by decide +kernel

/-- A remainder in the statement's reading from one that can be computed. -/
theorem coprime_of_gcd (p a : Nat) (hp : p ≠ 0) (h0 : red p a ≠ 0) (h : polyGcd (red p a) p = 1) :
    toPoly a % toPoly p ≠ 0 ∧ IsCoprime (toPoly a % toPoly p) (toPoly p) := by
  rw [← toPoly_red p a hp]
  exact ⟨fun e => h0 ((toPoly_eq_zero_iff _).mp e), (polyGcd_eq_one_iff _ _).mp h⟩

theorem not_coprime_of_gcd (p a : Nat) (hp : p ≠ 0) (h0 : red p a ≠ 0) (h : polyGcd (red p a) p ≠ 1) :
    toPoly a % toPoly p ≠ 0 ∧ ¬IsCoprime (toPoly a % toPoly p) (toPoly p) := by
  rw [← toPoly_red p a hp]
  exact ⟨fun e => h0 ((toPoly_eq_zero_iff _).mp e), fun e => h ((polyGcd_eq_one_iff _ _).mpr e)⟩

theorem mod_eq_zero_of_red (p a : Nat) (hp : p ≠ 0) (h : red p a = 0) : toPoly a % toPoly p = 0 := by
  rw [← toPoly_red p a hp, h, toPoly_zero]

/-- The four clauses: P = 0, an operand that reduces to 0, one that shares a factor with P, one that is invertible. -/
theorem witness_GfInvIsTheInverse :
    (field .carryless 0 3 0).host.p = 0 ∧
    (toPoly (field .carryless 0x11B 0x11B 0).host.ga.toNat % toPoly (field .carryless 0x11B 0x11B 0).host.p.toNat = 0 ∧
      (field .carryless 0x11B 0x11B 0).host.p ≠ 0) ∧
    (toPoly (field .carryless 5 3 0).host.ga.toNat % toPoly (field .carryless 5 3 0).host.p.toNat ≠ 0 ∧
      ¬IsCoprime (toPoly (field .carryless 5 3 0).host.ga.toNat % toPoly (field .carryless 5 3 0).host.p.toNat)
        (toPoly (field .carryless 5 3 0).host.p.toNat)) ∧
    (toPoly (field .carryless 0x11B 0x153 0).host.ga.toNat % toPoly (field .carryless 0x11B 0x153 0).host.p.toNat ≠ 0 ∧
      IsCoprime (toPoly (field .carryless 0x11B 0x153 0).host.ga.toNat % toPoly (field .carryless 0x11B 0x153 0).host.p.toNat)
        (toPoly (field .carryless 0x11B 0x153 0).host.p.toNat)) :=
  ⟨by decide +kernel, ⟨mod_eq_zero_of_red _ _ (by decide +kernel) (by decide +kernel), by decide +kernel⟩,
    not_coprime_of_gcd _ _ (by decide +kernel) (by decide +kernel) (by decide +kernel),
    coprime_of_gcd _ _ (by decide +kernel) (by decide +kernel) (by decide +kernel)⟩

theorem witness_GfDivIsTheQuotient :
    (field .carryless 0 3 3).host.p = 0 ∧
    (toPoly (field .carryless 0x11B 1 0).host.gb.toNat % toPoly (field .carryless 0x11B 1 0).host.p.toNat = 0 ∧
      (field .carryless 0x11B 1 0).host.p ≠ 0) ∧
    (toPoly (field .carryless 5 1 3).host.gb.toNat % toPoly (field .carryless 5 1 3).host.p.toNat ≠ 0 ∧
      ¬IsCoprime (toPoly (field .carryless 5 1 3).host.gb.toNat % toPoly (field .carryless 5 1 3).host.p.toNat)
        (toPoly (field .carryless 5 1 3).host.p.toNat)) ∧
    (toPoly (field .carryless 0x11B 0 0x83).host.gb.toNat % toPoly (field .carryless 0x11B 0 0x83).host.p.toNat ≠ 0 ∧
      IsCoprime (toPoly (field .carryless 0x11B 0 0x83).host.gb.toNat % toPoly (field .carryless 0x11B 0 0x83).host.p.toNat)
        (toPoly (field .carryless 0x11B 0 0x83).host.p.toNat)) :=
  ⟨by decide +kernel, ⟨mod_eq_zero_of_red _ _ (by decide +kernel) (by decide +kernel), by decide +kernel⟩,
    not_coprime_of_gcd _ _ (by decide +kernel) (by decide +kernel) (by decide +kernel),
    coprime_of_gcd _ _ (by decide +kernel) (by decide +kernel) (by decide +kernel)⟩

/-- An invertible factor of degree below P's, and the product's run. -/
theorem witness_DivisionUndoesMultiplication :
    let s := field .carryless 0x11B 0x57 0x83
    s.host.p ≠ 0 ∧ IsCoprime (toPoly s.host.gb.toNat) (toPoly s.host.p.toNat) ∧ (toPoly s.host.p.toNat).degree ≠ 0 ∧
      ∃ t, exec .gfMul s = .next t := by
  refine ⟨by decide +kernel, (polyGcd_eq_one_iff _ _).mp (by decide +kernel), ?_, exec_completes _ _⟩
  have h : (toPoly 1).degree < (toPoly (field .carryless 0x11B 0x57 0x83).host.p.toNat).degree :=
    (degree_lt_degree_iff _ _).mpr (by decide +kernel)
  rw [toPoly_one, Polynomial.degree_one] at h
  exact ne_of_gt h

/-- Each refusal of GCM.SETIV and GCM.SETTAGLEN, and the legal lengths at their bounds. -/
theorem witness_GcmSetivAndSettaglenConfigure : toy8.params.bs ≠ .sixteen ∧
    (gcm0.params.bs = .sixteen ∧ 0 < 1 ∧ 65 > 64 ∧ gcm0.gcm.gph = .config) ∧ (gcmOpen .aad .none).gcm.gph = .aad ∧
    (gcmOpen .data .enc).gcm.gph = .data ∧ (gcmOpen .done .enc).gcm.gph = .done ∧
    (9 ≠ 4 ∧ 9 ≠ 8 ∧ 9 < 12) ∧ (17 ≠ 4 ∧ 17 ≠ 8 ∧ 16 < 17) := by decide +kernel

/-- One state for each cause, in the order of the statement. -/
theorem witness_GcmErrorsInOrder : toy8.params.bs ≠ .sixteen ∧
    (gcm0.params.bs = .sixteen ∧ Instr.gcmEnc 17 = .gcmEnc 17 ∧ 17 > 16) ∧
    (Instr.gcmFine ≠ .gcmEnc 17 ∧ (gcmOpen .done .enc).gcm.gph = .done) ∧
    ((gcmOpen .data .enc).gcm.gph = .data ∧ ¬(16 > 16)) ∧
    (let s : State := { gcmOpen .aad .none with gcm := { (gcmOpen .aad .none).gcm with aadpart := true } }
     s.gcm.gph ≠ .done ∧ s.gcm.gph ≠ .data ∧ s.gcm.aadpart = true) ∧
    ((gcmOpen .data .dec).gcm.gph ≠ .done ∧ (gcmOpen .data .dec).gcm.gdir = .dec) ∧
    (let s : State := { gcmOpen .data .enc with gcm := { (gcmOpen .data .enc).gcm with dpart := true } }
     s.gcm.gph ≠ .done ∧ s.gcm.gdir ≠ .dec ∧ s.gcm.dpart = true) ∧
    (let s := withKeybuf .aes
     s.params.bs = .sixteen ∧ s.gcm.gph = .config ∧ s.gcm.gdir = .none ∧ s.gcm.dpart = false ∧ s.gcm.aadpart = false ∧
       s.key.keyed = false) ∧
    ((aes16 0).gcm.gph = .config ∧ (aes16 0).key.keyed = true ∧ (aes16 0).gcm.givset = false) := by decide +kernel

/-- A 12-byte IV, and IVs of 1 and 64 bytes. -/
theorem witness_PresetStartsTheSession : ∀ l ∈ [12, 1, 64],
    let s : State := { gcm0 with gcm := { gcm0.gcm with givlen := l } }
    s.params.bs = .sixteen ∧ s.gcm.gph = .config ∧ s.gcm.aadpart = false ∧ s.key.keyed = true ∧ s.gcm.givset = true ∧
      1 ≤ s.gcm.givlen ∧ s.gcm.givlen ≤ 64 := by decide +kernel

theorem witness_AadFoldsOnce :
    let s := gcmOpen .aad .none
    s.params.bs = .sixteen ∧ s.gcm.gph = .aad ∧ s.gcm.aadpart = false ∧ (1 ≤ 1 ∧ 1 ≤ 16) ∧ (1 ≤ 16 ∧ 16 ≤ 16) := by
  decide +kernel

theorem witness_GcmDataCommandEquations :
    (let s := gcmOpen .aad .none
     s.params.bs = .sixteen ∧ s.gcm.gph = .aad ∧ s.gcm.gdir = .none ∧ s.gcm.dpart = false) ∧
    (let s := gcmOpen .data .dec
     s.params.bs = .sixteen ∧ s.gcm.gph = .data ∧ s.gcm.gdir = .dec ∧ s.gcm.dpart = false) ∧ (1 ≤ 16 ∧ 16 ≤ 16) := by
  decide +kernel

/-- The first command of a session with chunks of 0 and 16 bytes, and an empty chunk in an open session and in CONFIG. -/
theorem witness_EmptyGcmChunkOnlyPresets :
    (gcm0.params.bs = .sixteen ∧ gcm0.gcm.gph = .config ∧ gcm0.key.keyed = true ∧ gcm0.gcm.givset = true ∧
      gcm0.gcm.aadpart = false ∧ gcm0.gcm.dpart = false ∧ gcm0.gcm.gdir = .none ∧ 0 ≤ 16 ∧ 16 ≤ 16 ∧
      ∃ p, exec (.gcmAad 0) gcm0 = .next p) ∧
    (let s := gcmOpen .data .enc
     s.params.bs = .sixteen ∧ s.gcm.dpart = false ∧ s.gcm.gdir ≠ .dec ∧ (s.gcm.gph = .aad ∨ s.gcm.gph = .data)) ∧
    (gcm0.params.bs = .sixteen ∧ gcm0.gcm.dpart = false ∧ gcm0.gcm.gdir ≠ .enc ∧ gcm0.gcm.gph = .config ∧
      gcm0.gcm.aadpart = false) := by
  refine ⟨⟨?_, ?_, ?_, ?_, ?_, ?_, ?_, ?_, ?_, exec_completes _ _⟩, ?_, ?_⟩ <;> decide +kernel

theorem witness_GcmDecUndoesEnc :
    let s := gcmOpen .aad .none
    s.params.bs = .sixteen ∧ (s.gcm.gph = .aad ∨ s.gcm.gph = .data) ∧ s.gcm.gdir = .none ∧ s.gcm.dpart = false ∧
      ∃ t, exec (.gcmEnc 16) s = .next t :=
  ⟨by decide +kernel, by decide +kernel, by decide +kernel, by decide +kernel, exec_completes _ _⟩

/-- Both directions' clauses; a tag that agrees and one that does not. -/
theorem witness_GcmFinishCommandEquations :
    ((gcmOpen .data .enc).params.bs = .sixteen ∧ (gcmOpen .data .enc).gcm.gph = .data ∧
      (gcmOpen .data .enc).gcm.gdir ≠ .dec) ∧
    ((gcmOpen .aad .none).gcm.gph = .aad ∧ (gcmOpen .aad .none).gcm.gdir ≠ .enc) ∧
    after .gcmFind (withTagin 0x58e2fccefa7e3061367f1d57a4e7455a 16 (gcmOpen .aad .none)) code = some (0, 0) ∧
    after .gcmFind (withTagin 0 16 (gcmOpen .aad .none)) code = some (4, 1) := by decide +kernel

theorem witness_FindAcceptsExactlyTheTag :
    gcm0.params.bs = .sixteen ∧ gcm0.gcm.gph ≠ .done ∧ gcm0.gcm.gdir = .none ∧ Legal gcm0 ∧
      ∃ t, exec .gcmFine gcm0 = .next t ∧ t.status.err = false := by
  refine ⟨by decide +kernel, by decide +kernel, by decide +kernel, legal_of_check (by decide +kernel), ?_⟩
  obtain ⟨t, ht⟩ := exec_completes .gcmFine gcm0
  have h : after .gcmFine gcm0 (fun t => t.status.err) = some false := by decide +kernel
  rw [after, ht] at h
  exact ⟨t, ht, by simpa using h⟩

/-- One command into each of the four phases. -/
theorem witness_GcmPhaseTransitions :
    after .clear (gcmOpen .done .enc) (fun t => t.gcm.gph) = some .config ∧
    after (.gcmSetiv 12) (gcmOpen .done .enc) (fun t => t.gcm.gph) = some .config ∧
    after (.gcmDec 0) gcm0 (fun t => t.gcm.gph) = some .aad ∧
    after (.gcmEnc 1) gcm0 (fun t => t.gcm.gph) = some .data ∧
    after .gcmFind gcm0 (fun t => t.gcm.gph) = some .done := by decide +kernel

theorem witness_UnitsAreSeparate : (∃ t, exec .gfInv (field .carryless 0 3 0) = .next t) ∧
    after .gfInv (field .carryless 0 3 0) (fun t => t.status.err) = some true ∧
    (∃ t, exec (dataCommand .dec 4 true) busyMid = .next t) ∧ (∃ t, exec (finishCommand .enc) busyMid = .next t) ∧
    (∃ t, exec (.gcmAad 4) gcm0 = .next t) :=
  ⟨exec_completes _ _, by decide +kernel, exec_completes _ _, exec_completes _ _, exec_completes _ _⟩

/-- A command that changes each of the registers with one owner. -/
theorem witness_RegistersHaveOneOwner :
    after .reset (withKeybuf .toy) (fun t => t.host.keybuf != (withKeybuf .toy).host.keybuf) = some true ∧
    after .nop { gcm0 with status := { gcm0.status with ovr := true } } (fun t => t.status.ovr) = some false ∧
    after (.setmode 1) (withKeybuf .toy) (fun t => t.modes.mode) = some .cbc ∧
    after (.setpad 1) (withKeybuf .toy) (fun t => t.modes.pad) = some .bit ∧
    after (.gcmSettaglen 4) (withKeybuf .toy) (fun t => t.modes.taglen) = some 4 ∧
    after (.setkey 16 0) (withKeybuf .toy) (fun t => t.key.klen) = some 16 ∧
    after .waist (withWin 5 (withKeybuf .toy)) (fun t => t.results.wout.toNat) = some 5 ∧
    after .gfMod (field .carryless 0 5 0) (fun t => t.results.gr.toNat) = some 5 ∧
    after (.chnSetiv 16) (withIvin (withKeybuf .toy)) (fun t => t.chn.civ.toList) = some kt := by decide +kernel

end Sys2Proof.Tests
end

section
/-! PROOFS. The invariants of the state: the writes a step is made of, the zero fill beyond each fill count (10_state.md
R37, R45 to R51), the legal codes (R45, R46, R51, 60_exceptions.md R402, R403), all three invariants after reset (R58), and
the mirror words (R33 to R35). -/

namespace Sys2Proof.Machine

/-! ### One step -/

/-- A host step leaves everything but the status flags BUSY and OVR, the host's registers, PEND and the outside, or puts
the block at its reset values. -/
theorem hostStep_cases {s t : State} (h : hostStep s = .next t) :
    (∃ b o r v e, t = { s with status := { s.status with busy := b, ovr := o }, host := r, pend := v, env := e }) ∨
    ∃ e, t = { State.resetWith s.params with env := e } := by
  unfold hostStep at h
  split at h
  · exact .inl ⟨_, _, _, _, _, (Host.Outcome.next.inj h).symm⟩
  · rcases hostEvent_cases h with ⟨_, rfl⟩ | rfl | ⟨_, rfl⟩ | ⟨_, rfl⟩ | ⟨_, rfl⟩
    · exact .inl ⟨_, _, _, _, _, rfl⟩
    · exact .inl ⟨_, _, _, _, _, rfl⟩
    · exact .inl ⟨_, _, _, _, _, rfl⟩
    · exact .inl ⟨_, _, _, _, _, rfl⟩
    · exact .inr ⟨_, rfl⟩

/-- An engine step is the completion of a command's rule, or of an error raised in the state as it is. -/
theorem engineStep_complete {s t : State} (h : engineStep s = .next t) :
    ∃ r : Run, ((∃ i, r = ruleOf i s) ∨ ∃ e, r = raise s e) ∧
      t = { r.state with status := r.state.status.complete r.error } := by
  rcases engineStep_cases h with ⟨i, -, hi⟩ | ⟨e, -, rfl⟩
  · exact ⟨_, .inl ⟨i, rfl⟩, (exec_next_iff i s t).mp hi⟩
  · exact ⟨_, .inr ⟨_, rfl⟩, rfl⟩

/-! ### What the rules of the configuration and field commands can do -/

/-- SETKEY raises an error and leaves the state, or binds a key of 1 to 32 bytes. -/
theorem setkeyRule_cases (imm ktype : Nat) (s : State) :
    (∃ e, setkeyRule imm ktype s = raise s e) ∨
    (1 ≤ imm ∧ imm ≤ 32 ∧ setkeyRule imm ktype s = succeed (clearActions (bindKey imm s))) := by
  unfold setkeyRule
  split
  · exact .inl ⟨_, rfl⟩
  · split
    · exact .inl ⟨_, rfl⟩
    · split
      · exact .inl ⟨_, rfl⟩
      · exact .inr ⟨by omega, by omega, rfl⟩

/-- SETMODE writes MODE at most. -/
theorem setmodeRule_state (imm : Nat) (s : State) :
    ∃ m, (setmodeRule imm s).state = { s with modes := { s.modes with mode := m } } := by
  unfold setmodeRule
  split
  · exact ⟨s.modes.mode, rfl⟩
  · exact ⟨_, rfl⟩

/-- SETPAD writes PAD at most. -/
theorem setpadRule_state (imm : Nat) (s : State) :
    ∃ p, (setpadRule imm s).state = { s with modes := { s.modes with pad := p } } := by
  unfold setpadRule
  split
  · exact ⟨s.modes.pad, rfl⟩
  · split
    · exact ⟨s.modes.pad, rfl⟩
    · exact ⟨_, rfl⟩

/-- CHN.SETIV raises an error and leaves the state, or puts BS bytes into CIV and CHAIN. -/
theorem chnSetivRule_cases (imm : Nat) (s : State) :
    (∃ e, chnSetivRule imm s = raise s e) ∨
    chnSetivRule imm s = succeed { s with chn := { s.chn with
      civ := fill 16 (ivOperand s s.bsz), chain := fill 16 (ivOperand s s.bsz) } } := by
  unfold chnSetivRule
  split
  · exact .inl ⟨_, rfl⟩
  · exact .inr rfl

/-- GF.INV writes GR at most. -/
theorem gfInvRule_state (s : State) : ∃ g, (gfInvRule s).state = { s with results := { s.results with gr := g } } := by
  unfold gfInvRule
  split
  · exact ⟨s.results.gr, rfl⟩
  · exact ⟨_, rfl⟩

/-- GF.DIV writes GR at most. -/
theorem gfDivRule_state (s : State) : ∃ g, (gfDivRule s).state = { s with results := { s.results with gr := g } } := by
  unfold gfDivRule
  split
  · exact ⟨s.results.gr, rfl⟩
  · exact ⟨_, rfl⟩

/-! ### What the shared operations of the two drivers can do -/

/-- The next CHAIN is no longer than a block: a block of the transform, or the ciphertext block of a decode. -/
theorem nextChain_length_le {dir : Dir} {x b : Bytes} {s : State} (hx : dir = .dec → x.length ≤ s.bsz)
    (hb : nextChain dir x s = some b) : b.length ≤ s.bsz := by
  unfold nextChain at hb
  split at hb <;> cases hb <;> simp [hx]

/-- GCM.FIND ends in one state, whether the tags agree or not. -/
theorem compareTag_state (s : State) : ∃ acc, (compareTag s).state = { s with
    gcm := { s.gcm with acc := acc, gph := .done }
    results := { s.results with tag := fill 16 [] }
    status := { s.status with tagv := false } } := by
  obtain ⟨acc, hr | hr⟩ := compareTag_eq s
  · exact ⟨acc, by rw [hr]; rfl⟩
  · exact ⟨acc, by rw [hr]; rfl⟩

/-! ### The writes a step is made of -/

/-- A predicate that every single write of a step keeps, with what the rules know of the value written: the reset values,
a host step's writes and the status write, then the registers of 10_state.md in the groups that commands write together.
`KeptByWrites.step` ties it to the machine. -/
structure KeptByWrites (P : State → Prop) : Prop where
  reset : ∀ p e, P { State.resetWith p with env := e }
  host : ∀ s b o r v e, P s →
    P { s with status := { s.status with busy := b, ovr := o }, host := r, pend := v, env := e }
  status : ∀ s e, P s → P { s with status := s.status.complete e }
  output : ∀ s b, P s → P (out b s)
  numbers : ∀ s w g, P s → P { s with results := { s.results with wout := w, gr := g } }
  buffer : ∀ s b, P s → P (setBuffer b s)
  phase : ∀ s ph, P s → P (setCph ph s)
  chain : ∀ s (b : Bytes), P s → b.length ≤ s.bsz → P (setChain b s)
  reseed : ∀ s, P s → P { s with chn := { s.chn with chain := s.chn.civ } }
  civ : ∀ s (b : Bytes), P s → b.length ≤ s.bsz → P { s with chn := { s.chn with civ := fill 16 b } }
  modes : ∀ s m p, P s → P { s with modes := { s.modes with mode := m, pad := p } }
  taglen : ∀ s, ∀ n ∈ tagLengths, P s → P { s with modes := { s.modes with taglen := n } }
  bind : ∀ s l, 1 ≤ l → l ≤ 32 → P s → P (bindKey l s)
  release : ∀ s, P s → P (releaseKeyAndIvs s)
  giv : ∀ s n, 1 ≤ n → n ≤ 64 → P s →
    P { s with gcm := { s.gcm with giv := fill 64 (ivOperand s n), givlen := n, givset := true } }
  session : ∀ s (g : GcmState) x v, g.giv = s.gcm.giv → g.givlen = s.gcm.givlen → g.givset = s.gcm.givset → P s →
    P { s with gcm := g, results := { s.results with tag := x }, status := { s.status with tagv := v } }

namespace KeptByWrites

variable {P : State → Prop} (K : KeptByWrites P) {s : State} (hs : P s)

include K hs

theorem clearOut : P (clearOut s) := K.output s [] hs

theorem gcmSessionReset : P (gcmSessionReset s) := K.session s _ _ _ rfl rfl rfl hs

theorem clearActions : P (clearActions s) :=
  K.clearOut (K.gcmSessionReset (K.phase _ .idle (K.buffer _ [] (K.reseed s hs))))

theorem setGr (v : Nat) : P (setGr v s) := K.numbers s s.results.wout _ hs

/-- process_block writes at most one block into CHAIN. -/
theorem processBlock (dir : Dir) (x : Bytes) (hx : dir = .dec → x.length ≤ s.bsz) :
    P { s with chn := { s.chn with chain := ((nextChain dir x s).map (fill 16)).getD s.chn.chain } } := by
  cases hn : nextChain dir x s with
  | none => exact hs
  | some b => exact K.chain s b hs (nextChain_length_le hx hn)

theorem absorb (dir : Dir) (l : Nat) : P (absorb dir l s) := by
  unfold Machine.absorb
  simp only
  split
  · rw [processBlock_state]
    exact K.buffer _ _ (K.output _ _ (K.processBlock hs _ _ fun _ => List.length_take_le _ _))
  · exact K.buffer _ _ hs

theorem chnDataRule (dir : Dir) (imm : Nat) (nc : Bool) : P (chnDataRule dir imm nc s).state := by
  rcases chnDataRule_cases dir imm nc s with ⟨e, hr⟩ | ⟨-, -, -, c, rfl | rfl, hr⟩ <;> rw [hr]
  · exact hs
  · exact K.phase _ _ (K.absorb hs dir imm)
  · exact K.phase _ _ (K.absorb (K.reseed s hs) dir imm)

theorem chnFineRule : P (chnFineRule s).state := by
  rcases chnFineRule_cases s with ⟨e, hr⟩ | ⟨-, -, ⟨-, -, hr⟩ | ⟨-, hr⟩⟩ <;> rw [hr]
  · exact hs
  · exact K.phase _ _ (K.buffer _ [] hs)
  · exact K.phase _ _ (K.buffer _ [] (K.output _ _ (K.processBlock hs .enc _ nofun)))

theorem chnFindRule : P (chnFindRule s).state := by
  have hblock := K.processBlock hs .dec (first s.chn.ibuf s.bsz) fun _ => first_length_le _ _
  rcases chnFindRule_cases s with ⟨e, hr⟩ | ⟨-, -, ⟨-, -, hr⟩ | ⟨-, -, hr⟩ | ⟨-, -, ⟨-, hr⟩ | ⟨p, -, hr⟩⟩⟩ <;> rw [hr]
  · exact hs
  · exact K.phase _ _ hs
  · exact K.phase _ _ (K.buffer _ [] hs)
  · exact K.phase _ _ (K.buffer _ [] hblock)
  · exact K.phase _ _ (K.output _ _ (K.buffer _ [] hblock))

theorem chnSetivRule (imm : Nat) : P (chnSetivRule imm s).state := by
  have hiv : (ivOperand s s.bsz).length ≤ s.bsz := first_length_le _ _
  rcases chnSetivRule_cases imm s with ⟨e, hr⟩ | hr <;> rw [hr]
  · exact hs
  · exact K.chain _ _ (K.civ s _ hs hiv) hiv

theorem setkeyRule (imm ktype : Nat) : P (setkeyRule imm ktype s).state := by
  rcases setkeyRule_cases imm ktype s with ⟨e, hr⟩ | ⟨h1, h32, hr⟩ <;> rw [hr]
  · exact hs
  · exact K.clearActions (K.bind s imm h1 h32 hs)

theorem opens {t : State} (ho : Opens s t) : P t := by
  rcases ho with ⟨-, -, -, rfl⟩ | ⟨-, rfl⟩
  · exact K.session s _ s.results.tag s.status.tagv rfl rfl rfl hs
  · exact hs

theorem absorbAad (l : Nat) : P (absorbAad l s) := by
  obtain ⟨_, _, he⟩ := absorbAad_eq l s
  rw [he]
  exact K.session s _ s.results.tag s.status.tagv rfl rfl rfl hs

theorem cryptData (dir : Dir) (l : Nat) : P (cryptData dir l s) := by
  unfold Machine.cryptData
  split
  · exact hs
  · exact K.session (out _ s) _ s.results.tag s.status.tagv rfl rfl rfl (K.output s _ hs)

theorem gcmSetivRule (imm : Nat) : P (gcmSetivRule imm s).state := by
  rcases gcmSetivRule_cases imm s with ⟨e, hr⟩ | ⟨h1, h64, -, hr⟩ <;> rw [hr]
  · exact hs
  · exact K.gcmSessionReset (K.giv s imm h1 h64 hs)

theorem gcmSettaglenRule (imm : Nat) : P (gcmSettaglenRule imm s).state := by
  rcases gcmSettaglenRule_cases imm s with ⟨e, hr⟩ | ⟨hmem, hr⟩ <;> rw [hr]
  · exact hs
  · exact K.taglen s imm hmem hs

theorem gcmAadRule (imm : Nat) : P (gcmAadRule imm s).state := by
  rcases gcmAadRule_cases imm s with ⟨e, hr⟩ | ⟨-, -, -, -, t, ho, hr⟩ <;> rw [hr]
  · exact hs
  · exact K.absorbAad (K.opens hs ho) imm

theorem gcmDataRule (dir : Dir) (imm : Nat) : P (gcmDataRule dir imm s).state := by
  rcases gcmDataRule_cases dir imm s with ⟨e, hr⟩ | ⟨-, -, -, -, -, t, ho, hr⟩ <;> rw [hr]
  · exact hs
  · exact K.cryptData (K.opens hs ho) dir imm

theorem gcmFineRule : P (gcmFineRule s).state := by
  rcases gcmFineRule_cases s with ⟨e, hr⟩ | ⟨-, -, -, t, ho, hr⟩ <;> rw [hr]
  · exact hs
  · exact K.session t _ _ _ rfl rfl rfl (K.opens hs ho)

theorem gcmFindRule : P (gcmFindRule s).state := by
  rcases gcmFindRule_cases s with ⟨e, hr⟩ | ⟨-, -, -, t, ho, hr⟩ <;> rw [hr]
  · exact hs
  · obtain ⟨acc, he⟩ := compareTag_state t
    rw [he]
    exact K.session t _ _ _ rfl rfl rfl (K.opens hs ho)

/-- Every command's rule is made of the writes. -/
theorem rule (i : Instr) : P (ruleOf i s).state := by
  cases i with
  | nop => exact K.host s s.status.busy false s.host s.pend s.env hs
  | reset => exact K.clearActions (K.release s hs)
  | clear => exact K.clearActions hs
  | setkey imm ktype => exact K.setkeyRule hs imm ktype
  | setmode imm =>
    obtain ⟨m, hr⟩ := setmodeRule_state imm s
    rw [ruleOf, hr]
    exact K.modes s m s.modes.pad hs
  | setpad imm =>
    obtain ⟨p, hr⟩ := setpadRule_state imm s
    rw [ruleOf, hr]
    exact K.modes s s.modes.mode p hs
  | waist => exact K.numbers s _ s.results.gr hs
  | chnSetiv imm => exact K.chnSetivRule hs imm
  | chnEnc imm nc => exact K.chnDataRule (K.clearOut hs) .enc imm nc
  | chnDec imm nc => exact K.chnDataRule (K.clearOut hs) .dec imm nc
  | chnFine => exact K.chnFineRule (K.clearOut hs)
  | chnFind => exact K.chnFindRule (K.clearOut hs)
  | gfMod | gfAdd | gfMul | gfGmm => exact K.setGr hs _
  | gfInv =>
    obtain ⟨g, hr⟩ := gfInvRule_state s
    rw [ruleOf, hr]
    exact K.numbers s s.results.wout g hs
  | gfDiv =>
    obtain ⟨g, hr⟩ := gfDivRule_state s
    rw [ruleOf, hr]
    exact K.numbers s s.results.wout g hs
  | gcmSetiv imm => exact K.gcmSetivRule hs imm
  | gcmSettaglen imm => exact K.gcmSettaglenRule hs imm
  | gcmAad imm => exact K.gcmAadRule (K.clearOut hs) imm
  | gcmEnc imm => exact K.gcmDataRule (K.clearOut hs) .enc imm
  | gcmDec imm => exact K.gcmDataRule (K.clearOut hs) .dec imm
  | gcmFine => exact K.gcmFineRule (K.clearOut hs)
  | gcmFind => exact K.gcmFindRule (K.clearOut hs)

/-- Every step is made of the writes: a rule and the status write, the status write alone, a host step or the reset. -/
theorem step {t : State} (h : step s = .next t) : P t := by
  unfold Machine.step at h
  split at h
  · obtain ⟨r, ⟨i, rfl⟩ | ⟨e, rfl⟩, rfl⟩ := engineStep_complete h
    · exact K.status _ _ (K.rule hs i)
    · exact K.status _ _ hs
  · rcases hostStep_cases h with ⟨b, o, r, v, e, rfl⟩ | ⟨e, rfl⟩
    · exact K.host s b o r v e hs
    · exact K.reset _ e

end KeptByWrites

/-! ### Zero fill -/

/-- A filled register is 0 beyond the byte string. -/
theorem fill_getElem_eq_zero {n k : Nat} {b : Bytes} (hb : b.length ≤ k) (i : Fin n) (hi : k ≤ i.val) :
    (fill n b)[i] = 0 := by
  have h : b.length ≤ i.val := hb.trans hi
  simp [List.getD_eq_getElem?_getD, h]

theorem resetWith_zeroFilled (p : Params) : ZeroFilled (State.resetWith p) := by
  constructor <;> simp [State.resetWith]

/-- Each write of a fill count writes its register zero filled to that count, and CIV and CHAIN get at most BS bytes. -/
theorem zeroFilled_keptByWrites : KeptByWrites ZeroFilled where
  reset p _ := { resetWith_zeroFilled p with }
  host _ _ _ _ _ _ h := { h with }
  status _ _ h := { h with dout := by simpa using h.dout }
  output _ _ h := { h with dout := fill_getElem_eq_zero le_rfl }
  numbers _ _ _ h := { h with }
  buffer _ _ h := { h with ibuf := fill_getElem_eq_zero le_rfl }
  phase _ _ h := { h with }
  chain _ _ h hb := { h with chain := fill_getElem_eq_zero hb }
  reseed _ h := { h with chain := h.civ }
  civ _ _ h hb := { h with civ := fill_getElem_eq_zero hb }
  modes _ _ _ h := { h with }
  taglen _ _ _ h := { h with }
  bind _ _ _ _ h := { h with key := fill_getElem_eq_zero (first_length_le _ _) }
  release _ h :=
    { h with
      key := fill_getElem_eq_zero (Nat.zero_le _)
      giv := fill_getElem_eq_zero (Nat.zero_le _)
      civ := fill_getElem_eq_zero (Nat.zero_le _) }
  giv _ _ _ _ h := { h with giv := fill_getElem_eq_zero (first_length_le _ _) }
  session _ _ _ _ hgiv hlen _ h := { h with giv := by simpa only [hgiv, hlen] using h.giv }

/-- Settles O9: each write of a step keeps the zero fill. -/
theorem stepKeepsZeroFill : Obligations.StepKeepsZeroFill := fun _ _ hs h => zeroFilled_keptByWrites.step hs h

/-! ### Legal codes -/

/-- The codes of every cause stand in the table of R403. -/
theorem errorPairs_of_cause (e : CmdError) : (e.ecode.toNat, e.edet.toNat) ∈ errorPairs := by
  cases e <;> decide

/-- The status write names a result, whatever STATUS held before (R402). -/
theorem Status.complete_namesResult (st : Status) (e : Option CmdError) : StatusNamesResult (st.complete e) := by
  cases e with
  | none => exact .inl ⟨rfl, rfl, rfl⟩
  | some e => exact .inr ⟨rfl, errorPairs_of_cause e⟩

theorem resetWith_legal (p : Params) : Legal (State.resetWith p) where
  status := .inl ⟨rfl, rfl, rfl⟩
  taglen := by simp [State.resetWith]
  klen := Nat.zero_le _
  givlen := Nat.zero_le _
  keyLength := nofun
  schedule := rfl

/-- The codes and lengths are written by the status write, SETKEY, RESET, GCM.SETIV and GCM.SETTAGLEN only, with legal
values. -/
theorem legal_keptByWrites : KeptByWrites Legal where
  reset p _ := { resetWith_legal p with }
  host _ _ _ _ _ _ h := { h with }
  status s e h := { h with status := s.status.complete_namesResult e }
  output _ _ h := { h with }
  numbers _ _ _ h := { h with }
  buffer _ _ h := { h with }
  phase _ _ h := { h with }
  chain _ _ h _ := { h with }
  reseed _ h := { h with }
  civ _ _ h _ := { h with }
  modes _ _ _ h := { h with }
  taglen _ _ hmem h := { h with taglen := hmem }
  bind _ _ h1 h32 h := { h with klen := h32, keyLength := fun _ => h1, schedule := rfl }
  release _ h := { h with klen := Nat.zero_le _, givlen := Nat.zero_le _, keyLength := nofun, schedule := rfl }
  giv _ _ _ h64 h := { h with givlen := h64 }
  session _ _ _ _ _ hlen _ h := { h with givlen := hlen ▸ h.givlen }

/-- Settles O10: each write of a step keeps the legal codes. -/
theorem stepKeepsLegalCodes : Obligations.StepKeepsLegalCodes := fun _ _ hs h => legal_keptByWrites.step hs h

/-! ### The state after reset -/

theorem resetWith_consistent (p : Params) : Consistent (State.resetWith p) where
  idleEmpty _ := rfl
  buffered := Nat.zero_le _
  heldOnly h := absurd h (bsz_pos _).ne
  sessionKeyed h := absurd rfl h
  ivLength := nofun
  unkeyed _ := rfl
  shortData := nofun
  latched h := absurd rfl h
  tagValid := nofun
  outputBound := ⟨Nat.zero_le _, Nat.zero_le _⟩

/-- Settles O11, from the values of R58. -/
theorem resetMeetsTheInvariants : Obligations.ResetMeetsTheInvariants :=
  ⟨fun p => ⟨resetWith_consistent p, resetWith_zeroFilled p, resetWith_legal p⟩, rfl⟩

/-! ### The mirror words -/

theorem readWord_eq_idle {s : State} (hb : s.status.busy = false) (off : Nat) :
    readWord s off = idleReadWord s off := by
  simp [readWord, hb]

theorem bit_toNat (b : Bool) : (bit b).toNat = b.toNat := BitVec.toNat_ofBool b

/-- STATUS as the sum of its fields (R33). -/
theorem statusWord_toNat (s : State) (ho : s.status.outlen < 32) : (statusWord s).toNat =
    s.status.busy.toNat + 2 * s.status.err.toNat + 2 ^ 2 * s.status.ovr.toNat + 2 ^ 3 * s.status.tagv.toNat +
      2 ^ 4 * s.status.ecode.toNat + 2 ^ 8 * s.status.edet.toNat + 2 ^ 16 * s.status.outlen := by
  simp only [statusWord, toNat_append_eq, bit_toNat, BitVec.toNat_ofNat]
  omega

/-- CFG as the sum of its fields (R34). -/
theorem cfgWord_toNat (s : State) (ht : s.modes.taglen < 32) (hk : s.key.klen < 64) : (cfgWord s).toNat =
    s.modes.mode.code.toNat + 2 ^ 4 * s.modes.pad.code.toNat + 2 ^ 8 * s.modes.taglen + 2 ^ 16 * s.params.bs.bytes +
      2 ^ 24 * s.key.keyed.toNat + 2 ^ 25 * s.gcm.givset.toNat + 2 ^ 26 * s.key.klen := by
  have hb := bsz_le s
  rw [bsz_eq] at hb
  simp only [cfgWord, toNat_append_eq, bit_toNat, BitVec.toNat_ofNat]
  omega

/-- STATE as the sum of its fields (R35). -/
theorem stateWord_toNat (s : State) (hi : s.chn.iblen < 32) (hg : s.gcm.givlen < 128) : (stateWord s).toNat =
    s.chn.iblen + 2 ^ 8 * s.chn.cph.code.toNat + 2 ^ 12 * s.gcm.gph.code.toNat + 2 ^ 14 * s.gcm.aadpart.toNat +
      2 ^ 15 * s.gcm.dpart.toNat + 2 ^ 16 * s.gcm.gdir.code.toNat + 2 ^ 18 * s.gcm.givlen := by
  simp only [stateWord, toNat_append_eq, bit_toNat, BitVec.toNat_ofNat]
  omega

/-- The seven tag lengths are at most a block. -/
theorem Legal.taglen_le {s : State} (h : Legal s) : s.modes.taglen ≤ 16 := by
  have hle : ∀ n ∈ tagLengths, n ≤ 16 := by decide
  exact hle _ h.taglen

/-- Settles O21: the words as sums of fields whose bounds the invariants give, and the codes as the tables' numbers. -/
theorem mirrorWordFields : Obligations.MirrorWordFields := by
  intro s hc hl hb mode pad cph gph gdir bs
  have hmode : s.modes.mode.code.toNat = mode := by simp only [mode]; cases s.modes.mode <;> rfl
  have hpad : s.modes.pad.code.toNat = pad := by simp only [pad]; cases s.modes.pad <;> rfl
  have hcph : s.chn.cph.code.toNat = cph := by simp only [cph]; cases s.chn.cph <;> rfl
  have hgph : s.gcm.gph.code.toNat = gph := by simp only [gph]; cases s.gcm.gph <;> rfl
  have hgdir : s.gcm.gdir.code.toNat = gdir := by simp only [gdir]; cases s.gcm.gdir <;> rfl
  have hbs : s.params.bs.bytes = bs := by simp only [bs]; cases s.params.bs <;> rfl
  have hib : s.chn.iblen ≤ 16 := hc.buffered.trans (bsz_le s)
  rw [readWord_eq_idle hb, readWord_eq_idle hb, readWord_eq_idle hb]
  refine ⟨?_, ?_, ?_⟩
  · have hstatus := statusWord_toNat s (by have := hc.outputBound.1; omega)
    rw [hb, Bool.toNat_false, Nat.zero_add] at hstatus
    exact hstatus
  · rw [← hmode, ← hpad, ← hbs]
    exact cfgWord_toNat s (by have := hl.taglen_le; omega) (by have := hl.klen; omega)
  · rw [← hcph, ← hgph, ← hgdir]
    exact stateWord_toNat s (by omega) (by have := hl.givlen; omega)

end Sys2Proof.Machine
end

section
/-! PROOFS. The register window (20_memory.md): the map as a partition of the aligned offsets into the words of the
registers (R81), what a write of one word does to the words read (R83, R86 to R88), and the host's steps (R80, R82, R84). -/

namespace Sys2Proof.Machine

/-! ### The map by registers -/

/-- The row of each register (R81). `rowAt_eq_some_iff` ties it to the map. -/
def WinReg.row : WinReg → MapRow
  | .id => ⟨0x000, 4, .id, .ro⟩
  | .cmd => ⟨0x004, 4, .cmd, .wo⟩
  | .status => ⟨0x008, 4, .status, .ro⟩
  | .cfg => ⟨0x00C, 4, .cfg, .ro⟩
  | .state => ⟨0x010, 4, .state, .ro⟩
  | .win => ⟨0x014, 4, .win, .rw⟩
  | .woutLo => ⟨0x018, 4, .woutLo, .ro⟩
  | .woutHi => ⟨0x01C, 4, .woutHi, .ro⟩
  | .din => ⟨0x020, 16, .din, .rw⟩
  | .dout => ⟨0x030, 16, .dout, .ro⟩
  | .tagin => ⟨0x040, 16, .tagin, .rw⟩
  | .tag => ⟨0x050, 16, .tag, .ro⟩
  | .keybuf => ⟨0x060, 32, .keybuf, .wo⟩
  | .ivin => ⟨0x080, 64, .ivin, .rw⟩
  | .ga => ⟨0x0C0, 32, .ga, .rw⟩
  | .gb => ⟨0x0E0, 32, .gb, .rw⟩
  | .gr => ⟨0x100, 32, .gr, .ro⟩
  | .p => ⟨0x120, 32, .p, .rw⟩

/-- An offset lies in a register. -/
abbrev WinReg.Covers (r : WinReg) (off : Nat) : Prop := r.row.offset ≤ off ∧ off < r.row.offset + r.row.size

@[simp] theorem WinReg.row_reg (r : WinReg) : r.row.reg = r := by cases r <;> rfl

theorem WinReg.row_mem (r : WinReg) : r.row ∈ windowMap := by cases r <;> decide

theorem windowMap_eq_row : ∀ row ∈ windowMap, row = row.reg.row := by decide

/-- No two rows of the map overlap. -/
theorem windowMap_disjoint : ∀ a ∈ windowMap, ∀ b ∈ windowMap,
    a.offset < b.offset + b.size → b.offset < a.offset + a.size → a = b := by decide +kernel

/-- Registers are made of whole words, at aligned offsets inside the window. -/
theorem WinReg.row_bounds (r : WinReg) :
    r.row.offset % 4 = 0 ∧ r.row.size % 4 = 0 ∧ r.row.offset + r.row.size ≤ 0x400 := by cases r <;> decide

theorem rowAt_eq_some_iff (off : Nat) (row : MapRow) : rowAt off = some row ↔ ∃ r : WinReg, row = r.row ∧ r.Covers off := by
  constructor
  · intro h
    have hrow := windowMap_eq_row row (List.mem_of_find?_eq_some h)
    have hin : row.offset ≤ off ∧ off < row.offset + row.size := by simpa using List.find?_some h
    rw [hrow] at hin
    exact ⟨row.reg, hrow, hin⟩
  · rintro ⟨r, rfl, hr⟩
    obtain ⟨b, hb⟩ : ∃ b, rowAt off = some b :=
      Option.isSome_iff_exists.mp (List.find?_isSome.mpr ⟨r.row, r.row_mem, by simpa using hr⟩)
    have hin : b.offset ≤ off ∧ off < b.offset + b.size := by simpa using List.find?_some hb
    rw [hb, windowMap_disjoint b (List.mem_of_find?_eq_some hb) r.row r.row_mem (by omega) (by omega)]

/-- An aligned offset is reserved or it is that of a word of a register. -/
theorem reserved_or_word {off : Nat} (h4 : off % 4 = 0) :
    rowAt off = none ∨ ∃ (r : WinReg) (k : Nat), 4 * k + 3 < r.row.size ∧ off = r.row.offset + 4 * k := by
  cases h : rowAt off with
  | none => exact .inl rfl
  | some row =>
    obtain ⟨r, -, hlo, hhi⟩ := (rowAt_eq_some_iff off row).mp h
    obtain ⟨ho, hs, -⟩ := r.row_bounds
    exact .inr ⟨r, (off - r.row.offset) / 4, by omega, by omega⟩

section
variable (s : State) {r : WinReg} {k : Nat} (hk : 4 * k + 3 < r.row.size)

include hk

theorem rowByBounds_word : rowByBounds (r.row.offset + 4 * k) = some r.row := by
  obtain ⟨ho, -, hend⟩ := r.row_bounds
  rw [← rowAt_eq _ (by omega) (by omega)]
  exact (rowAt_eq_some_iff _ _).mpr ⟨r, rfl, by omega, by omega⟩

/-- The host reads word k of a register at its offset (R81). -/
theorem idleReadWord_word : idleReadWord s (r.row.offset + 4 * k) = readReg s r k := by
  obtain ⟨ho, -, hend⟩ := r.row_bounds
  rw [idleReadWord_of_row s _ _ (by omega) (by omega) (rowByBounds_word hk)]
  simp

end

/-! ### Accesses without effect -/

/-- A write where there is no register, or a read-only one, changes nothing, busy or not (R82, R83). -/
theorem writeWord_of_readOnly (s : State) {off : Nat} (v : Word) (h : ∀ r : WinReg, r.Covers off → r.row.access = .ro) :
    writeWord s off v = s := by
  unfold writeWord
  cases hrow : rowAt off with
  | none => rfl
  | some row =>
    obtain ⟨r, rfl, hr⟩ := (rowAt_eq_some_iff off row).mp hrow
    exact if_pos (h r hr)

/-- A write of a register that is not read-only with BUSY = 1 sets OVR and does nothing else (R472). -/
theorem writeWord_of_busy {s : State} {off : Nat} (v : Word) {r : WinReg} (hr : r.Covers off) (ha : r.row.access ≠ .ro)
    (hb : s.status.busy = true) : writeWord s off v = { s with status := { s.status with ovr := true } } := by
  unfold writeWord
  rw [(rowAt_eq_some_iff off r.row).mpr ⟨r, rfl, hr⟩]
  simp [ha, hb]

/-- A read where there is no register, or a write-only one, gives 0, busy or not (R82, R83). -/
theorem readWord_of_writeOnly (s : State) {off : Nat} (h : ∀ r : WinReg, r.Covers off → r.row.access = .wo) :
    readWord s off = 0 := by
  unfold readWord busyReadWord idleReadWord
  cases hrow : rowAt off with
  | none => exact ite_self 0
  | some row =>
    obtain ⟨r, rfl, hr⟩ := (rowAt_eq_some_iff off row).mp hrow
    have ha := h r hr
    cases r
    case cmd => exact ite_self 0
    case keybuf => exact ite_self 0
    all_goals exact absurd ha (by decide)

/-! ### A write of one word with BUSY = 0 -/

theorem writeReg_of_readOnly (s : State) {r : WinReg} (k : Nat) (v : Word) (ha : r.row.access = .ro) :
    writeReg s r k v = s := by
  cases r
  case cmd | win | din | tagin | keybuf | ivin | ga | gb | p => exact absurd ha (by decide)
  all_goals rfl

/-- The host writes word k of a register at its offset (R81). -/
theorem writeWord_word {s : State} {r : WinReg} {k : Nat} (v : Word) (hb : s.status.busy = false)
    (hk : 4 * k + 3 < r.row.size) : writeWord s (r.row.offset + 4 * k) v = writeReg s r k v := by
  obtain ⟨ho, -, hend⟩ := r.row_bounds
  by_cases ha : r.row.access = .ro
  · rw [writeReg_of_readOnly s k v ha, writeWord, rowAt_eq _ (by omega) (by omega), rowByBounds_word hk]
    exact if_pos ha
  · rw [writeWord_of_row s _ v _ hb (by omega) (by omega) (rowByBounds_word hk) ha]
    simp

/-- A write of any register but CMD writes the host's registers only (R86). -/
theorem writeReg_frame (s : State) {r : WinReg} (k : Nat) (v : Word) (hr : r ≠ .cmd) :
    writeReg s r k v = { s with host := (writeReg s r k v).host } := by
  cases r
  case cmd => exact absurd rfl hr
  all_goals rfl

theorem statusWord_host (s : State) (h : HostRegs) : statusWord { s with host := h } = statusWord s := rfl

theorem cfgWord_host (s : State) (h : HostRegs) : cfgWord { s with host := h } = cfgWord s := rfl

theorem stateWord_host (s : State) (h : HostRegs) : stateWord { s with host := h } = stateWord s := rfl

/-- A word written to a read-write register reads back. -/
theorem readReg_writeReg_self (s : State) {r : WinReg} {k : Nat} (v : Word) (ha : r.row.access = .rw)
    (hk : 4 * k + 3 < r.row.size) : readReg (writeReg s r k v) r k = v := by
  cases r
  case win => rfl
  case din | tagin | ivin => exact arrayWord_setArrayWord_self _ k v hk
  case ga | gb | p => exact intWord_setIntWord_self _ k v (by simp only [WinReg.row] at hk; omega)
  all_goals exact absurd ha (by decide)

/-- A write leaves the other words of its register. -/
theorem readReg_writeReg_of_index_ne (s : State) {r : WinReg} {j k : Nat} (v : Word) (hr : r ≠ .cmd)
    (hk : 4 * k + 3 < r.row.size) (hj : 4 * j + 3 < r.row.size) (hne : j ≠ k) :
    readReg (writeReg s r k v) r j = readReg s r j := by
  cases r
  case cmd => exact absurd rfl hr
  case win => simp only [WinReg.row] at hk hj; omega
  case din | tagin | ivin => exact arrayWord_setArrayWord_of_ne _ j k v hj hne
  case ga | gb | p => exact intWord_setIntWord_of_ne _ j k v (by simp only [WinReg.row] at hj; omega) hne
  all_goals simp only [readReg, writeReg]

/-- A write leaves every word of the other registers, for each pair of registers. -/
theorem readReg_writeReg_of_ne (s : State) {q r : WinReg} (j k : Nat) (v : Word) (hr : r ≠ .cmd) (hne : q ≠ r) :
    readReg (writeReg s r k v) q j = readReg s q j := by
  cases r
  case cmd => exact absurd rfl hr
  all_goals
    cases q
    any_goals exact absurd rfl hne
    all_goals simp only [readReg, writeReg, statusWord_host, cfgWord_host, stateWord_host]

section
variable {s : State} {off : Nat} (v : Word) (hb : s.status.busy = false) (h4 : off % 4 = 0)

include hb h4

/-- A write at an offset other than CMD's has no effect, or is the write of a word of a register other than CMD. -/
theorem writeWord_eq_self_or_word (hcmd : off ≠ 0x004) : writeWord s off v = s ∨
    ∃ (r : WinReg) (k : Nat), r ≠ .cmd ∧ 4 * k + 3 < r.row.size ∧ off = r.row.offset + 4 * k ∧
      writeWord s off v = writeReg s r k v := by
  rcases reserved_or_word h4 with hnone | ⟨r, k, hk, rfl⟩
  · exact .inl (by rw [writeWord, hnone])
  · refine .inr ⟨r, k, ?_, hk, rfl, writeWord_word v hb hk⟩
    rintro rfl
    simp only [WinReg.row] at hk hcmd
    omega

theorem writeWord_frame (hcmd : off ≠ 0x004) : writeWord s off v = { s with host := (writeWord s off v).host } := by
  rcases writeWord_eq_self_or_word v hb h4 hcmd with h | ⟨r, k, hr, -, -, h⟩ <;> rw [h]
  exact writeReg_frame s k v hr

theorem idleReadWord_writeWord_of_ne (hcmd : off ≠ 0x004) {off' : Nat} (h4' : off' % 4 = 0) (hne : off' ≠ off) :
    idleReadWord (writeWord s off v) off' = idleReadWord s off' := by
  rcases writeWord_eq_self_or_word v hb h4 hcmd with h | ⟨r, k, hr, hk, rfl, h⟩ <;> rw [h]
  rcases reserved_or_word h4' with hnone | ⟨q, j, hj, rfl⟩
  · rw [idleReadWord, idleReadWord, hnone]
  · rw [idleReadWord_word _ hj, idleReadWord_word _ hj]
    by_cases hq : q = r
    · subst hq
      exact readReg_writeReg_of_index_ne s v hr hk hj (by omega)
    · exact readReg_writeReg_of_ne s j k v hr hq

theorem idleReadWord_writeWord_self {r : WinReg} (hr : r.Covers off) (ha : r.row.access = .rw) :
    idleReadWord (writeWord s off v) off = v := by
  obtain ⟨hlo, hhi⟩ := hr
  obtain ⟨ho, hs, -⟩ := r.row_bounds
  obtain ⟨k, rfl⟩ : ∃ k, off = r.row.offset + 4 * k := ⟨(off - r.row.offset) / 4, by omega⟩
  have hk : 4 * k + 3 < r.row.size := by omega
  rw [writeWord_word v hb hk, idleReadWord_word _ hk]
  exact readReg_writeReg_self s v ha hk

end

/-- The offsets of the read-write registers the host reads back (R81). -/
theorem covers_readWrite {off : Nat} (h : off = 0x014 ∨ (0x020 ≤ off ∧ off < 0x030) ∨ (0x040 ≤ off ∧ off < 0x050) ∨
    (0x080 ≤ off ∧ off < 0x100) ∨ (0x120 ≤ off ∧ off < 0x140)) : ∃ r : WinReg, r.Covers off ∧ r.row.access = .rw := by
  rcases h with rfl | h | h | ⟨hlo, hhi⟩ | h
  · exact ⟨.win, by decide, rfl⟩
  · exact ⟨.din, h, rfl⟩
  · exact ⟨.tagin, h, rfl⟩
  · by_cases hiv : off < 0x0C0
    · exact ⟨.ivin, ⟨hlo, hiv⟩, rfl⟩
    · by_cases hga : off < 0x0E0
      · exact ⟨.ga, ⟨not_lt.mp hiv, hga⟩, rfl⟩
      · exact ⟨.gb, ⟨not_lt.mp hga, hhi⟩, rfl⟩
  · exact ⟨.p, h, rfl⟩

/-! ### The host's steps -/

theorem writeWord_env (s : State) (off : Nat) (v : Word) (e : Environment) :
    writeWord { s with env := e } off v = { writeWord s off v with env := e } := by
  unfold writeWord
  cases rowAt off with
  | none => rfl
  | some row =>
    simp only
    split
    · rfl
    · split
      · rfl
      · cases row.reg <;> rfl

section
variable {s : State} {early : Bool} {rest : List Input}

/-- The oldest event happens when no command runs or the event comes before its completion (R93, log 4). -/
theorem step_of_event {e : Event} (hin : s.env.inputs = { early := early, event := e } :: rest)
    (hturn : s.status.busy = false ∨ early = true) :
    step s = applyEvent e { s with env := { s.env with inputs := rest } } := by
  have hm : engineMoves s = false := by
    rcases hturn with h | h <;> simp [engineMoves, hin, eventIsEarly, h]
  simp [step, hm, hostStep, hin]

theorem applyEvent_of_outside {e : Event} {addr width : Nat} {v : Word}
    (he : e = .read addr width ∨ e = .write addr width v) (hw : inWindow s addr = false) :
    applyEvent e s = .fault (.outsideWindow addr) := by
  rcases he with rfl | rfl <;> exact if_pos hw

theorem applyEvent_of_unsupported {e : Event} {addr width : Nat} {v : Word}
    (he : e = .read addr width ∨ e = .write addr width v) (hw : inWindow s addr = true)
    (hs : supported s addr width = false) : applyEvent e s = .refused (.unsupportedAccess addr width) := by
  rcases he with rfl | rfl <;> simp [applyEvent, hw, hs]

variable {off : Nat} (hreset : s.env.inReset = false) (hoff : off < 0x400) (h4 : off % 4 = 0)

include hreset hoff h4

theorem applyEvent_write (v : Word) :
    applyEvent (.write (s.params.base + off) 4 v) s = .next (writeWord s off v) := by
  obtain ⟨hw, hs⟩ := access_ok s off hoff h4
  simp [applyEvent, hw, hs, hreset]

theorem applyEvent_read : applyEvent (.read (s.params.base + off) 4) s =
    .next { s with env := { s.env with rdata := readWord s off, freeCtr := afterRead s } } := by
  obtain ⟨hw, hs⟩ := access_ok s off hoff h4
  simp [applyEvent, hw, hs, hreset]

variable (hturn : s.status.busy = false ∨ early = true)

include hturn

theorem step_hostWrite {v : Word}
    (hin : s.env.inputs = { early := early, event := .write (s.params.base + off) 4 v } :: rest) :
    step s = .next { writeWord s off v with env := { s.env with inputs := rest } } := by
  rw [step_of_event hin hturn, ← writeWord_env]
  exact applyEvent_write (s := { s with env := { s.env with inputs := rest } }) hreset hoff h4 v

theorem step_hostRead (hin : s.env.inputs = { early := early, event := .read (s.params.base + off) 4 } :: rest) :
    step s = .next { s with env :=
      { s.env with inputs := rest, rdata := readWord s off, freeCtr := afterRead s } } := by
  rw [step_of_event hin hturn]
  exact applyEvent_read (s := { s with env := { s.env with inputs := rest } }) hreset hoff h4

end

/-- Settles O15: the two checks of a host access, outside the window first. -/
theorem unsupportedAccessesStop : Obligations.UnsupportedAccessesStop := by
  intro s early addr width v rest e he hin hturn
  rw [step_of_event hin hturn]
  refine ⟨fun hw hs => applyEvent_of_unsupported he ?_ ?_, fun hw => applyEvent_of_outside he ?_⟩
  · exact decide_eq_true hw
  · simpa [supported, or_iff_not_imp_left] using hs
  · exact decide_eq_false hw

/-- Settles O16: the registers that cover the offsets of each clause are read-only, write-only, or CMD. -/
theorem reservedAndOneWayRegisters : Obligations.ReservedAndOneWayRegisters := by
  intro s early off rest hreset hoff h4 hturn
  refine ⟨fun v hin => ⟨fun hro => ?_, fun hcmd hb => ?_⟩, fun hin hwo => ?_⟩
  · rw [step_hostWrite hreset hoff h4 hturn hin, writeWord_of_readOnly s v]
    intro r hr
    cases r <;> simp only [WinReg.Covers, WinReg.row] at hr ⊢ <;> omega
  · subst hcmd
    rw [step_hostWrite hreset hoff h4 hturn hin, writeWord_of_busy v (r := .cmd) (by decide) (by decide) hb]
  · rw [step_hostRead hreset hoff h4 hturn hin, readWord_of_writeOnly s, afterRead]
    intro r hr
    cases r <;> simp only [WinReg.Covers, WinReg.row] at hr ⊢ <;> omega

/-- Settles O17: a host write is the write of a word of a register, which is the only word it changes. -/
theorem windowWriteReadsBack : Obligations.WindowWriteReadsBack := by
  intro s off v hb hoff h4
  refine ⟨fun early rest hreset => ⟨fun hin => ?_, fun hin => ?_⟩, fun hrw => ?_, fun hcmd off' _ h4' hne => ?_,
    writeWord_frame v hb h4⟩
  · exact step_hostWrite hreset hoff h4 (.inl hb) hin
  · rw [step_hostRead hreset hoff h4 (.inl hb) hin, readWord_eq_idle hb, afterRead, hb]
    rfl
  · obtain ⟨r, hr, ha⟩ := covers_readWrite hrw
    exact idleReadWord_writeWord_self v hb h4 hr ha
  · exact idleReadWord_writeWord_of_ne v hb h4 hcmd h4' hne

/-! ### Byte lanes and word order -/

/-- A written integer, bit by bit (R88). -/
theorem getLsbD_setIntWord_div {n : Nat} (r : BitVec n) (k : Nat) (v : Word) {b : Nat} (h : b < n) :
    (setIntWord r k v).getLsbD b = if b / 32 = k then v.getLsbD (b % 32) else r.getLsbD b := by
  rw [getLsbD_setIntWord r k b v h]
  by_cases hb : b / 32 = k
  · rw [if_pos hb, if_pos (by omega), show b - 32 * k = b % 32 by omega]
  · rw [if_neg hb, if_neg (by omega)]

/-- The bytes the host reads of a register whose words are those of a byte array (R87). -/
theorem byte_of_idleReadWord (s : State) {n : Nat} (a : Vector Byte n) (r : WinReg) (hr : readReg s r = arrayWord a)
    (hn : r.row.size = n) (i : Fin n) :
    (idleReadWord s (r.row.offset + 4 * (i.val / 4))).extractLsb' (8 * (i.val % 4)) 8 = a[i] := by
  obtain ⟨-, hs, -⟩ := r.row_bounds
  rw [idleReadWord_word s (by omega), hr]
  exact extractLsb'_arrayWord a i

/-- The bits the host reads of a register whose words are those of an integer (R88). -/
theorem bit_of_idleReadWord (s : State) {n : Nat} (a : BitVec n) (r : WinReg) (hr : readReg s r = intWord a)
    {b : Nat} (hb : b < 8 * r.row.size) :
    (idleReadWord s (r.row.offset + 4 * (b / 32))).getLsbD (b % 32) = a.getLsbD b := by
  obtain ⟨-, hs, -⟩ := r.row_bounds
  rw [idleReadWord_word s (by omega), hr]
  exact getLsbD_intWord a b

/-- WOUT is read as two registers of one word each. -/
theorem bit_of_idleReadWord_wout (s : State) {b : Nat} (hb : b < 64) :
    (idleReadWord s (0x018 + 4 * (b / 32))).getLsbD (b % 32) = s.results.wout.getLsbD b := by
  rw [← getLsbD_intWord s.results.wout b]
  obtain h | h : b / 32 = 0 ∨ b / 32 = 1 := by omega
  · rw [h]
    exact congrArg (BitVec.getLsbD · _) (idleReadWord_word s (r := .woutLo) (k := 0) (by decide))
  · rw [h]
    exact congrArg (BitVec.getLsbD · _) (idleReadWord_word s (r := .woutHi) (k := 0) (by decide))

/-- The host's registers after the write of word k of a register. -/
theorem writeWord_host {s : State} (r : WinReg) {k : Nat} (v : Word) (hb : s.status.busy = false)
    (hk : 4 * k + 3 < r.row.size) : (writeWord s (r.row.offset + 4 * k) v).host = (writeReg s r k v).host := by
  rw [writeWord_word v hb hk]

/-- Settles O18: each register's words are those of a byte array or of an integer, as the map orders them. -/
theorem byteLanesAndWordOrder : Obligations.ByteLanesAndWordOrder := by
  refine ⟨fun s k v hb => ?_, fun s => ?_⟩
  · have hsize : ∀ n, k < n → 4 * k + 3 < 4 * n := by omega
    refine ⟨?_, fun hk => ⟨_, writeWord_host .din v hb (hsize 4 hk), setArrayWord_getElem _ k v⟩,
      fun hk => ⟨_, writeWord_host .tagin v hb (hsize 4 hk), setArrayWord_getElem _ k v⟩,
      fun hk => ⟨_, writeWord_host .keybuf v hb (hsize 8 hk), setArrayWord_getElem _ k v⟩,
      fun hk => ⟨_, writeWord_host .ivin v hb (hsize 16 hk), setArrayWord_getElem _ k v⟩,
      fun hk => ⟨_, writeWord_host .ga v hb (hsize 8 hk), fun b => getLsbD_setIntWord_div _ k v⟩,
      fun hk => ⟨_, writeWord_host .gb v hb (hsize 8 hk), fun b => getLsbD_setIntWord_div _ k v⟩,
      fun hk => ⟨_, writeWord_host .p v hb (hsize 8 hk), fun b => getLsbD_setIntWord_div _ k v⟩⟩
    rintro rfl
    exact writeWord_host .win v hb (by decide)
  · exact ⟨idleReadWord_word s (r := .id) (k := 0) (by decide), idleReadWord_word s (r := .win) (k := 0) (by decide),
      fun b => bit_of_idleReadWord_wout s,
      fun i => ⟨byte_of_idleReadWord s s.host.din .din rfl rfl i, byte_of_idleReadWord s s.results.dout .dout rfl rfl i,
        byte_of_idleReadWord s s.host.tagin .tagin rfl rfl i, byte_of_idleReadWord s s.results.tag .tag rfl rfl i⟩,
      byte_of_idleReadWord s s.host.ivin .ivin rfl rfl,
      fun b hb => ⟨bit_of_idleReadWord s s.host.ga .ga rfl hb, bit_of_idleReadWord s s.host.gb .gb rfl hb,
        bit_of_idleReadWord s s.results.gr .gr rfl hb, bit_of_idleReadWord s s.host.p .p rfl hb⟩⟩

end Sys2Proof.Machine
end

section
/-! PROOFS. The command word (30_encoding.md R120 to R128): the two readings of a word as fields, the decoder's three
answers, and what the engine makes of each; the example words (R131, R134). -/

namespace Sys2Proof

/-! ### The fields of a command -/

/-- The operands of a command are the IMM and SUB fields of its word, so well-formed means that the two fields fit. -/
theorem Instr.wf_iff (i : Instr) : i.wf = true ↔ i.immField < 256 ∧ i.subField < 16 := by
  have hnc (nc : Bool) : nc.toNat < 16 := by cases nc <;> decide
  cases i <;> simp [Instr.wf, immFits, ktypeFits, Instr.immField, Instr.subField, hnc]

/-- The opcode, IMM and SUB of a well-formed command stand in its word (R121). -/
theorem fieldsOf_encode {i : Instr} (h : i.wf = true) :
    fieldsOf (encode i) = { opc := i.opcode, imm := i.immField, sub := i.subField, rsv := 0 } := by
  obtain ⟨himm, hsub⟩ := i.wf_iff.mp h
  have hopc := Laws.WordMatches.opcode_lt i
  rw [fieldsOf_eq, encode, wordOf_toNat, Fields.mk.injEq]
  omega

/-- The opcode map read from a command to its row. -/
theorem commandOf_fields (i : Instr) : commandOf i.opcode i.immField i.subField = some i := by
  cases i with
  | chnEnc imm nc | chnDec imm nc => cases nc <;> simp [Instr.opcode, Instr.immField, Instr.subField, commandOf]
  | _ => rfl

/-- The law of every command's word, one row of the opcode map each. -/
theorem encode_matches : ∀ i : Instr, Laws.WordMatches.Statement i
  | .nop => Laws.WordMatches.nop
  | .reset => Laws.WordMatches.reset
  | .clear => Laws.WordMatches.clear
  | .setkey imm ktype => Laws.WordMatches.setkey imm ktype
  | .setmode imm => Laws.WordMatches.setmode imm
  | .setpad imm => Laws.WordMatches.setpad imm
  | .waist => Laws.WordMatches.waist
  | .chnSetiv imm => Laws.WordMatches.chnSetiv imm
  | .chnEnc imm nc => Laws.WordMatches.chnEnc imm nc
  | .chnDec imm nc => Laws.WordMatches.chnDec imm nc
  | .chnFine => Laws.WordMatches.chnFine
  | .chnFind => Laws.WordMatches.chnFind
  | .gfMod => Laws.WordMatches.gfMod
  | .gfAdd => Laws.WordMatches.gfAdd
  | .gfMul => Laws.WordMatches.gfMul
  | .gfInv => Laws.WordMatches.gfInv
  | .gfDiv => Laws.WordMatches.gfDiv
  | .gfGmm => Laws.WordMatches.gfGmm
  | .gcmSetiv imm => Laws.WordMatches.gcmSetiv imm
  | .gcmSettaglen imm => Laws.WordMatches.gcmSettaglen imm
  | .gcmAad imm => Laws.WordMatches.gcmAad imm
  | .gcmEnc imm => Laws.WordMatches.gcmEnc imm
  | .gcmDec imm => Laws.WordMatches.gcmDec imm
  | .gcmFine => Laws.WordMatches.gcmFine
  | .gcmFind => Laws.WordMatches.gcmFind

/-! ### The operands a format reads -/

/-- What a format reads of IMM: formats I, K and D the whole field, format Z nothing (R122). -/
def Format.immOf : Format → Nat → Nat
  | .z, _ => 0
  | .i, imm | .k, imm | .d, imm => imm

/-- What a format reads of SUB: format K the whole field, format D its lowest bit, the others nothing (R122, R124). -/
def Format.subOf : Format → Nat → Nat
  | .z, _ | .i, _ => 0
  | .k, sub => sub
  | .d, sub => (sub.testBit 0).toNat

/-- An assigned opcode selects a command of its own, which holds what the format reads of the other fields. -/
theorem commandOf_of_formatOf {opc : Nat} {f : Format} (hf : formatOf opc = some f) (imm sub : Nat) :
    ∃ i, commandOf opc imm sub = some i ∧
      i.opcode = opc ∧ i.immField = f.immOf imm ∧ i.subField = f.subOf sub := by
  unfold formatOf at hf
  split at hf <;> cases hf <;> exact ⟨_, rfl, rfl, rfl, rfl⟩

/-- A word without a bit beyond its format is made of what the format reads. -/
theorem word_of_fields {w : Word} {f : Format} (hw : w.toNat < 2 ^ f.usedBits) :
    wordOf (w.toNat % 256) (f.immOf (w.toNat / 256 % 256)) (f.subOf (w.toNat / 65536 % 16)) = w := by
  apply BitVec.eq_of_toNat_eq
  rw [wordOf_toNat]
  cases f <;> simp only [Format.usedBits, Format.immOf, Format.subOf, Nat.toNat_testBit] at hw ⊢ <;> omega

/-! ### The decoder's answers -/

section
variable {w : Word} {f : Format}

theorem decode_unassigned (hf : formatOf (w.toNat % 256) = none) : decode w = .error .badOpcode := by
  simp only [decode, fieldsOf_eq, hf]

theorem decode_reserved (hf : formatOf (w.toNat % 256) = some f) (hw : w &&& f.mustBeZero ≠ 0) :
    decode w = .error .reservedBits := by
  simp only [decode, fieldsOf_eq, hf, if_pos hw]

/-- A word of an assigned opcode with its must-be-zero bits at 0 decodes to the well-formed command it encodes. -/
theorem decode_assigned (hf : formatOf (w.toNat % 256) = some f) (hw : w &&& f.mustBeZero = 0) :
    ∃ i, decode w = .ok i ∧ i.wf = true ∧ encode i = w := by
  obtain ⟨i, hi, hopc, himm, hsub⟩ :=
    commandOf_of_formatOf hf (w.toNat / 256 % 256) (w.toNat / 65536 % 16)
  refine ⟨i, ?_, i.wf_iff.mpr ?_, ?_⟩
  · simp only [decode, fieldsOf_eq, hf, hw, hi, ne_eq, not_true_eq_false, if_false]
  · rw [himm, hsub]
    cases f <;> simp only [Format.immOf, Format.subOf, Nat.toNat_testBit] <;> omega
  · rw [encode, hopc, himm, hsub]
    exact word_of_fields ((mustBeZero_iff f w).mp hw)

end

/-- Settles O1: the word of a command has the command's fields and passes the two checks of R127. -/
theorem decodeOfEncodeIsTheCommand : Obligations.DecodeOfEncodeIsTheCommand := by
  intro i hi
  obtain ⟨-, f, hf, hw⟩ := encode_matches i
  simp only [decode, fieldsOf_encode hi, hf, hw, commandOf_fields, ne_eq, not_true_eq_false, if_false]

/-- Settles O2: of the decoder's three answers only a command's word is a command. -/
theorem decodedWordIsItsEncoding : Obligations.DecodedWordIsItsEncoding := by
  intro w i h
  cases hf : formatOf (w.toNat % 256) with
  | none => simp [decode_unassigned hf] at h
  | some f =>
    by_cases hw : w &&& f.mustBeZero = 0
    · obtain ⟨j, hj, hwf, henc⟩ := decode_assigned hf hw
      obtain rfl : j = i := Except.ok.inj (hj.symm.trans h)
      exact ⟨hwf, henc⟩
    · simp [decode_reserved hf hw] at h

/-! ### What the engine makes of a word -/

/-- The opcodes without a row in the opcode map (R128). -/
theorem formatOf_eq_none_iff (opc : Nat) : formatOf opc = none ↔
    (0x07 ≤ opc ∧ opc ≤ 0x0F) ∨ (0x15 ≤ opc ∧ opc ≤ 0x1F) ∨ (0x26 ≤ opc ∧ opc ≤ 0x2F) ∨ 0x37 ≤ opc := by
  unfold formatOf
  split
  case h_26 =>
    simp only [imp_false, true_iff] at *
    omega
  all_goals decide

end Sys2Proof

namespace Sys2Proof.Machine

/-- The masks of the opcode map are those of the formats (R122, R126). -/
theorem mustBeZeroOf_of_formatOf {opc : Nat} {f : Format} (hf : formatOf opc = some f) :
    mustBeZeroOf opc = f.mustBeZero := by
  unfold formatOf at hf
  split at hf <;> cases hf <;> rfl

theorem engineStep_of_ok {s : State} {i : Instr} (h : decode s.pend = .ok i) : engineStep s = exec i s := by
  simp only [engineStep, h]

theorem engineStep_of_error {s : State} {e : DecodeError} (h : decode s.pend = .error e) :
    engineStep s = .next (errState s (illegalCommand e).ecode (illegalCommand e).edet) := by
  simp only [engineStep, h]
  rfl

/-- Settles O4: the ranges are the opcodes without a format, and the engine follows the decoder's answer. -/
theorem undecodableWordsAreIllegal : Obligations.UndecodableWordsAreIllegal := by
  intro s opc unassigned
  have hiff : formatOf opc = none ↔ unassigned := formatOf_eq_none_iff opc
  cases hf : formatOf opc with
  | none =>
    have hu : unassigned := hiff.mp hf
    exact ⟨fun _ => engineStep_of_error (decode_unassigned hf), fun h => absurd hu h, fun h => absurd hu h⟩
  | some f =>
    have hu : ¬unassigned := fun h => by simp [hiff.mpr h] at hf
    rw [mustBeZeroOf_of_formatOf hf]
    refine ⟨fun h => absurd h hu, fun _ hw => engineStep_of_error (decode_reserved hf hw), fun _ hw => ?_⟩
    obtain ⟨i, hi, -⟩ := decode_assigned hf hw
    exact ⟨i, hi, engineStep_of_ok hi⟩

/-! ### The example words -/

/-- What the assembler makes is well formed. -/
theorem assemble_wf {text : String} {i : Instr} (h : assemble text = some i) : i.wf = true := by
  simp only [assemble] at h
  split at h
  · cases h
  · exact (Option.filter_eq_some_iff.mp h).2

/-- A line's word decodes to what the line assembles to. -/
theorem assemble_decode {text : String} {w : Word} (h : (assemble text).map encode = some w) :
    (assemble text).map Except.ok = some (decode w) := by
  obtain ⟨i, hi, rfl⟩ := Option.map_eq_some_iff.mp h
  rw [hi, decodeOfEncodeIsTheCommand i (assemble_wf hi)]
  rfl

/-- Settles O3: each line assembles to its word, which then decodes to what the line assembles to. -/
theorem exampleWordsDecode : Obligations.ExampleWordsDecode := by
  refine ⟨fun r hr => ?_, by decide⟩
  have hword : (assemble r.1).map encode = some r.2 := by
    revert r
    decide
  exact ⟨hword, assemble_decode hword⟩

end Sys2Proof.Machine
end

section
/-! PROOFS. The owners of the registers that most commands leave (30_encoding.md R125): which of them each command may
write, by the rules of the commands. -/

namespace Sys2Proof.Machine

/-- The parts of the state that have at most one owner among the commands; KEYBUF is in `host`. -/
structure OwnedRegs where
  params : Params
  pend : Word
  env : Environment
  host : HostRegs
  ovr : Bool
  modes : ModeRegs
  key : KeyState
  wout : BitVec 64
  gr : FieldReg
  civ : Block

/-- The owned registers of a state. -/
def owned (s : State) : OwnedRegs where
  params := s.params
  pend := s.pend
  env := s.env
  host := s.host
  ovr := s.status.ovr
  modes := s.modes
  key := s.key
  wout := s.results.wout
  gr := s.results.gr
  civ := s.chn.civ

/-- The registers `r` with those that a command owns taken from `r'`; most commands own none. -/
def ownWrites (i : Instr) (r r' : OwnedRegs) : OwnedRegs :=
  match i with
  | .nop => { r with ovr := r'.ovr }
  | .reset => { r with host := { r.host with keybuf := r'.host.keybuf }, key := r'.key, civ := r'.civ }
  | .setkey _ _ => { r with key := r'.key }
  | .setmode _ => { r with modes := { r.modes with mode := r'.modes.mode } }
  | .setpad _ => { r with modes := { r.modes with pad := r'.modes.pad } }
  | .waist => { r with wout := r'.wout }
  | .chnSetiv _ => { r with civ := r'.civ }
  | .gfMod | .gfAdd | .gfMul | .gfInv | .gfDiv | .gfGmm => { r with gr := r'.gr }
  | .gcmSettaglen _ => { r with modes := { r.modes with taglen := r'.modes.taglen } }
  | _ => r

/-! ### The chaining driver owns nothing -/

theorem absorb_owned (dir : Dir) (l : Nat) (s : State) : owned (absorb dir l s) = owned s := by
  obtain ⟨c, b, o, y, h⟩ := absorb_frame dir l s
  rw [h]
  rfl

theorem chnDataRule_owned (dir : Dir) (imm : Nat) (nc : Bool) (s : State) :
    owned (chnDataRule dir imm nc s).state = owned s := by
  rcases chnDataRule_cases dir imm nc s with ⟨e, h⟩ | ⟨-, -, -, c, -, h⟩ <;> rw [h]
  · rfl
  · exact absorb_owned dir imm _

theorem chnFineRule_owned (s : State) : owned (chnFineRule s).state = owned s := by
  rcases chnFineRule_cases s with ⟨e, h⟩ | ⟨-, -, ⟨-, -, h⟩ | ⟨-, h⟩⟩ <;> rw [h] <;> rfl

theorem chnFindRule_owned (s : State) : owned (chnFindRule s).state = owned s := by
  rcases chnFindRule_cases s with ⟨e, h⟩ | ⟨-, -, ⟨-, -, h⟩ | ⟨-, -, h⟩ | ⟨-, -, ⟨-, h⟩ | ⟨p, -, h⟩⟩⟩ <;> rw [h] <;> rfl

/-! ### The GCM controller owns TAGLEN only -/

theorem opens_owned {s t : State} (h : Opens s t) : owned t = owned s := by
  rcases h with ⟨-, -, -, rfl⟩ | ⟨-, rfl⟩ <;> rfl

theorem cryptData_owned (dir : Dir) (l : Nat) (s : State) : owned (cryptData dir l s) = owned s := by
  unfold cryptData
  split <;> rfl

theorem absorbAad_owned (l : Nat) (s : State) : owned (absorbAad l s) = owned s := by
  obtain ⟨acc, alen, h⟩ := absorbAad_eq l s
  rw [h]
  rfl

theorem produceTag_owned (s : State) : owned (produceTag s).state = owned s := rfl

theorem compareTag_owned (s : State) : owned (compareTag s).state = owned s := by
  obtain ⟨acc, h⟩ := compareTag_state s
  rw [h]
  rfl

theorem gcmSetivRule_owned (imm : Nat) (s : State) : owned (gcmSetivRule imm s).state = owned s := by
  rcases gcmSetivRule_cases imm s with ⟨e, h⟩ | ⟨-, -, -, h⟩ <;> rw [h] <;> rfl

theorem gcmAadRule_owned (imm : Nat) (s : State) : owned (gcmAadRule imm s).state = owned s := by
  rcases gcmAadRule_cases imm s with ⟨e, h⟩ | ⟨-, -, -, -, t, ho, h⟩ <;> rw [h]
  · rfl
  · exact (absorbAad_owned imm t).trans (opens_owned ho)

theorem gcmDataRule_owned (dir : Dir) (imm : Nat) (s : State) : owned (gcmDataRule dir imm s).state = owned s := by
  rcases gcmDataRule_cases dir imm s with ⟨e, h⟩ | ⟨-, -, -, -, -, t, ho, h⟩ <;> rw [h]
  · rfl
  · exact (cryptData_owned dir imm t).trans (opens_owned ho)

theorem gcmFineRule_owned (s : State) : owned (gcmFineRule s).state = owned s := by
  rcases gcmFineRule_cases s with ⟨e, h⟩ | ⟨-, -, -, t, ho, h⟩ <;> rw [h]
  · rfl
  · exact (produceTag_owned t).trans (opens_owned ho)

theorem gcmFindRule_owned (s : State) : owned (gcmFindRule s).state = owned s := by
  rcases gcmFindRule_cases s with ⟨e, h⟩ | ⟨-, -, -, t, ho, h⟩ <;> rw [h]
  · rfl
  · exact (compareTag_owned t).trans (opens_owned ho)

/-! ### Every command -/

/-- A command's rule writes no owned register but its own. -/
theorem ruleOf_owned (i : Instr) (s : State) :
    owned (ruleOf i s).state = ownWrites i (owned s) (owned (ruleOf i s).state) := by
  cases i with
  | nop | reset | clear | waist | gfMod | gfAdd | gfMul | gfGmm => rfl
  | setkey imm ktype => rcases setkeyRule_cases imm ktype s with ⟨e, h⟩ | ⟨-, -, h⟩ <;> rw [ruleOf, h] <;> rfl
  | setmode imm =>
    obtain ⟨m, h⟩ := setmodeRule_state imm s
    rw [ruleOf, h]
    rfl
  | setpad imm =>
    obtain ⟨p, h⟩ := setpadRule_state imm s
    rw [ruleOf, h]
    rfl
  | chnSetiv imm => rcases chnSetivRule_cases imm s with ⟨e, h⟩ | h <;> rw [ruleOf, h] <;> rfl
  | chnEnc imm nc => exact chnDataRule_owned .enc imm nc (clearOut s)
  | chnDec imm nc => exact chnDataRule_owned .dec imm nc (clearOut s)
  | chnFine => exact chnFineRule_owned (clearOut s)
  | chnFind => exact chnFindRule_owned (clearOut s)
  | gfInv =>
    obtain ⟨g, h⟩ := gfInvRule_state s
    rw [ruleOf, h]
    rfl
  | gfDiv =>
    obtain ⟨g, h⟩ := gfDivRule_state s
    rw [ruleOf, h]
    rfl
  | gcmSetiv imm => exact gcmSetivRule_owned imm s
  | gcmSettaglen imm => rcases gcmSettaglenRule_cases imm s with ⟨e, h⟩ | ⟨-, h⟩ <;> rw [ruleOf, h] <;> rfl
  | gcmAad imm => exact gcmAadRule_owned imm (clearOut s)
  | gcmEnc imm => exact gcmDataRule_owned .enc imm (clearOut s)
  | gcmDec imm => exact gcmDataRule_owned .dec imm (clearOut s)
  | gcmFine => exact gcmFineRule_owned (clearOut s)
  | gcmFind => exact gcmFindRule_owned (clearOut s)

/-- A command writes no owned register but its own; the status write at its end writes none. -/
theorem exec_owned {i : Instr} {s t : State} (h : exec i s = .next t) : ∃ r, owned t = ownWrites i (owned s) r := by
  have hstatus (u : State) (e : Option CmdError) : owned { u with status := u.status.complete e } = owned u := by
    simp [owned]
  rw [(exec_next_iff i s t).mp h, hstatus]
  exact ⟨_, ruleOf_owned i s⟩

/-- Settles O60: in each command's equation of the owned registers, what differs is the command's own. -/
theorem registersHaveOneOwner : Obligations.RegistersHaveOneOwner := by
  intro i s t h
  obtain ⟨r, hr⟩ := exec_owned h
  cases i <;> simp only [owned, ownWrites, OwnedRegs.mk.injEq] at hr <;> simp [hr]

end Sys2Proof.Machine
end

section
/-! PROOFS. The relations of 10_state.md R57 (and OUTLEN at most BS, log 18): what each kind of write must know to keep
them, then the two drivers' rules, every command and every step. -/

namespace Sys2Proof.Machine

/-! ### The writes -/

/-- The procedure of RESET, CLEAR and SETKEY leaves nothing but the IV length and the key length to ask for. -/
theorem clearActions_consistent {s : State} (hiv : s.gcm.givset = true → 1 ≤ s.gcm.givlen ∧ s.gcm.givlen ≤ 64)
    (hkey : s.key.keyed = false → s.key.klen = 0) : Consistent (clearActions s) where
  idleEmpty _ := rfl
  buffered := Nat.zero_le _
  heldOnly h := absurd h (bsz_pos _).ne
  sessionKeyed h := absurd rfl h
  ivLength := hiv
  unkeyed := hkey
  shortData := nofun
  latched h := absurd rfl h
  tagValid := nofun
  outputBound := ⟨Nat.zero_le _, Nat.zero_le _⟩

namespace Consistent

variable {s : State} (h : Consistent s)

include h

theorem iblen_le : s.chn.iblen ≤ 16 := h.buffered.trans (bsz_le s)

theorem iblen_lt (hp : s.chn.cph = .idle ∨ s.chn.cph = .enc) : s.chn.iblen < s.bsz := by
  refine lt_of_le_of_ne h.buffered fun he => ?_
  rcases hp with hp | hp <;> simpa [hp] using h.heldOnly he

theorem complete (e : Option CmdError) : Consistent { s with status := s.status.complete e } :=
  { h with
    tagValid := by simpa using h.tagValid
    outputBound := by simpa [bsz_eq] using h.outputBound }

theorem out {b : Bytes} (hb : b.length ≤ s.bsz) : Consistent (out b s) :=
  { h with outputBound := ⟨hb.trans (bsz_le s), hb⟩ }

theorem clearOut : Consistent (clearOut s) := h.out (Nat.zero_le _)

theorem chaining (iv c : Block) : Consistent { s with chn := { s.chn with civ := iv, chain := c } } := { h with }

/-- New buffered bytes and a new phase: IDLE holds none, and a whole block stands only where a decode holds it back. -/
theorem buffer_phase {b : Bytes} {ph : ChainPhase} (hle : b.length ≤ s.bsz) (hidle : ph = .idle → b.length = 0)
    (hheld : b.length = s.bsz → ph = .dec ∧ s.modes.pad ≠ .none) : Consistent (setCph ph (setBuffer b s)) :=
  { h with idleEmpty := hidle, buffered := hle, heldOnly := hheld }

theorem emptyBuffer_phase (ph : ChainPhase) : Consistent (setCph ph (setBuffer [] s)) :=
  h.buffer_phase (Nat.zero_le _) (fun _ => rfl) fun he => absurd he (bsz_pos s).ne

theorem gcmSessionReset : Consistent (gcmSessionReset s) :=
  { h with
    sessionKeyed := fun hg => absurd rfl hg
    shortData := nofun
    latched := fun hg => absurd rfl hg
    tagValid := nofun }

theorem setGr (v : Nat) : Consistent (setGr v s) := { h with }

/-! ### The rules of the chaining driver -/

/-- One block through process_block and out. -/
theorem blockOut {dir : Dir} {x : Bytes} (hx : x.length = s.bsz) : Consistent (Machine.out (processBlock dir x s).1
    { s with chn := { s.chn with chain := ((nextChain dir x s).map (fill 16)).getD s.chn.chain } }) :=
  (h.chaining _ _).out (processBlock_length dir x s hx).le

/-- absorb and the phase after it: at most one of the two blocks that may stand is put out, and a whole one is left only
in a padded decode. -/
theorem absorb_phase {dir : Dir} {l : Nat} (hl : l ≤ s.bsz) (hp : s.chn.cph = .idle ∨ s.chn.cph = dir.phase) :
    Consistent (setCph dir.phase (absorb dir l s)) := by
  have hlen : (absorbed l s).length = s.chn.iblen + l := absorbed_length l s h.iblen_le (hl.trans (bsz_le s))
  have hbuf := h.buffered
  have hphase : dir.phase ≠ .idle := by cases dir <;> nofun
  by_cases ho : outputsBlock dir l s
  · rw [absorb_output dir l s h.iblen_le (hl.trans (bsz_le s)) ho]
    have hblock : ((absorbed l s).take s.bsz).length = s.bsz := by
      rw [List.length_take, hlen]
      rcases ho with ho | ⟨ho, -⟩ <;> omega
    refine (h.blockOut hblock).buffer_phase ?_ (fun hi => absurd hi hphase) fun hheld => ?_
    · rw [List.length_drop, hlen]
      change _ ≤ s.bsz
      omega
    · rw [List.length_drop, hlen] at hheld
      change _ = s.bsz at hheld
      have hwhole : s.chn.iblen = s.bsz := by omega
      obtain ⟨hdec, hpad⟩ := h.heldOnly hwhole
      rcases hp with hp | hp
      · rw [hp] at hdec
        cases hdec
      · exact ⟨hp ▸ hdec, hpad⟩
  · rw [absorb_hold dir l s h.iblen_le (hl.trans (bsz_le s)) ho]
    obtain ⟨hle, hheld⟩ := not_or.mp ho
    refine h.buffer_phase (by omega) (fun hi => absurd hi hphase) fun hw => ?_
    obtain ⟨rfl, hpad⟩ := not_not.mp fun hn => hheld ⟨hlen ▸ hw, hn⟩
    exact ⟨rfl, hpad⟩

theorem chnDataRule (dir : Dir) (imm : Nat) (nc : Bool) : Consistent (chnDataRule dir imm nc s).state := by
  rcases chnDataRule_cases dir imm nc s with ⟨e, hr⟩ | ⟨-, hp, hl, c, -, hr⟩ <;> rw [hr]
  · exact h
  · exact (h.chaining s.chn.civ c).absorb_phase hl hp

/-- The finish of an encode completes the buffered bytes to one block. -/
theorem paddedBlock_length (hp : s.chn.cph = .idle ∨ s.chn.cph = .enc) (hpad : s.modes.pad ≠ .none) :
    (bufferedBytes s ++ padBytes s.modes.pad (s.bsz - s.chn.iblen)).length = s.bsz := by
  have hlt := h.iblen_lt hp
  rw [List.length_append, bufferedBytes_length s h.iblen_le, padBytes_length _ _ hpad (by omega)]
  omega

theorem chnFineRule : Consistent (chnFineRule s).state := by
  rcases chnFineRule_cases s with ⟨e, hr⟩ | ⟨-, hp, ⟨-, -, hr⟩ | ⟨hpad, hr⟩⟩ <;> rw [hr]
  · exact h
  · exact h.emptyBuffer_phase .idle
  · exact (h.blockOut (h.paddedBlock_length hp hpad)).emptyBuffer_phase .idle

theorem chnFindRule : Consistent (chnFindRule s).state := by
  rcases chnFindRule_cases s with
    ⟨e, hr⟩ | ⟨-, -, ⟨-, hempty, hr⟩ | ⟨-, -, hr⟩ | ⟨-, -, ⟨-, hr⟩ | ⟨p, -, hr⟩⟩⟩ <;> rw [hr]
  · exact h
  · exact { h with
      idleEmpty := fun _ => hempty
      heldOnly := fun he => absurd (hempty.symm.trans he) (bsz_pos s).ne }
  · exact h.emptyBuffer_phase .failed
  · exact (h.chaining s.chn.civ _).emptyBuffer_phase .failed
  · exact ((h.chaining s.chn.civ _).emptyBuffer_phase .idle).out
      ((List.length_take_le _ _).trans (Nat.sub_le _ _))

/-! ### The rules of the GCM controller -/

/-- preset opens a session only where a key and an IV stand, and from CONFIG nothing is latched. -/
theorem opens {t : State} (ho : Opens s t) : Consistent t := by
  rcases ho with ⟨hc, hk, hi, rfl⟩ | ⟨-, rfl⟩
  · exact { h with
      sessionKeyed := fun _ => ⟨hk, hi⟩
      shortData := fun hd => by simpa [hc] using h.shortData hd
      latched := fun hd => by simpa [hc] using h.latched hd
      tagValid := fun ht => by simpa [hc] using h.tagValid ht }
  · exact h

theorem absorbAad (l : Nat) : Consistent (absorbAad l s) := by
  obtain ⟨_, _, he⟩ := absorbAad_eq l s
  rw [he]
  exact { h with }

theorem cryptData {dir : Dir} {l : Nat} (hl : l ≤ 16) (hb : s.bsz = 16) (hc : s.gcm.gph ≠ .config)
    (hd : s.gcm.gph ≠ .done) : Consistent (cryptData dir l s) := by
  rcases Nat.eq_zero_or_pos l with rfl | hpos
  · rw [cryptData_zero]
    exact h
  · rw [cryptData_eq dir l s hpos hl hb]
    exact { h with
      sessionKeyed := fun _ => h.sessionKeyed hc
      shortData := fun _ => .inl rfl
      latched := fun _ => .inl rfl
      tagValid := fun ht => absurd (h.tagValid ht).1 hd
      outputBound := ⟨hl, hl.trans hb.ge⟩ }

/-- A session that ends is DONE, with a tag to show unless it was a decode. -/
theorem sessionDone {acc : Block} {tag : Block} {v : Bool} (hc : s.gcm.gph ≠ .config)
    (hv : v = true → s.gcm.gdir ≠ .dec) : Consistent { s with
      gcm := { s.gcm with acc := acc, gph := .done }
      results := { s.results with tag := tag }
      status := { s.status with tagv := v } } :=
  { h with
    sessionKeyed := fun _ => h.sessionKeyed hc
    shortData := fun _ => .inr rfl
    latched := fun _ => .inr rfl
    tagValid := fun ht => ⟨rfl, hv ht⟩ }

theorem gcmSetivRule (imm : Nat) : Consistent (gcmSetivRule imm s).state := by
  rcases gcmSetivRule_cases imm s with ⟨e, hr⟩ | ⟨h1, h64, -, hr⟩ <;> rw [hr]
  · exact h
  · have hiv : Consistent
        { s with gcm := { s.gcm with giv := fill 64 (ivOperand s imm), givlen := imm, givset := true } } :=
      { h with
        sessionKeyed := fun hg => ⟨(h.sessionKeyed hg).1, rfl⟩
        ivLength := fun _ => ⟨h1, h64⟩ }
    exact hiv.gcmSessionReset

theorem gcmSettaglenRule (imm : Nat) : Consistent (gcmSettaglenRule imm s).state := by
  rcases gcmSettaglenRule_cases imm s with ⟨e, hr⟩ | ⟨-, hr⟩ <;> rw [hr]
  · exact h
  · exact { h with }

theorem gcmAadRule (imm : Nat) : Consistent (gcmAadRule imm s).state := by
  rcases gcmAadRule_cases imm s with ⟨e, hr⟩ | ⟨-, -, -, -, t, ho, hr⟩ <;> rw [hr]
  · exact h
  · exact (h.opens ho).absorbAad imm

theorem gcmDataRule (dir : Dir) (imm : Nat) : Consistent (gcmDataRule dir imm s).state := by
  rcases gcmDataRule_cases dir imm s with ⟨e, hr⟩ | ⟨hb, hl, hd, -, -, t, ho, hr⟩ <;> rw [hr]
  · exact h
  · obtain ⟨hp, -, -, -, -, -, -, -, -, hc, -, -, -, -, -, hph⟩ := ho.frame h.sessionKeyed
    have hdone : t.gcm.gph ≠ .done := by rcases hph with hph | ⟨hph, -⟩ <;> simp [hph, hd]
    exact (h.opens ho).cryptData hl (by rw [bsz_eq, hp, ← bsz_eq, hb]) hc hdone

theorem gcmFineRule : Consistent (gcmFineRule s).state := by
  rcases gcmFineRule_cases s with ⟨e, hr⟩ | ⟨-, -, hdir, t, ho, hr⟩ <;> rw [hr]
  · exact h
  · obtain ⟨-, -, -, -, -, -, -, -, -, hc, -, -, -, -, hd, -⟩ := ho.frame h.sessionKeyed
    exact (h.opens ho).sessionDone hc fun _ => hd ▸ hdir

theorem gcmFindRule : Consistent (gcmFindRule s).state := by
  rcases gcmFindRule_cases s with ⟨e, hr⟩ | ⟨-, -, -, t, ho, hr⟩ <;> rw [hr]
  · exact h
  · obtain ⟨-, -, -, -, -, -, -, -, -, hc, -⟩ := ho.frame h.sessionKeyed
    obtain ⟨acc, he⟩ := compareTag_state t
    rw [he]
    exact (h.opens ho).sessionDone hc nofun

/-! ### Every command and every step -/

theorem setkeyRule (imm ktype : Nat) : Consistent (setkeyRule imm ktype s).state := by
  rcases setkeyRule_cases imm ktype s with ⟨e, hr⟩ | ⟨-, -, hr⟩ <;> rw [hr]
  · exact h
  · exact clearActions_consistent h.ivLength nofun

/-- SETPAD is refused in an open stream, and outside a decode no whole block is held. -/
theorem setpadRule (imm : Nat) : Consistent (setpadRule imm s).state := by
  unfold Machine.setpadRule
  split
  · exact h
  · split
    · exact h
    · next hph => exact { h with heldOnly := fun he => absurd (.inr (h.heldOnly he).1) hph }

theorem chnSetivRule (imm : Nat) : Consistent (chnSetivRule imm s).state := by
  rcases chnSetivRule_cases imm s with ⟨e, hr⟩ | hr <;> rw [hr]
  · exact h
  · exact h.chaining _ _

theorem rule (i : Instr) : Consistent (ruleOf i s).state := by
  cases i with
  | nop | waist => exact { h with }
  | reset => exact clearActions_consistent nofun fun _ => rfl
  | clear => exact clearActions_consistent h.ivLength h.unkeyed
  | setkey imm ktype => exact h.setkeyRule imm ktype
  | setmode imm =>
    obtain ⟨m, hr⟩ := setmodeRule_state imm s
    rw [ruleOf, hr]
    exact { h with }
  | setpad imm => exact h.setpadRule imm
  | chnSetiv imm => exact h.chnSetivRule imm
  | chnEnc imm nc => exact h.clearOut.chnDataRule .enc imm nc
  | chnDec imm nc => exact h.clearOut.chnDataRule .dec imm nc
  | chnFine => exact h.clearOut.chnFineRule
  | chnFind => exact h.clearOut.chnFindRule
  | gfMod | gfAdd | gfMul | gfGmm => exact h.setGr _
  | gfInv =>
    obtain ⟨g, hr⟩ := gfInvRule_state s
    rw [ruleOf, hr]
    exact { h with }
  | gfDiv =>
    obtain ⟨g, hr⟩ := gfDivRule_state s
    rw [ruleOf, hr]
    exact { h with }
  | gcmSetiv imm => exact h.gcmSetivRule imm
  | gcmSettaglen imm => exact h.gcmSettaglenRule imm
  | gcmAad imm => exact h.clearOut.gcmAadRule imm
  | gcmEnc imm => exact h.clearOut.gcmDataRule .enc imm
  | gcmDec imm => exact h.clearOut.gcmDataRule .dec imm
  | gcmFine => exact h.clearOut.gcmFineRule
  | gcmFind => exact h.clearOut.gcmFindRule

theorem exec {i : Instr} {t : State} (hx : exec i s = .next t) : Consistent t := by
  rw [(exec_next_iff i s t).mp hx]
  exact (h.rule i).complete _

theorem hostStep {t : State} (hx : hostStep s = .next t) : Consistent t := by
  rcases hostStep_cases hx with ⟨_, _, _, _, _, rfl⟩ | ⟨_, rfl⟩
  · exact { h with }
  · exact { resetWith_consistent s.params with }

end Consistent

/-- Settles O8: every command's rule and the status write keep the relations, and so does a host step. -/
theorem stepKeepsConsistency : Obligations.StepKeepsConsistency := by
  intro s t h hstep
  unfold step at hstep
  split at hstep
  · rcases engineStep_cases hstep with ⟨i, -, hx⟩ | ⟨e, -, rfl⟩
    · exact h.exec hx
    · exact h.complete _
  · exact h.hostStep hstep

end Sys2Proof.Machine
end

section
/-! PROOFS. The front-end and configuration commands (40_control.md): each command's equations, what RESET and SETKEY
leave for the chaining driver, and which part of the state CHN.ENC reads. -/

namespace Sys2Proof.Machine

/-! ### How a command ends -/

/-- A command whose rule succeeds. -/
theorem exec_of_succeed {i : Instr} {s t : State} (h : ruleOf i s = succeed t) : exec i s = .next (okState t) := by
  rw [exec_eq_complete, h]
  rfl

/-- A command whose rule raises an error in the state as it is. -/
theorem exec_of_raise {i : Instr} {s : State} {e : CmdError} (h : ruleOf i s = raise s e) :
    exec i s = .next (errState s e.ecode e.edet) := by
  rw [exec_eq_complete, h]
  rfl

/-! ### NOP, RESET and CLEAR -/

/-- A command other than NOP does not own OVR. -/
theorem ownWrites_ovr {i : Instr} (hi : i ≠ .nop) (r r' : OwnedRegs) : (ownWrites i r r').ovr = r.ovr := by
  cases i with
  | nop => exact absurd rfl hi
  | _ => rfl

/-- Settles O23: NOP's equation, and OVR has no other owner. -/
theorem nopClearsOverrunOnly : Obligations.NopClearsOverrunOnly := by
  refine ⟨by decide, fun s => exec_of_succeed rfl, fun i s t h hs ht => by_contra fun hi => ?_⟩
  obtain ⟨r, hr⟩ := exec_owned h
  have hovr : t.status.ovr = s.status.ovr := (congrArg OwnedRegs.ovr hr).trans (ownWrites_ovr hi _ _)
  rw [hs, ht] at hovr
  cases hovr

/-- The state of `clear_actions` written out (R161, R163). -/
theorem clearActions_eq (s : State) : clearActions s = { s with
    status := { s.status with tagv := false, outlen := 0 }
    results := { s.results with dout := Vector.replicate 16 0, tag := Vector.replicate 16 0 }
    chn := { s.chn with chain := s.chn.civ, ibuf := Vector.replicate 16 0, iblen := 0, cph := .idle }
    gcm := { s.gcm with acc := Vector.replicate 16 0, alen := 0, clen := 0, gph := .config, aadpart := false,
                        dpart := false, gdir := .none } } := by
  rw [← fill_nil]
  rfl

/-- Settles O13: `clear_actions` written out, in RESET on the state without key and IVs. -/
theorem resetAndClearStates : Obligations.ResetAndClearStates := by
  refine ⟨by decide, by decide, fun s => ⟨exec_of_succeed ?_, exec_of_succeed ?_⟩⟩
  · rw [ruleOf, clearActions_eq, releaseKeyAndIvs, fill_nil, fill_nil, fill_nil]
  · rw [ruleOf, clearActions_eq]

/-! ### SETKEY -/

/-- The first bytes of a register put into a register, byte by byte: the rest is 0. -/
theorem fill_first_getElem {n m : Nat} (r : Vector Byte m) (l : Nat) (i : Fin n) (hm : i.val < m) :
    (fill n (first r l))[i] = if i.val < l then r[i.val] else 0 := by
  by_cases hl : i.val < l <;> simp [first, List.getD_eq_getElem?_getD, hl, hm]

/-- Settles O24: the causes in the order of the rule's checks. -/
theorem setkeyBindsOrFails : Obligations.SetkeyBindsOrFails := by
  refine ⟨by decide, fun s l ktype => ?_⟩
  refine ⟨fun hk => ?_, fun hk hl => ?_, fun hk h1 h32 hb => ?_, fun hk h1 h32 hb => ?_⟩
  · refine exec_of_raise (e := .keyType) ?_
    rw [ruleOf, setkeyRule, if_pos hk]
  · refine exec_of_raise (e := .keyLength) ?_
    rw [ruleOf, setkeyRule, if_neg (not_not.mpr hk), if_pos hl]
  · refine exec_of_raise (e := .keyRejected) ?_
    rw [ruleOf, setkeyRule, if_neg (not_not.mpr hk), if_neg (by omega), if_pos hb]
  · refine ⟨fill 32 (keyOperand s l), fun i => fill_first_getElem s.host.keybuf l i i.isLt, exec_of_succeed ?_⟩
    rw [ruleOf, setkeyRule, if_neg (not_not.mpr hk), if_neg (by omega), if_neg (by simp [hb]), clearActions_eq]
    rfl

/-! ### SETMODE and SETPAD -/

theorem modeOfCode_eq_none : ∀ {imm : Nat}, imm > 4 → modeOfCode imm = none
  | _ + 5, _ => rfl

theorem padOfCode_eq_none : ∀ {imm : Nat}, imm > 3 → padOfCode imm = none
  | _ + 4, _ => rfl

theorem setmodeRule_some {imm : Nat} {m : Mode} (h : modeOfCode imm = some m) (s : State) :
    setmodeRule imm s = succeed { s with modes := { s.modes with mode := m } } := by
  simp [setmodeRule, h]

theorem setmodeRule_none {imm : Nat} (h : modeOfCode imm = none) (s : State) :
    setmodeRule imm s = raise s .badMode := by
  simp [setmodeRule, h]

theorem setpadRule_some {imm : Nat} {p : PadMode} (h : padOfCode imm = some p) (s : State) : setpadRule imm s =
    if s.chn.cph = .enc ∨ s.chn.cph = .dec then raise s .padInStream
    else succeed { s with modes := { s.modes with pad := p } } := by
  simp [setpadRule, h]

theorem setpadRule_none {imm : Nat} (h : padOfCode imm = none) (s : State) : setpadRule imm s = raise s .badPad := by
  simp [setpadRule, h]

/-- Settles O25: the codes of the two tables, and an open stream refuses SETPAD. -/
theorem setmodeAndSetpadConfigure : Obligations.SetmodeAndSetpadConfigure := by
  have hmode : ∀ r ∈ [(0, Mode.ecb), (1, .cbc), (2, .xcbc), (3, .cfb), (4, .ofb)], modeOfCode r.1 = some r.2 := by
    decide
  have hpad : ∀ r ∈ [(0, PadMode.none), (1, .bit), (2, .x923), (3, .pkcs7)], padOfCode r.1 = some r.2 := by decide
  refine ⟨by decide, by decide, fun s => ?_⟩
  refine ⟨fun r hr => ?_, fun imm h => ?_, fun r hr => ⟨fun hph => ?_, fun hph => ?_⟩, fun imm h => ?_⟩
  · exact exec_of_succeed (setmodeRule_some (hmode r hr) s)
  · exact exec_of_raise (i := .setmode imm) (setmodeRule_none (modeOfCode_eq_none h) s)
  · refine exec_of_succeed ((setpadRule_some (hpad r hr) s).trans (if_neg ?_))
    rcases hph with hph | hph <;> simp [hph]
  · exact exec_of_raise (i := .setpad r.1) ((setpadRule_some (hpad r hr) s).trans (if_pos hph))
  · exact exec_of_raise (i := .setpad imm) (setpadRule_none (padOfCode_eq_none h) s)

/-! ### WAIST and CHN.SETIV -/

/-- No input size that fits WIN overflows WOUT (R190). -/
theorem outputSize_lt (b : BlockSize) (pad : PadMode) {n : Nat} (hn : n < 2 ^ 32) :
    outputSize b.bytes pad n < 2 ^ 64 := by
  have hdiv : n / b.bytes * b.bytes ≤ n := Nat.div_mul_le_self n b.bytes
  unfold outputSize
  split
  · omega
  · rw [Nat.add_one_mul]
    rcases BlockSize.bytes_cases b with hb | hb <;> omega

/-- The word WAIST writes, as a number. -/
theorem waist_toNat (s : State) : (BitVec.ofNat 64 (outputSize s.bsz s.modes.pad s.host.win.toNat)).toNat =
    outputSize s.bsz s.modes.pad s.host.win.toNat :=
  Nat.mod_eq_of_lt (outputSize_lt s.params.bs s.modes.pad s.host.win.isLt)

/-- Settles O26: the output size, which WOUT holds exactly. -/
theorem waistReportsOutputSize : Obligations.WaistReportsOutputSize := by
  refine ⟨by decide, fun s => ⟨_, exec_of_succeed rfl, fun hpad => ?_, fun hpad => ?_⟩⟩
  · rw [waist_toNat, outputSize, if_pos hpad]
  · rw [waist_toNat, outputSize, if_neg hpad]
    rfl

/-- Settles O27: the one length the rule accepts is BS. -/
theorem chnSetivSeedsTheChain : Obligations.ChnSetivSeedsTheChain := by
  refine ⟨by decide, fun s l => ?_⟩
  rw [← bsz_eq]
  refine ⟨fun hl => ⟨fill 16 (ivOperand s s.bsz), fun i => ?_, exec_of_succeed ?_⟩, fun hl => ?_⟩
  · exact fill_first_getElem s.host.ivin s.bsz i (by omega)
  · rw [ruleOf, chnSetivRule, if_neg (not_not.mpr hl)]
  · exact exec_of_raise (e := .ivLength) (by rw [ruleOf, chnSetivRule, if_pos hl])

/-! ### RESET, SETKEY, CHN.ENC -/

/-- The state with everything that CHN.ENC neither reads nor writes at its reset value. -/
def chainingPart (s : State) : State :=
  { State.resetWith s.params with
    status := { (State.resetWith s.params).status with outlen := s.status.outlen }
    host := { (State.resetWith s.params).host with din := s.host.din }
    results := { (State.resetWith s.params).results with dout := s.results.dout }
    key := s.key
    modes := s.modes
    chn := s.chn }

theorem processBlock_chainingPart (dir : Dir) (x : Bytes) (s : State) : processBlock dir x (chainingPart s) =
    ((processBlock dir x s).1, chainingPart (processBlock dir x s).2) := by
  unfold processBlock
  rw [show (chainingPart s).modes = s.modes from rfl]
  cases s.modes.mode <;> cases dir <;> rfl

theorem absorb_chainingPart (dir : Dir) (l : Nat) (s : State) :
    absorb dir l (chainingPart s) = chainingPart (absorb dir l s) := by
  unfold absorb
  simp only [processBlock_chainingPart]
  rw [apply_ite chainingPart]
  rfl

/-- The same of a rule's result, the error left as it is. -/
def Run.chainingPart (r : Run) : Run := { state := Machine.chainingPart r.state, error := r.error }

/-- A data command does to the part what it does to the state, and raises the same error. -/
theorem chnDataRule_chainingPart (dir : Dir) (imm : Nat) (nc : Bool) (s : State) :
    chnDataRule dir imm nc (chainingPart s) = (chnDataRule dir imm nc s).chainingPart := by
  unfold chnDataRule
  rw [show chnCheck dir.otherPhase (chainingPart s) = chnCheck dir.otherPhase s from rfl]
  cases chnCheck dir.otherPhase s with
  | some e => rfl
  | none =>
    have hrun (t : State) : succeed (setCph dir.phase (absorb dir imm (chainingPart t))) =
        (succeed (setCph dir.phase (absorb dir imm t))).chainingPart := by
      rw [absorb_chainingPart]
      rfl
    simp only [apply_ite Run.chainingPart]
    exact if_congr Iff.rfl rfl (if_congr Iff.rfl
      (if_congr Iff.rfl rfl (hrun { s with chn := { s.chn with chain := s.chn.civ } })) (hrun s))

/-- What SETKEY does to the key and the chaining driver follows from the parameters, KEYBUF, the key and the driver. -/
theorem setkeyRule_congr {s t : State} (l ktype : Nat) (hp : s.params = t.params)
    (hkb : s.host.keybuf = t.host.keybuf) (hk : s.key = t.key) (hc : s.chn = t.chn) :
    (setkeyRule l ktype s).state.key = (setkeyRule l ktype t).state.key ∧
      (setkeyRule l ktype s).state.chn = (setkeyRule l ktype t).state.chn := by
  unfold setkeyRule
  rw [bsz_eq s, bsz_eq t, hp]
  split
  · exact ⟨hk, hc⟩
  · split
    · exact ⟨hk, hc⟩
    · split
      · exact ⟨hk, hc⟩
      · simp [keyOperand, hkb, hp, hc, bsz_eq]

/-- ERR, ECODE and EDET after a command say its result and nothing of the status before it (R402). -/
theorem Status.complete_result_congr (st st' : Status) (e : Option CmdError) :
    (st.complete e).err = (st'.complete e).err ∧ (st.complete e).ecode = (st'.complete e).ecode ∧
      (st.complete e).edet = (st'.complete e).edet := by
  cases e <;> exact ⟨rfl, rfl, rfl⟩

/-- CHN.ENC on states that agree in the part it reads: the same driver, output and result. -/
theorem execChnEnc_congr {s s' t t' : State} {imm : Nat} {nc : Bool}
    (hpart : chainingPart (clearOut s) = chainingPart (clearOut s')) (h : exec (.chnEnc imm nc) s = .next t)
    (h' : exec (.chnEnc imm nc) s' = .next t') :
    t.chn = t'.chn ∧ t.results.dout = t'.results.dout ∧ t.status.outlen = t'.status.outlen ∧
      t.status.err = t'.status.err ∧ t.status.ecode = t'.status.ecode ∧ t.status.edet = t'.status.edet := by
  have hrun : (chnDataRule .enc imm nc (clearOut s)).chainingPart =
      (chnDataRule .enc imm nc (clearOut s')).chainingPart := by
    rw [← chnDataRule_chainingPart, hpart, chnDataRule_chainingPart]
  have hstate : chainingPart (ruleOf (.chnEnc imm nc) s).state = chainingPart (ruleOf (.chnEnc imm nc) s').state :=
    congrArg Run.state hrun
  have herror : (ruleOf (.chnEnc imm nc) s).error = (ruleOf (.chnEnc imm nc) s').error :=
    (congrArg Run.error hrun :)
  rw [(exec_next_iff _ _ _).mp h, (exec_next_iff _ _ _).mp h']
  refine ⟨(congrArg State.chn hstate :), (congrArg (fun a => a.results.dout) hstate :), ?_, ?_⟩
  · simpa [chainingPart] using congrArg (fun a => a.status.outlen) hstate
  · rw [herror]
    exact Status.complete_result_congr _ _ _

/-- Settles O14: RESET leaves the reset values, SETKEY's effect follows from what the two instances share, and CHN.ENC
reads only what they share then. -/
theorem resetThenSetkeyIsFresh : Obligations.ResetThenSetkeyIsFresh := by
  intro s r u v t t' kb d l imm nc hr hu hv ht ht'
  obtain rfl := Host.Outcome.next.inj ((resetAndClearStates.2.2 s).1.symm.trans hr)
  obtain ⟨ru, hou⟩ := exec_owned hu
  obtain ⟨rv, hov⟩ := exec_owned hv
  have hparams : u.params = v.params :=
    (congrArg OwnedRegs.params hou).trans (congrArg OwnedRegs.params hov).symm
  have hmodes : u.modes = v.modes := (congrArg OwnedRegs.modes hou).trans (congrArg OwnedRegs.modes hov).symm
  obtain ⟨hkey, hchn⟩ : u.key = v.key ∧ u.chn = v.chn := by
    rw [(exec_next_iff _ _ _).mp hu, (exec_next_iff _ _ _).mp hv]
    exact setkeyRule_congr l 0 rfl rfl rfl rfl
  refine ⟨hkey, hchn, execChnEnc_congr ?_ ht ht'⟩
  simp [chainingPart, hparams, hmodes, hkey, hchn]

end Sys2Proof.Machine
end

section
/-! PROOFS. The output length of an encode stream (40_control.md R191): what each command of the stream takes in and puts
out, and the balance of bytes it keeps. -/

namespace Sys2Proof.Machine

/-- A command run to success is a rule that succeeds, and its output is what the host reads then. -/
theorem runCommand_some {i : Instr} {s t : State} {b : Bytes} (h : runCommand i s = some (b, t)) :
    ∃ r, ruleOf i s = succeed r ∧ t = okState r ∧ b = outputBytes t := by
  unfold runCommand at h
  rw [exec_eq_complete, complete_eq] at h
  cases hrule : ruleOf i s with
  | mk r error =>
    rw [hrule] at h
    cases error with
    | some e => simp [Status.complete_some] at h
    | none =>
      simp only [Status.complete_none, Bool.false_eq_true, if_false, Option.some.injEq, Prod.mk.injEq] at h
      obtain ⟨rfl, rfl⟩ := h
      exact ⟨r, rfl, rfl, rfl⟩

theorem Consistent.outputBytes_length {s : State} (h : Consistent s) : (outputBytes s).length = s.status.outlen := by
  simp [outputBytes, h.outputBound]

theorem raise_ne_succeed (s t : State) (e : CmdError) : raise s e ≠ succeed t :=
  fun h => Option.some_ne_none e (congrArg Run.error h)

/-- absorb after the cleared output: every byte is put out or buffered, and the output is empty or one block. -/
theorem absorb_balance (dir : Dir) {l : Nat} {s : State} (h : s.chn.iblen ≤ 16) (hl : l ≤ s.bsz)
    (hout : s.status.outlen = 0) :
    (absorb dir l s).status.outlen + (absorb dir l s).chn.iblen = s.chn.iblen + l ∧
      s.bsz ∣ (absorb dir l s).status.outlen := by
  have hl16 : l ≤ 16 := hl.trans (bsz_le s)
  have hlen : (absorbed l s).length = s.chn.iblen + l := absorbed_length l s h hl16
  by_cases ho : outputsBlock dir l s
  · have hle : s.bsz ≤ s.chn.iblen + l := by rcases ho with ho | ⟨ho, -⟩ <;> omega
    have hblock : (processBlock dir ((absorbed l s).take s.bsz) s).1.length = s.bsz :=
      processBlock_length _ _ _ (by rw [List.length_take, hlen, Nat.min_eq_left hle])
    rw [absorb_output dir l s h hl16 ho]
    simp [hblock, hlen, hle]
  · rw [absorb_hold dir l s h hl16 ho]
    simp [hout, hlen]

/-- A data command that succeeds after the cleared output is in its stream and keeps the balance of absorb. -/
theorem chnDataRule_balance {dir : Dir} {l : Nat} {nc : Bool} {s r : State} (h : Consistent s)
    (hout : s.status.outlen = 0) (hr : chnDataRule dir l nc s = succeed r) :
    r.chn.cph = dir.phase ∧ r.status.outlen + r.chn.iblen = s.chn.iblen + l ∧ s.bsz ∣ r.status.outlen := by
  rcases chnDataRule_cases dir l nc s with ⟨e, he⟩ | ⟨-, -, hl, k, -, he⟩
  · exact absurd (he.symm.trans hr) (raise_ne_succeed _ _ _)
  · obtain rfl := congrArg Run.state (he.symm.trans hr)
    exact ⟨rfl, absorb_balance dir (s := { s with chn := { s.chn with chain := k } }) h.iblen_le hl hout⟩

/-- A finish that succeeds after the cleared output: nothing is put out and nothing stood in the buffer, or the last block
is padded and put out. -/
theorem chnFineRule_outlen {s r : State} (h : Consistent s) (hout : s.status.outlen = 0)
    (hr : chnFineRule s = succeed r) :
    (s.modes.pad = .none ∧ s.chn.iblen = 0 ∧ r.status.outlen = 0) ∨
    (s.modes.pad ≠ .none ∧ s.chn.iblen < s.bsz ∧ r.status.outlen = s.bsz) := by
  rcases chnFineRule_cases s with ⟨e, he⟩ | ⟨-, hp, ⟨hpad, hempty, he⟩ | ⟨hpad, he⟩⟩
  · exact absurd (he.symm.trans hr) (raise_ne_succeed _ _ _)
  · obtain rfl := congrArg Run.state (he.symm.trans hr)
    exact .inl ⟨hpad, hempty, hout⟩
  · obtain rfl := congrArg Run.state (he.symm.trans hr)
    exact .inr ⟨hpad, h.iblen_lt hp, processBlock_length .enc _ s (h.paddedBlock_length hp hpad)⟩

/-- Whole blocks and less than a block, padded: one block more. -/
theorem outputSize_of_padded {pad : PadMode} (hpad : pad ≠ .none) {bs given rest : Nat} (hg : bs ∣ given)
    (hr : rest < bs) : outputSize bs pad (given + rest) = given + bs := by
  obtain ⟨k, rfl⟩ := hg
  rw [outputSize, if_neg hpad, Nat.mul_add_div (by omega), Nat.div_eq_of_lt hr, Nat.add_zero, Nat.mul_comm bs k,
    Nat.add_one_mul]

/-- An encode stream that began in `s` stands in `t` after `taken` bytes of input and `given` bytes of output. -/
structure EncodeStream (s t : State) (taken given : Nat) : Prop where
  consistent : Consistent t
  phase : t.chn.cph = .idle ∨ t.chn.cph = .enc
  params : t.params = s.params
  modes : t.modes = s.modes
  blocks : s.bsz ∣ given
  balance : given + t.chn.iblen = taken

namespace EncodeStream

variable {s t u : State} {taken given : Nat}

theorem start (h : Consistent s) (hp : s.chn.cph = .idle) : EncodeStream s s 0 0 where
  consistent := h
  phase := .inl hp
  params := rfl
  modes := rfl
  blocks := Nat.dvd_zero _
  balance := (Nat.zero_add _).trans (h.idleEmpty hp)

theorem bsz (h : EncodeStream s t taken given) : t.bsz = s.bsz := by rw [bsz_eq, h.params, bsz_eq]

/-- One more chunk. -/
theorem chunk (h : EncodeStream s t taken given) {c b : Bytes}
    (hr : runCommand (.chnEnc c.length false) (loadDin c t) = some (b, u)) :
    EncodeStream s u (taken + c.length) (given + b.length) := by
  obtain ⟨r, hrule, rfl, rfl⟩ := runCommand_some hr
  have hx := exec_of_succeed hrule
  obtain ⟨_, ho⟩ := exec_owned hx
  have hload : Consistent (loadDin c t) := { h.consistent with }
  have hu : Consistent (okState r) := hload.exec hx
  obtain ⟨hph, hsum, hblock⟩ := chnDataRule_balance hload.clearOut rfl hrule
  refine ⟨hu, .inr hph, (congrArg OwnedRegs.params ho).trans h.params, (congrArg OwnedRegs.modes ho).trans h.modes,
    ?_, ?_⟩
  · rw [hu.outputBytes_length]
    exact h.blocks.add (h.bsz ▸ hblock)
  · rw [hu.outputBytes_length, Nat.add_assoc, ← h.balance, Nat.add_assoc]
    exact congrArg (given + ·) hsum

theorem chunks {cs : List Bytes} {b : Bytes} (h : EncodeStream s t taken given)
    (hr : runChunks .enc cs t = some (b, u)) : EncodeStream s u (taken + cs.flatten.length) (given + b.length) := by
  induction cs generalizing t taken given b with
  | nil =>
    cases hr
    exact h
  | cons c cs ih =>
    unfold runChunks at hr
    cases hc : runCommand (dataCommand .enc c.length false) (loadDin c t) with
    | none => simp [hc] at hr
    | some r =>
      simp only [hc, Option.map_eq_some_iff] at hr
      obtain ⟨q, hq, heq⟩ := hr
      cases heq
      simpa [Nat.add_assoc] using ih (h.chunk hc) hq

/-- The finish makes the output WAIST's size of the input: nothing stands in the buffer, or less than a block, which the
padding completes. -/
theorem finish (h : EncodeStream s t taken given) {b : Bytes} (hr : runCommand .chnFine t = some (b, u)) :
    given + b.length = outputSize s.bsz s.modes.pad taken := by
  obtain ⟨r, hrule, rfl, rfl⟩ := runCommand_some hr
  rw [(h.consistent.exec (exec_of_succeed hrule)).outputBytes_length, ← h.balance, ← h.modes]
  have hfine := chnFineRule_outlen h.consistent.clearOut rfl hrule
  simp only [clearOut_modes, clearOut_chn, clearOut_bsz, h.bsz] at hfine
  rcases hfine with ⟨hpad, hempty, hout⟩ | ⟨hpad, hlt, hout⟩
  · rw [outputSize, if_pos hpad]
    exact congrArg (given + ·) (hout.trans hempty.symm)
  · rw [outputSize_of_padded hpad h.blocks hlt]
    exact congrArg (given + ·) hout

end EncodeStream

/-- Settles O37: the balance of the stream, and WAIST's equation. -/
theorem waistIsTheStreamOutputLength : Obligations.WaistIsTheStreamOutputLength := by
  intro s u chunks c h hp _ hlen hr
  refine ⟨_, exec_of_succeed rfl, (waist_toNat _).trans ?_⟩
  unfold runStream at hr
  cases hc : runChunks .enc chunks s with
  | none => simp [hc] at hr
  | some r =>
    simp only [hc, Option.map_eq_some_iff] at hr
    obtain ⟨q, hq, heq⟩ := hr
    cases heq
    have hfinish := ((EncodeStream.start h hp).chunks hc).finish hq
    rw [Nat.zero_add, Nat.zero_add] at hfinish
    rw [List.length_append, hfinish]
    exact congrArg (outputSize s.bsz s.modes.pad) (Nat.mod_eq_of_lt hlen)

end Sys2Proof.Machine
end

section
/-! PROOFS. The data and finish commands of the chaining driver (41_chaining.md): the state each leaves when its checks
pass, whatever the state, and the statements about one command. -/

namespace Sys2Proof.Machine

/-! ### Words and states of the statements -/

theorem ruleOf_dataCommand (dir : Dir) (l : Nat) (nc : Bool) (s : State) :
    ruleOf (dataCommand dir l nc) s = chnDataRule dir l nc (clearOut s) := by cases dir <;> rfl

theorem streamPhase_eq (dir : Dir) : streamPhase dir = dir.phase := by cases dir <;> rfl

theorem clearOut_eq_emptyOut (s : State) : clearOut s = emptyOut s := by
  rw [clearOut, out, fill_nil]
  rfl

/-- A command whose rule raises an error in a state it has reached. -/
theorem exec_of_raise_in {i : Instr} {s t : State} {e : CmdError} (h : ruleOf i s = raise t e) :
    exec i s = .next (errState t e.ecode e.edet) := by
  rw [exec_eq_complete, h]
  rfl

/-! ### One block through the driver -/

/-- process_block in a state that agrees with another in what it reads: the same block and the same CHAIN. -/
theorem processBlock_transfer (dir : Dir) (x : Bytes) {s t : State} (hp : t.params = s.params)
    (hm : t.modes.mode = s.modes.mode) (hk : t.key.ks = s.key.ks) (hc : t.chn.chain = s.chn.chain) :
    processBlock dir x t = ((processBlock dir x s).1,
      { t with chn := { t.chn with chain := (processBlock dir x s).2.chn.chain } }) := by
  obtain ⟨hy, hn⟩ := processBlock_congr dir x s t hp hm hk hc
  refine Prod.ext hy ?_
  rw [processBlock_state, processBlock_state, hn, hc]

/-- The state after one block: the output, the next CHAIN, the bytes left in the buffer, the phase. -/
def blockDone (dir : Dir) (x rest : Bytes) (ph : ChainPhase) (s : State) : State :=
  setCph ph (setBuffer rest (out (processBlock dir x s).1 (processBlock dir x s).2))

/-- Written out: a block of BS bytes gives BS bytes. -/
theorem blockDone_eq {dir : Dir} {x : Bytes} (rest : Bytes) (ph : ChainPhase) {s : State} (hx : x.length = s.bsz) :
    blockDone dir x rest ph s = { s with
      results := { s.results with dout := fill 16 (processBlock dir x s).1 }
      status := { s.status with outlen := s.bsz }
      chn := { s.chn with
        chain := ((nextChain dir x s).map (fill 16)).getD s.chn.chain
        ibuf := fill 16 rest
        iblen := rest.length
        cph := ph } } := by
  rw [blockDone, processBlock_state, out, processBlock_length dir x s hx]
  rfl

/-- The emptied output makes no difference to a block. -/
theorem blockDone_clearOut (dir : Dir) (x rest : Bytes) (ph : ChainPhase) (s : State) :
    blockDone dir x rest ph (clearOut s) = blockDone dir x rest ph s := by
  rw [blockDone, processBlock_transfer dir x (s := s) (t := clearOut s) rfl rfl rfl rfl, blockDone, processBlock_state]
  rfl

/-- A block neither reads nor writes DIN. -/
theorem blockDone_loadDin (dir : Dir) (x rest : Bytes) (ph : ChainPhase) (b : Bytes) (s : State) :
    blockDone dir x rest ph (loadDin b s) = loadDin b (blockDone dir x rest ph s) := by
  rw [blockDone, processBlock_transfer dir x (s := s) (t := loadDin b s) rfl rfl rfl rfl, blockDone, processBlock_state]
  rfl

/-! ### The data commands -/

/-- Whether the buffered bytes and the chunk make a block that goes out (R213, R215), by the bytes themselves. -/
def makesBlock (dir : Dir) (l : Nat) (s : State) : Prop :=
  s.bsz < (absorbed l s).length ∨ ((absorbed l s).length = s.bsz ∧ ¬(dir = .dec ∧ s.modes.pad ≠ .none))

theorem makesBlock.length_take {dir : Dir} {l : Nat} {s : State} (h : makesBlock dir l s) :
    ((absorbed l s).take s.bsz).length = s.bsz := by
  rw [List.length_take]
  rcases h with h | ⟨h, -⟩ <;> omega

theorem makesBlock_iff_outputsBlock (dir : Dir) {l : Nat} {s : State} (h : s.chn.iblen ≤ 16) (hl : l ≤ 16) :
    makesBlock dir l s ↔ outputsBlock dir l s := by
  rw [makesBlock, outputsBlock, absorbed_length l s h hl]

theorem setCph_absorb_of_makesBlock {dir : Dir} {l : Nat} {s : State} (h : makesBlock dir l s) :
    setCph dir.phase (absorb dir l s) =
      blockDone dir ((absorbed l s).take s.bsz) ((absorbed l s).drop s.bsz) dir.phase s :=
  congrArg (setCph dir.phase) (if_pos (by rwa [holdsBack_eq_false_iff]))

theorem absorb_of_not_makesBlock {dir : Dir} {l : Nat} {s : State} (h : ¬makesBlock dir l s) :
    absorb dir l s = setBuffer (absorbed l s) s :=
  if_neg (by rwa [holdsBack_eq_false_iff])

section
variable {s : State} {dir : Dir} {l : Nat} {nc : Bool} (hk : s.key.keyed = true)
  (hp : s.chn.cph = .idle ∨ s.chn.cph = dir.phase) (hl : l ≤ s.bsz) (hn : ¬(s.modes.mode = .xcbc ∧ nc = true))

include hk hp hl hn

/-- A data command that makes a block. -/
theorem exec_dataCommand_block (h : makesBlock dir l s) : exec (dataCommand dir l nc) s = .next (okState
    (blockDone dir ((absorbed l s).take s.bsz) ((absorbed l s).drop s.bsz) dir.phase s)) := by
  refine exec_of_succeed ?_
  rw [ruleOf_dataCommand, chnDataRule_runs dir l nc (clearOut s) hk hp hl hn, setCph_absorb_of_makesBlock (s := clearOut s) h,
    blockDone_clearOut]
  rfl

/-- A data command whose bytes are one block, which goes out at once. -/
theorem exec_dataCommand_wholeBlock (hx : (absorbed l s).length = s.bsz) (hd : ¬(dir = .dec ∧ s.modes.pad ≠ .none)) :
    exec (dataCommand dir l nc) s = .next (okState (blockDone dir (absorbed l s) [] dir.phase s)) := by
  rw [exec_dataCommand_block hk hp hl hn (.inr ⟨hx, hd⟩), List.take_of_length_le hx.le,
    List.drop_eq_nil_of_le hx.le]

/-- A data command that makes none buffers its chunk. -/
theorem exec_dataCommand_hold (h : ¬makesBlock dir l s) : exec (dataCommand dir l nc) s = .next (okState
    (setCph dir.phase (setBuffer (absorbed l s) (emptyOut s)))) := by
  refine exec_of_succeed ?_
  rw [ruleOf_dataCommand, chnDataRule_runs dir l nc (clearOut s) hk hp hl hn,
    absorb_of_not_makesBlock (s := clearOut s) h, clearOut_eq_emptyOut]
  rfl

end

/-- A data command of XCBC with NC = 1 that passes the common checks (R211). -/
theorem chnDataRule_newCall {s : State} {dir : Dir} {l : Nat} (hk : s.key.keyed = true)
    (hp : s.chn.cph = .idle ∨ s.chn.cph = dir.phase) (hl : l ≤ s.bsz) (hm : s.modes.mode = .xcbc) :
    chnDataRule dir l true s =
      if s.chn.iblen ≠ 0 then raise s .callAlign
      else succeed (setCph dir.phase (absorb dir l { s with chn := { s.chn with chain := s.chn.civ } })) := by
  rw [chnDataRule, (chnCheck_otherPhase_none_iff dir s).mpr ⟨hk, hp⟩]
  exact (if_neg (Nat.not_lt.mpr hl)).trans (if_pos ⟨hm, rfl⟩)

/-- Settles O28: process_block and its CHAIN, mode by mode, in the state of a command that makes a block. -/
theorem chainingEquations : Obligations.ChainingEquations := by
  intro s dir l nc ks _ hk hks hp hl hn n buf hfull E D x c yc
  have hE (b : Bytes) : encryptBlock s b = E b := by simp [encryptBlock, schedule, hks, E, n, bsz_eq]
  have hD (b : Bytes) : decryptBlock s b = D b := by simp [decryptBlock, schedule, hks, D, n, bsz_eq]
  have hyc : yc = ((processBlock dir x s).1, nextChain dir x s) := by
    simp only [yc, processBlock, nextChain, hE, hD]
    cases s.modes.mode <;> cases dir <;> rfl
  have hblock : makesBlock dir l s := hfull
  rw [streamPhase_eq] at hp ⊢
  rw [exec_dataCommand_block hk hp hl hn hblock, blockDone_eq _ _ hblock.length_take, List.length_drop, hyc]
  rfl

/-- Settles O29: the two states a data command can leave, with the counts of a consistent state. -/
theorem dataCommandBuffersAndOutputs : Obligations.DataCommandBuffersAndOutputs := by
  intro s dir l nc h hk hp hl hn n buf full
  rw [streamPhase_eq] at hp ⊢
  have hl16 : l ≤ 16 := hl.trans (bsz_le s)
  have hlen : (absorbed l s).length = s.chn.iblen + l := absorbed_length l s h.iblen_le hl16
  have hfull : makesBlock dir l s ↔ full := makesBlock_iff_outputsBlock dir h.iblen_le hl16
  by_cases hm : makesBlock dir l s
  · have hrest : ((absorbed l s).drop s.bsz).length = s.chn.iblen + l - n := by
      rw [List.length_drop, hlen]
      rfl
    have hrest16 : ((absorbed l s).drop s.bsz).length ≤ 16 := by
      have := h.buffered
      rw [List.length_drop, hlen]
      omega
    refine ⟨_, exec_dataCommand_block hk hp hl hn hm, fun _ => ?_, fun hf => absurd (hfull.mp hm) hf, ?_⟩
    · exact ⟨processBlock_length _ _ _ hm.length_take, hrest, toList_take_fill _ 16 _ rfl hrest16⟩
    · rw [blockDone_eq _ _ hm.length_take]
      rfl
  · have hall16 : (absorbed l s).length ≤ 16 := (Nat.not_lt.mp fun hlt => hm (.inl hlt)).trans (bsz_le s)
    exact ⟨_, exec_dataCommand_hold hk hp hl hn hm, fun hf => absurd (hfull.mpr hf) hm,
      fun _ => ⟨rfl, rfl, hlen, toList_take_fill _ 16 _ rfl hall16, rfl⟩, rfl⟩

/-- Settles O30: the data rule reads NC in XCBC only, where NC = 1 is `chnDataRule_newCall`. -/
theorem newCallReseedsChain : Obligations.NewCallReseedsChain := by
  intro s dir l
  rw [streamPhase_eq]
  refine ⟨fun hm => ?_, fun hm hk hp hl => ⟨fun hi => ?_, fun hi => ?_⟩⟩
  · rw [exec_eq_complete, exec_eq_complete, ruleOf_dataCommand, ruleOf_dataCommand]
    simp [chnDataRule, hm]
  · refine exec_of_raise_in (e := .callAlign) ?_
    rw [ruleOf_dataCommand, chnDataRule_newCall (s := clearOut s) hk hp hl hm, ← clearOut_eq_emptyOut]
    exact if_pos hi
  · rw [exec_eq_complete, exec_eq_complete, ruleOf_dataCommand, ruleOf_dataCommand,
      chnDataRule_newCall (s := clearOut s) hk hp hl hm]
    refine congrArg complete ((if_neg (not_not.mpr hi)).trans ?_)
    exact (chnDataRule_runs dir l false (clearOut { s with chn := { s.chn with chain := s.chn.civ } }) hk hp hl
      fun h => nomatch h.2).symm

/-! ### CBC encode -/

/-- A lawful transform's encode direction is injective on blocks (R9). -/
theorem Lawful.btEnc_inj {bt : Transform} {n : Nat} (law : Lawful bt n) {ks : KeySchedule} {a b : Bytes}
    (ha : a.length = n) (hb : b.length = n) (h : btEnc bt n ks a = btEnc bt n ks b) : a = b := by
  rw [← law ks a ha, h, law ks b hb]

/-- The block that CHN.ENC puts out in CBC, which is the next CHAIN too (R207). -/
theorem exec_chnEnc_cbc {s t : State} {l n : Nat} (hbsz : s.bsz = n) (hk : s.key.keyed = true)
    (hm : s.modes.mode = .cbc) (hp : s.chn.cph = .idle ∨ s.chn.cph = .enc) (hl : l ≤ n)
    (hx : ((absorbed l s).take n).length = n) (h : exec (.chnEnc l false) s = .next t) :
    let y := btEnc s.params.bt n (schedule s) (xorBytes ((absorbed l s).take n) (first s.chn.chain n))
    first t.results.dout n = y ∧ first t.chn.chain n = y ∧ t.chn.cph = .enc := by
  subst hbsz
  have hblock : makesBlock .enc l s := by
    rw [List.length_take, inf_eq_left] at hx
    exact (Nat.lt_or_eq_of_le hx).imp_right fun he => ⟨he.symm, nofun⟩
  have hexec := exec_dataCommand_block (dir := .enc) (nc := false) hk hp hl (fun hn => nomatch hn.2) hblock
  obtain rfl := Host.Outcome.next.inj (hexec.symm.trans h)
  have hy := first_fill _ 16 _ (encryptBlock_length s
    (xorBytes ((absorbed l s).take s.bsz) (chainBytes s))) (bsz_le s)
  rw [blockDone_eq _ _ hx]
  simp only [okState, processBlock, nextChain, hm]
  exact ⟨hy, hy, rfl⟩

/-- Settles O39: E is injective, and so is the exclusive or in either operand. -/
theorem cbcDiffusion : Obligations.CbcDiffusion := by
  intro s s' t t' l l' law hparams hkey hk hm hm' hp hp' n block chain output hl hl' hx hx' ht ht' hdiff
  have hbsz' : s'.bsz = n := by rw [bsz_eq, hparams]
  obtain ⟨hout, hnext, hph⟩ := exec_chnEnc_cbc (n := n) rfl hk hm hp hl hx ht
  obtain ⟨hout', hnext', hph'⟩ := exec_chnEnc_cbc hbsz' (hkey ▸ hk) hm' hp' hl' hx' ht'
  refine ⟨fun heq => ?_, hnext.trans hout.symm, hnext'.trans hout'.symm, hph, hph'⟩
  have hc : (chain s).length = n := first_length _ _ (bsz_le s)
  have hc' : (chain s').length = n := first_length _ _ (bsz_le s)
  rw [hparams, schedule, hkey] at hout'
  have hxor : xorBytes (block s l) (chain s) = xorBytes (block s' l') (chain s') :=
    law.btEnc_inj (by simp [hx, hc, n]) (by simp [hx', hc', n]) (hout.symm.trans (heq.trans hout'))
  rcases hdiff with ⟨hchain, hne⟩ | ⟨hblock, hne⟩
  · rw [← hchain] at hxor
    exact hne (xorBytes_left_inj _ _ _ (hx.trans hc.symm) (hx'.trans hc.symm) hxor)
  · rw [← hblock, xorBytes_comm, xorBytes_comm (block s l)] at hxor
    exact hne (xorBytes_left_inj _ _ _ (hc.trans hx.symm) (hc'.trans hx.symm) hxor)

/-! ### The finish commands -/

section
variable {s : State} (hk : s.key.keyed = true)

include hk

section
variable (hp : s.chn.cph = .idle ∨ s.chn.cph = .enc)

include hp

theorem chnFineRule_unpadded (hpad : s.modes.pad = .none) (hi : s.chn.iblen = 0) :
    chnFineRule s = succeed (setCph .idle (setBuffer [] s)) := by
  have hcheck : chnCheck .dec s = none := (chnCheck_otherPhase_none_iff .enc s).mpr ⟨hk, hp⟩
  rw [chnFineRule, hcheck]
  exact (if_pos hpad).trans (if_neg (not_not.mpr hi))

/-- The last block is the buffered bytes and the padding. -/
theorem chnFineRule_padded (hpad : s.modes.pad ≠ .none) : chnFineRule s = succeed
    (blockDone .enc (bufferedBytes s ++ padBytes s.modes.pad (s.bsz - s.chn.iblen)) [] .idle s) := by
  have hcheck : chnCheck .dec s = none := (chnCheck_otherPhase_none_iff .enc s).mpr ⟨hk, hp⟩
  rw [chnFineRule, hcheck]
  exact if_neg hpad

end

variable (hp : s.chn.cph = .idle ∨ s.chn.cph = .dec)

include hp

theorem chnFindRule_unpadded (hpad : s.modes.pad = .none) (hi : s.chn.iblen = 0) :
    chnFindRule s = succeed (setCph .idle s) := by
  have hcheck : chnCheck .enc s = none := (chnCheck_otherPhase_none_iff .dec s).mpr ⟨hk, hp⟩
  rw [chnFindRule, hcheck]
  exact (if_pos hpad).trans (if_neg (not_not.mpr hi))

theorem chnFindRule_short (hpad : s.modes.pad ≠ .none) (hi : s.chn.iblen ≠ s.bsz) :
    chnFindRule s = raise (setCph .failed (setBuffer [] s)) .padShort := by
  have hcheck : chnCheck .enc s = none := (chnCheck_otherPhase_none_iff .dec s).mpr ⟨hk, hp⟩
  rw [chnFindRule, hcheck]
  exact (if_neg hpad).trans (if_pos hi)

/-- The held block goes to the padding check (R230). -/
theorem chnFindRule_held (hpad : s.modes.pad ≠ .none) (hi : s.chn.iblen = s.bsz) :
    let r := processBlock .dec (bufferedBytes s) s
    (padLength s.modes.pad s.bsz r.1 = none →
      chnFindRule s = raise (setCph .failed (setBuffer [] r.2)) .padBad) ∧
    ∀ p, padLength s.modes.pad s.bsz r.1 = some p →
      chnFindRule s = succeed (setCph .idle (out (r.1.take (s.bsz - p)) (setBuffer [] r.2))) := by
  have hcheck : chnCheck .enc s = none := (chnCheck_otherPhase_none_iff .dec s).mpr ⟨hk, hp⟩
  rw [chnFindRule, hcheck, bufferedBytes, hi]
  simp only [if_neg hpad, ne_eq, not_true_eq_false, if_false]
  exact ⟨fun hnone => by rw [hnone], fun p hsome => by rw [hsome]⟩

end

/-- Emptying a buffer that is empty and zero filled does nothing. -/
theorem ZeroFilled.setBuffer_nil {s : State} (hz : ZeroFilled s) (hi : s.chn.iblen = 0) : setBuffer [] s = s := by
  have hbuf : fill 16 [] = s.chn.ibuf := Vector.ext fun i h => by
    rw [fill_getElem]
    exact (hz.ibuf ⟨i, h⟩ (hi ▸ Nat.zero_le i)).symm
  rw [setBuffer, hbuf, List.length_nil, ← hi]

/-- Settles O32: CHN.FINE also empties a buffer that is empty already. -/
theorem unpaddedFinishEndsStream : Obligations.UnpaddedFinishEndsStream := by
  intro s dir hk hp hpad hi hz
  refine exec_of_succeed ?_
  rw [← clearOut_eq_emptyOut]
  cases dir with
  | enc =>
    exact (chnFineRule_unpadded (s := clearOut s) hk hp hpad hi).trans
      (congrArg (fun t => succeed (setCph .idle (clearOut t))) (hz.setBuffer_nil hi))
  | dec => exact chnFindRule_unpadded (s := clearOut s) hk hp hpad hi

/-- The padding bytes the statements write out are `pad_bytes` (R217). -/
theorem padBytes_of_cases {pad : PadMode} {p : Nat} {padding : Bytes}
    (h : (pad = .bit ∧ padding = 0x80#8 :: List.replicate (p - 1) 0) ∨
      (pad = .x923 ∧ padding = List.replicate (p - 1) 0 ++ [BitVec.ofNat 8 p]) ∨
      (pad = .pkcs7 ∧ padding = List.replicate p (BitVec.ofNat 8 p))) : pad ≠ .none ∧ padding = padBytes pad p := by
  rcases h with ⟨rfl, rfl⟩ | ⟨rfl, rfl⟩ | ⟨rfl, rfl⟩ <;> exact ⟨nofun, rfl⟩

/-- Settles O33: the padding fed as a chunk makes the block that the finish makes. -/
theorem finishPadsTheLastBlock : Obligations.FinishPadsTheLastBlock := by
  intro s p padding h hk hp hlen hcases
  obtain ⟨hpad, rfl⟩ := padBytes_of_cases hcases
  have hlt : s.chn.iblen < s.bsz := h.iblen_lt hp
  have hle := bsz_le s
  rw [← bsz_eq] at hlen
  have hx : (bufferedBytes s ++ padBytes s.modes.pad p).length = s.bsz := by
    rw [← h.paddedBlock_length hp hpad, ← hlen]
  have hpl : (padBytes s.modes.pad p).length = p := padBytes_length _ _ hpad (by omega)
  have habs : absorbed p (loadDin (padBytes s.modes.pad p) s) =
      bufferedBytes s ++ padBytes s.modes.pad p :=
    congrArg (bufferedBytes s ++ ·) (first_fill p 16 _ hpl (by omega))
  have hfed := exec_dataCommand_wholeBlock (s := loadDin (padBytes s.modes.pad p) s) (dir := .enc) (nc := false) hk hp
    (show p ≤ s.bsz by omega) (fun hn => nomatch hn.2) (habs ▸ hx) nofun
  have hfine := exec_of_succeed (i := .chnFine) (chnFineRule_padded (s := clearOut s) hk hp hpad)
  rw [habs, blockDone_loadDin, blockDone_eq _ _ hx] at hfed
  rw [blockDone_clearOut, clearOut_bufferedBytes, clearOut_modes, clearOut_bsz, clearOut_chn, ← hlen,
    blockDone_eq _ _ hx] at hfine
  exact ⟨_, hfed, rfl, rfl, hfine⟩

/-- Settles O34: CHN.DEC without a chunk and without padding decodes the held block to what the check is given. -/
theorem finishStripsTheLastBlock : Obligations.FinishStripsTheLastBlock := by
  intro s hk hp hpad n
  refine ⟨fun hi => ?_, fun hi => ?_⟩
  · refine (exec_of_raise_in (i := .chnFind) (chnFindRule_short (s := clearOut s) hk hp hpad hi)).trans ?_
    rw [clearOut_eq_emptyOut, setBuffer, fill_nil]
    rfl
  · let s' : State := { s with modes := { s.modes with pad := .none } }
    have hx : (bufferedBytes s).length = n := (bufferedBytes_length s (hi.le.trans (bsz_le s))).trans hi
    have habs : absorbed 0 s' = bufferedBytes s := by
      rw [absorbed, chunk, first_zero, List.append_nil]
      rfl
    have hdec := exec_dataCommand_wholeBlock (s := s') (dir := .dec) (nc := false) hk hp (Nat.zero_le _)
      (fun hn => nomatch hn.2) (habs ▸ hx) (fun hd => hd.2 rfl)
    rw [habs] at hdec
    have hlen : (processBlock .dec (bufferedBytes s) s').1.length = n := processBlock_length .dec _ s' hx
    refine ⟨_, hdec, hlen, ?_⟩
    intro chain y
    have hy : y = (processBlock .dec (bufferedBytes s) s').1 := toList_take_fill n 16 _ hlen (bsz_le s)
    have hblock := processBlock_transfer .dec (bufferedBytes s) (s := s') (t := clearOut s) rfl rfl rfl rfl
    obtain ⟨hbad, hgood⟩ := chnFindRule_held (s := clearOut s) hk hp hpad hi
    rw [clearOut_bufferedBytes, hblock] at hbad hgood
    rw [hy, ← fill_nil]
    refine ⟨fun hnone => ?_, fun p hsome => ?_⟩
    · rw [exec_of_raise_in (i := .chnFind) (hbad hnone), clearOut_eq_emptyOut]
      rfl
    · have htake : ((processBlock .dec (bufferedBytes s) s').1.take ((clearOut s).bsz - p)).length = n - p := by
        rw [List.length_take, hlen]
        exact Nat.min_eq_left (Nat.sub_le n p)
      rw [exec_of_succeed (i := .chnFind) (hgood p hsome), out, htake]
      rfl

end Sys2Proof.Machine
end

section
/-! PROOFS. The padding engine (41_chaining.md R217, R219): the check of each padding mode accepts a block with pad length p
exactly when the block ends with the p padding bytes of the mode. -/

namespace Sys2Proof.Machine

/-- The zeros a byte string begins with, and the byte after them, as `takeWhile` finds them. -/
theorem eq_zeros_append_cons_iff {a : Byte} (ha : a ≠ 0) (r : Bytes) (k : Nat) : (∃ rest, r = zeros k ++ a :: rest) ↔
    (r.takeWhile fun b => b == 0).length = k ∧ (r.drop (r.takeWhile fun b => b == 0).length).head? = some a := by
  constructor
  · rintro ⟨rest, rfl⟩
    have hzeros : (zeros k ++ a :: rest).takeWhile (fun b => b == 0) = zeros k := by
      rw [List.takeWhile_append_of_pos (by simp [zeros]), List.takeWhile_cons_of_neg (by simpa using ha),
        List.append_nil]
    rw [hzeros, List.drop_left]
    exact ⟨by simp [zeros], rfl⟩
  · rintro ⟨hk, hhead⟩
    have hsplit : r = r.takeWhile (fun b => b == 0) ++ r.dropWhile fun b => b == 0 :=
      List.takeWhile_append_dropWhile.symm
    rw [(congrArg (List.drop _) hsplit).trans List.drop_left, List.head?_eq_some_iff] at hhead
    obtain ⟨rest, hrest⟩ := hhead
    have hzeros : r.takeWhile (fun b => b == 0) = zeros k :=
      List.eq_replicate_iff.mpr ⟨hk, fun b hb => by simpa using List.mem_takeWhile_imp hb⟩
    exact ⟨rest, by rw [← hzeros, ← hrest, ← hsplit]⟩

theorem padLength_bit_iff {n p : Nat} {y : Bytes} (hy : y.length = n) : padLength .bit n y = some p ↔
    1 ≤ p ∧ p ≤ n ∧ y.drop (n - p) = padBytes .bit p := by
  have hcheck : padLength .bit n y = some p ↔ 1 ≤ p ∧ ∃ rest, y.reverse = zeros (p - 1) ++ 0x80#8 :: rest := by
    rw [eq_zeros_append_cons_iff (by decide), padLength]
    simp only [Option.ite_none_right_eq_some, Option.some.injEq]
    exact ⟨fun ⟨hhead, ht⟩ => ⟨by omega, by omega, hhead⟩, fun ⟨hp, ht, hhead⟩ => ⟨hhead, by omega⟩⟩
  rw [hcheck, padBytes]
  refine and_congr_right fun hp => ⟨?_, ?_⟩
  · rintro ⟨rest, hr⟩
    have hsplit : y = rest.reverse ++ 0x80#8 :: zeros (p - 1) := by
      rw [← List.reverse_reverse y, hr]
      simp [zeros]
    have hlen := congrArg List.length hsplit
    simp only [hy, List.length_append, List.length_reverse, List.length_cons, zeros, List.length_replicate] at hlen
    refine ⟨by omega, ?_⟩
    rw [hsplit]
    exact List.drop_left' (by rw [List.length_reverse]; omega)
  · rintro ⟨-, hd⟩
    have hsplit : y = y.take (n - p) ++ 0x80#8 :: zeros (p - 1) := by rw [← hd, List.take_append_drop]
    exact ⟨(y.take (n - p)).reverse, (congrArg List.reverse hsplit).trans (by simp [zeros])⟩

/-- The shape of the checks that read the pad length from the last byte. -/
theorem lengthCheck_eq_some_iff {q n p : Nat} {c : Nat → Bool} :
    (if q = 0 ∨ q > n then none else if c q = true then some q else none) = some p ↔
      q = p ∧ 1 ≤ p ∧ p ≤ n ∧ c p = true := by
  split
  · next hq => exact ⟨nofun, fun ⟨he, h1, hn, _⟩ => by omega⟩
  · next hq =>
    rw [Option.ite_none_right_eq_some, Option.some.injEq]
    exact ⟨fun ⟨hc, he⟩ => ⟨he, by omega, by omega, he ▸ hc⟩, fun ⟨he, _, _, hc⟩ => ⟨he ▸ hc, he⟩⟩

theorem all_beq_iff {l : Bytes} {k : Nat} (hl : l.length = k) (c : Byte) :
    (l.all fun b => b == c) = true ↔ l = List.replicate k c := by
  simp [List.eq_replicate_iff, hl]

theorem byte_eq_ofNat_iff {p : Nat} (hp : p < 256) (b : Byte) : b = BitVec.ofNat 8 p ↔ b.toNat = p := by
  rw [← BitVec.toNat_inj, BitVec.toNat_ofNat, Nat.mod_eq_of_lt hp]

section
variable {n p : Nat} {init : Bytes} {b : Byte} (hi : init.length + 1 = n) (hn : n < 256)

include hi hn

theorem padLength_x923_iff : padLength .x923 n (init ++ [b]) = some p ↔
    1 ≤ p ∧ p ≤ n ∧ (init ++ [b]).drop (n - p) = padBytes .x923 p := by
  subst hi
  have hcheck := lengthCheck_eq_some_iff (q := b.toNat) (n := init.length + 1) (p := p)
    (c := fun p => (init.drop (init.length + 1 - p)).all fun b => b == 0)
  simp only [padLength, Nat.add_sub_cancel, List.take_left, List.getD_append_right _ _ _ _ le_rfl, Nat.sub_self,
    List.getD_cons_zero, hcheck]
  constructor
  · rintro ⟨hb, h1, hp, hall⟩
    rw [all_beq_iff (k := p - 1) (by rw [List.length_drop]; omega)] at hall
    refine ⟨h1, hp, ?_⟩
    rw [List.drop_append_of_le_length (by omega), hall, (byte_eq_ofNat_iff (by omega) b).mpr hb]
    rfl
  · rintro ⟨h1, hp, hd⟩
    rw [List.drop_append_of_le_length (by omega)] at hd
    obtain ⟨hzeros, hb⟩ := List.append_inj' hd rfl
    refine ⟨(byte_eq_ofNat_iff (by omega) b).mp (List.head_eq_of_cons_eq hb), h1, hp, ?_⟩
    rwa [all_beq_iff (k := p - 1) (by rw [List.length_drop]; omega)]

theorem padLength_pkcs7_iff : padLength .pkcs7 n (init ++ [b]) = some p ↔
    1 ≤ p ∧ p ≤ n ∧ (init ++ [b]).drop (n - p) = padBytes .pkcs7 p := by
  subst hi
  have hcheck := lengthCheck_eq_some_iff (q := b.toNat) (n := init.length + 1) (p := p)
    (c := fun p => ((init ++ [b]).drop (init.length + 1 - p)).all fun b => b == BitVec.ofNat 8 p)
  simp only [padLength, Nat.add_sub_cancel, List.getD_append_right _ _ _ _ le_rfl, Nat.sub_self,
    List.getD_cons_zero, hcheck]
  constructor
  · rintro ⟨-, h1, hp, hall⟩
    rw [all_beq_iff (k := p) (by rw [List.length_drop, List.length_append, List.length_singleton]; omega)] at hall
    exact ⟨h1, hp, hall⟩
  · rintro ⟨h1, hp, hd⟩
    have hmem : b ∈ padBytes .pkcs7 p := by
      rw [← hd, List.drop_append_of_le_length (by omega)]
      exact List.mem_append_right _ (List.mem_singleton_self b)
    refine ⟨(byte_eq_ofNat_iff (by omega) b).mp (List.eq_of_mem_replicate hmem), h1, hp, ?_⟩
    rwa [all_beq_iff (k := p) (by rw [List.length_drop, List.length_append, List.length_singleton]; omega)]

end

/-- The check of R219 by the padding bytes of R217. -/
theorem padLength_eq_some_iff {pad : PadMode} (hpad : pad ≠ .none) (bs : BlockSize) {y : Bytes}
    (hy : y.length = bs.bytes) (p : Nat) : padLength pad bs.bytes y = some p ↔
      1 ≤ p ∧ p ≤ bs.bytes ∧ y.drop (bs.bytes - p) = padBytes pad p := by
  obtain ⟨hpos, hlt⟩ : 0 < bs.bytes ∧ bs.bytes < 256 := by cases bs <;> decide
  obtain rfl | ⟨init, b, rfl⟩ := y.eq_nil_or_concat
  · exact absurd hy hpos.ne
  · rw [List.concat_eq_append] at *
    have hi : init.length + 1 = bs.bytes := by simpa using hy
    cases pad with
    | none => exact absurd rfl hpad
    | bit => exact padLength_bit_iff hy
    | x923 => exact padLength_x923_iff hi hlt
    | pkcs7 => exact padLength_pkcs7_iff hi hlt

/-- Settles O35: a block ends with the padding bytes exactly if they stand after its first BS - p bytes. -/
theorem paddingCheckIsExact : Obligations.PaddingCheckIsExact := by
  intro bs pad y p hpad hy
  rw [padLength_eq_some_iff hpad bs hy p]
  refine and_congr_right fun h1 => and_congr_right fun hp => ?_
  have hends : y.drop (bs.bytes - p) = padBytes pad p ↔
      ∃ m : Bytes, m.length = bs.bytes - p ∧ y = m ++ padBytes pad p := by
    constructor
    · intro hd
      exact ⟨y.take (bs.bytes - p), by rw [List.length_take]; omega, by rw [← hd, List.take_append_drop]⟩
    · rintro ⟨m, hm, rfl⟩
      exact List.drop_left' hm
  rw [hends]
  cases pad <;> rfl

end Sys2Proof.Machine
end

section
/-! PROOFS. The phase of the chaining driver (10_state.md R50, 41_chaining.md R232): what each command and each step can do
to it. -/

namespace Sys2Proof.Machine

/-! ### The GCM controller leaves the chaining driver alone -/

theorem opens_chn {s t : State} (h : Opens s t) : t.chn = s.chn := by
  rcases h with ⟨-, -, -, rfl⟩ | ⟨-, rfl⟩ <;> rfl

theorem cryptData_chn (dir : Dir) (l : Nat) (s : State) : (cryptData dir l s).chn = s.chn := by
  unfold cryptData
  split <;> rfl

theorem absorbAad_chn (l : Nat) (s : State) : (absorbAad l s).chn = s.chn := by
  obtain ⟨acc, alen, h⟩ := absorbAad_eq l s
  rw [h]

theorem compareTag_chn (s : State) : (compareTag s).state.chn = s.chn := by
  obtain ⟨acc, h⟩ := compareTag_state s
  rw [h]

theorem gcmSetivRule_chn (imm : Nat) (s : State) : (gcmSetivRule imm s).state.chn = s.chn := by
  rcases gcmSetivRule_cases imm s with ⟨e, h⟩ | ⟨-, -, -, h⟩ <;> rw [h] <;> rfl

theorem gcmSettaglenRule_chn (imm : Nat) (s : State) : (gcmSettaglenRule imm s).state.chn = s.chn := by
  rcases gcmSettaglenRule_cases imm s with ⟨e, h⟩ | ⟨-, h⟩ <;> rw [h] <;> rfl

theorem gcmAadRule_chn (imm : Nat) (s : State) : (gcmAadRule imm s).state.chn = s.chn := by
  rcases gcmAadRule_cases imm s with ⟨e, h⟩ | ⟨-, -, -, -, t, ho, h⟩ <;> rw [h]
  · rfl
  · exact (absorbAad_chn imm t).trans (opens_chn ho)

theorem gcmDataRule_chn (dir : Dir) (imm : Nat) (s : State) : (gcmDataRule dir imm s).state.chn = s.chn := by
  rcases gcmDataRule_cases dir imm s with ⟨e, h⟩ | ⟨-, -, -, -, -, t, ho, h⟩ <;> rw [h]
  · rfl
  · exact (cryptData_chn dir imm t).trans (opens_chn ho)

theorem gcmFineRule_chn (s : State) : (gcmFineRule s).state.chn = s.chn := by
  rcases gcmFineRule_cases s with ⟨e, h⟩ | ⟨-, -, -, t, ho, h⟩ <;> rw [h]
  · rfl
  · exact (opens_chn ho :)

theorem gcmFindRule_chn (s : State) : (gcmFindRule s).state.chn = s.chn := by
  rcases gcmFindRule_cases s with ⟨e, h⟩ | ⟨-, -, -, t, ho, h⟩ <;> rw [h]
  · rfl
  · exact (compareTag_chn t).trans (opens_chn ho)

/-! ### The phase after a command -/

/-- What can become of the phase: it is kept; it is not FAILED after a command that ran from another phase or was CLEAR,
RESET or SETKEY; or CHN.FIND ends with a PaddingError (ECODE 3). -/
inductive PhaseMove (i : Instr) (ph ph' : ChainPhase) (error : Option CmdError) : Prop
  | kept (h : ph' = ph)
  | moved (before : ph ≠ .failed) (after : ph' ≠ .failed)
  | cleared (h : i = .clear ∨ i = .reset ∨ ∃ l k, i = .setkey l k) (after : ph' ≠ .failed)
  | paddingError (h : i = .chnFind) (before : ph ≠ .failed) {e : CmdError} (he : error = some e) (hcode : e.ecode = 3)

/-- The phase of a stream is not FAILED. -/
theorem ne_failed_of_stream {ph : ChainPhase} {dir : Dir} (h : ph = .idle ∨ ph = dir.phase) : ph ≠ .failed := by
  cases dir <;> rcases h with rfl | rfl <;> nofun

theorem chnDataRule_phase (i : Instr) (dir : Dir) (l : Nat) (nc : Bool) (s : State) :
    PhaseMove i s.chn.cph (chnDataRule dir l nc s).state.chn.cph (chnDataRule dir l nc s).error := by
  rcases chnDataRule_cases dir l nc s with ⟨e, h⟩ | ⟨-, hp, -, c, -, h⟩ <;> rw [h]
  · exact .kept rfl
  · exact .moved (ne_failed_of_stream hp) (ne_failed_of_stream (dir := dir) (.inr rfl))

theorem chnFineRule_phase (i : Instr) (s : State) :
    PhaseMove i s.chn.cph (chnFineRule s).state.chn.cph (chnFineRule s).error := by
  rcases chnFineRule_cases s with ⟨e, h⟩ | ⟨-, hp, ⟨-, -, h⟩ | ⟨-, h⟩⟩ <;> rw [h]
  · exact .kept rfl
  · exact .moved (ne_failed_of_stream (dir := .enc) hp) nofun
  · exact .moved (ne_failed_of_stream (dir := .enc) hp) nofun

theorem chnFindRule_phase (s : State) :
    PhaseMove .chnFind s.chn.cph (chnFindRule s).state.chn.cph (chnFindRule s).error := by
  rcases chnFindRule_cases s with
    ⟨e, h⟩ | ⟨-, hp, ⟨-, -, h⟩ | ⟨-, -, h⟩ | ⟨-, -, ⟨-, h⟩ | ⟨p, -, h⟩⟩⟩ <;> rw [h]
  · exact .kept rfl
  · exact .moved (ne_failed_of_stream (dir := .dec) hp) nofun
  · exact .paddingError rfl (ne_failed_of_stream (dir := .dec) hp) rfl rfl
  · exact .paddingError rfl (ne_failed_of_stream (dir := .dec) hp) rfl rfl
  · exact .moved (ne_failed_of_stream (dir := .dec) hp) nofun

theorem ruleOf_phase (i : Instr) (s : State) :
    PhaseMove i s.chn.cph (ruleOf i s).state.chn.cph (ruleOf i s).error := by
  cases i with
  | nop | waist | gfMod | gfAdd | gfMul | gfGmm => exact .kept rfl
  | reset => exact .cleared (.inr (.inl rfl)) nofun
  | clear => exact .cleared (.inl rfl) nofun
  | setkey imm ktype =>
    rcases setkeyRule_cases imm ktype s with ⟨e, h⟩ | ⟨-, -, h⟩ <;> rw [ruleOf, h]
    · exact .kept rfl
    · exact .cleared (.inr (.inr ⟨_, _, rfl⟩)) nofun
  | setmode imm =>
    obtain ⟨m, h⟩ := setmodeRule_state imm s
    exact .kept (by rw [ruleOf, h])
  | setpad imm =>
    obtain ⟨p, h⟩ := setpadRule_state imm s
    exact .kept (by rw [ruleOf, h])
  | chnSetiv imm => rcases chnSetivRule_cases imm s with ⟨e, h⟩ | h <;> exact .kept (by rw [ruleOf, h]; rfl)
  | chnEnc imm nc => exact chnDataRule_phase _ .enc imm nc (clearOut s)
  | chnDec imm nc => exact chnDataRule_phase _ .dec imm nc (clearOut s)
  | chnFine => exact chnFineRule_phase _ (clearOut s)
  | chnFind => exact chnFindRule_phase (clearOut s)
  | gfInv =>
    obtain ⟨g, h⟩ := gfInvRule_state s
    exact .kept (by rw [ruleOf, h])
  | gfDiv =>
    obtain ⟨g, h⟩ := gfDivRule_state s
    exact .kept (by rw [ruleOf, h])
  | gcmSetiv imm => exact .kept (congrArg ChainState.cph (gcmSetivRule_chn imm s))
  | gcmSettaglen imm => exact .kept (congrArg ChainState.cph (gcmSettaglenRule_chn imm s))
  | gcmAad imm => exact .kept (congrArg ChainState.cph (gcmAadRule_chn imm (clearOut s)))
  | gcmEnc imm => exact .kept (congrArg ChainState.cph (gcmDataRule_chn .enc imm (clearOut s)))
  | gcmDec imm => exact .kept (congrArg ChainState.cph (gcmDataRule_chn .dec imm (clearOut s)))
  | gcmFine => exact .kept (congrArg ChainState.cph (gcmFineRule_chn (clearOut s)))
  | gcmFind => exact .kept (congrArg ChainState.cph (gcmFindRule_chn (clearOut s)))

/-! ### The phase after a step -/

theorem engineMoves_busy {s : State} (h : engineMoves s = true) : s.status.busy = true := by
  simp only [engineMoves, Bool.and_eq_true] at h
  exact h.1.1

/-- A host step keeps the phase, or asserts the reset input and leaves IDLE. -/
theorem applyEvent_phase {e : Event} {s t : State} (h : applyEvent e s = .next t) :
    t.chn.cph = s.chn.cph ∨ (e = .resetLine true ∧ t.chn.cph = .idle) := by
  rcases hostEvent_cases h with ⟨_, rfl⟩ | rfl | ⟨_, rfl⟩ | ⟨_, rfl⟩ | ⟨he, rfl⟩
  · exact .inl rfl
  · exact .inl rfl
  · exact .inl rfl
  · exact .inl rfl
  · exact .inr ⟨he, rfl⟩

/-- Settles O36: the moves of the commands, and of them CHN.FIND alone enters FAILED and three leave it. -/
theorem failedPhaseEntryAndExit : Obligations.FailedPhaseEntryAndExit := by
  intro s t h
  rcases step_cases h with ⟨hm, i, hi, hx⟩ | ⟨-, e, -, rfl⟩ | ⟨-, -, rfl⟩ | ⟨-, input, rest, hin, he⟩
  · have hmove := ruleOf_phase i s
    obtain rfl := (exec_next_iff i s t).mp hx
    cases hmove with
    | kept hk => exact ⟨fun hs ht => absurd (hk.symm.trans ht) hs, fun hs ht => absurd (hk.trans hs) ht⟩
    | moved hs ht => exact ⟨fun _ hf => absurd hf ht, fun hf => absurd hf hs⟩
    | cleared hi' ht =>
      refine ⟨fun _ hf => absurd hf ht, fun _ _ => .inl ⟨engineMoves_busy hm, ?_⟩⟩
      simpa only [hi, Except.ok.injEq] using hi'
    | paddingError hi' hs he hcode =>
      refine ⟨fun _ _ => ⟨engineMoves_busy hm, hi' ▸ hi, ?_⟩, fun hf => absurd hf hs⟩
      rw [he]
      exact hcode
  · exact ⟨fun hs ht => absurd ht hs, fun hs ht => absurd hs ht⟩
  · exact ⟨fun hs ht => absurd ht hs, fun hs ht => absurd hs ht⟩
  · rcases applyEvent_phase he with hk | ⟨hreset, hidle⟩
    · exact ⟨fun hs ht => absurd (hk.symm.trans ht) hs, fun hs ht => absurd (hk.trans hs) ht⟩
    · refine ⟨fun _ ht => absurd (hidle.symm.trans ht) nofun, fun _ _ => .inr ⟨input.early, rest, ?_⟩⟩
      rw [hin, ← hreset]

end Sys2Proof.Machine
end

section
/-! PROOFS. The round trip (41_chaining.md R235): the blocks of a stream one after another, what a stream in either
direction has put out and still holds, and the two finishes. -/

namespace Sys2Proof.Machine

/-! ### Byte strings made of blocks -/

theorem flatten_length_of_blocks {n : Nat} {xs : List Bytes} (h : ∀ x ∈ xs, x.length = n) :
    xs.flatten.length = n * xs.length := by
  induction xs with
  | nil => rfl
  | cons x xs ih =>
    rw [List.flatten_cons, List.length_append, h x List.mem_cons_self, ih fun y hy => h y (List.mem_cons_of_mem x hy),
      List.length_cons, Nat.mul_add_one, Nat.add_comm]

/-- A byte string is cut into blocks of one size in one way. -/
theorem flatten_inj_of_blocks {n : Nat} (hn : 0 < n) {xs ys : List Bytes} (hx : ∀ x ∈ xs, x.length = n)
    (hy : ∀ y ∈ ys, y.length = n) (h : xs.flatten = ys.flatten) : xs = ys := by
  have hxl := flatten_length_of_blocks hx
  rw [h, flatten_length_of_blocks hy] at hxl
  refine List.eq_iff_flatten_eq.mpr ⟨h, ?_⟩
  rw [List.map_congr_left hx, List.map_congr_left hy, List.map_const', List.map_const', Nat.eq_of_mul_eq_mul_left hn hxl]

/-- A byte string made of blocks, cut into blocks and a rest of at most one block: the rest is empty or the last block. -/
theorem rest_of_blocks {n : Nat} (hn : 0 < n) {xs ys : List Bytes} {rest : Bytes} (hx : ∀ x ∈ xs, x.length = n)
    (hy : ∀ y ∈ ys, y.length = n) (hrest : rest.length ≤ n) (h : xs.flatten ++ rest = ys.flatten) :
    (rest = [] ∧ xs = ys) ∨ (rest.length = n ∧ xs ++ [rest] = ys) := by
  by_cases hr : rest.length = n
  · refine .inr ⟨hr, flatten_inj_of_blocks hn ?_ hy (List.flatten_concat.trans h)⟩
    exact List.forall_mem_append.mpr ⟨hx, List.forall_mem_singleton.mpr hr⟩
  · have hlen := congrArg List.length h
    rw [List.length_append, flatten_length_of_blocks hx, flatten_length_of_blocks hy] at hlen
    have hdvd : n ∣ rest.length := (Nat.dvd_add_right (Nat.dvd_mul_right n xs.length)).mp (hlen ▸ Nat.dvd_mul_right n _)
    obtain rfl := List.eq_nil_of_length_eq_zero (Nat.eq_zero_of_dvd_of_lt hdvd (lt_of_le_of_ne hrest hr))
    exact .inl ⟨rfl, flatten_inj_of_blocks hn hx hy ((List.append_nil _).symm.trans h)⟩

/-! ### Blocks one after another -/

/-- process_block decode undoes process_block encode and leaves the same state, under the law of R9. -/
theorem processBlock_dec_of_enc {x : Bytes} {s : State} (hx : x.length = s.bsz) (law : Lawful s.params.bt s.bsz) :
    processBlock .dec (processBlock .enc x s).1 s = (x, (processBlock .enc x s).2) := by
  obtain ⟨hblock, hnext⟩ := processBlock_dec_enc x s hx (law (schedule s))
  refine Prod.ext hblock ?_
  rw [processBlock_state, processBlock_state, hnext]

/-- The state with another CHAIN. -/
def onChain (c : Block) (s : State) : State := { s with chn := { s.chn with chain := c } }

/-- One more block: the blocks put out so far and CHAIN, both after `x`. -/
def blockStep (dir : Dir) (s : State) (a : List Bytes × Block) (x : Bytes) : List Bytes × Block :=
  let r := processBlock dir x (onChain a.2 s)
  (a.1 ++ [r.1], r.2.chn.chain)

/-- The blocks that process_block makes of the blocks `xs` in order, from the state's CHAIN on, and the CHAIN they leave. -/
def runBlocks (dir : Dir) (s : State) (xs : List Bytes) : List Bytes × Block :=
  xs.foldl (blockStep dir s) ([], s.chn.chain)

theorem runBlocks_concat (dir : Dir) (s : State) (xs : List Bytes) (x : Bytes) :
    runBlocks dir s (xs ++ [x]) = blockStep dir s (runBlocks dir s xs) x := by
  rw [runBlocks, List.foldl_concat, runBlocks]

theorem runBlocks_length (dir : Dir) {s : State} {xs : List Bytes} (h : ∀ x ∈ xs, x.length = s.bsz) :
    ∀ y ∈ (runBlocks dir s xs).1, y.length = s.bsz := by
  induction xs using List.reverseRecOn with
  | nil => nofun
  | append_singleton xs x ih =>
    rw [List.forall_mem_append] at h
    rw [runBlocks_concat, blockStep, List.forall_mem_append]
    exact ⟨ih h.1, List.forall_mem_singleton.mpr (processBlock_length dir x _ (h.2 x (List.mem_singleton_self x)))⟩

/-- Decoding the blocks of an encode gives the blocks back and leaves the same CHAIN. -/
theorem runBlocks_dec_enc {s : State} (law : Lawful s.params.bt s.bsz) {xs : List Bytes}
    (h : ∀ x ∈ xs, x.length = s.bsz) :
    runBlocks .dec s (runBlocks .enc s xs).1 = (xs, (runBlocks .enc s xs).2) := by
  induction xs using List.reverseRecOn with
  | nil => rfl
  | append_singleton xs x ih =>
    rw [List.forall_mem_append] at h
    have hundo := processBlock_dec_of_enc (s := onChain (runBlocks .enc s xs).2 s) (h.2 x (List.mem_singleton_self x)) law
    rw [runBlocks_concat, blockStep, runBlocks_concat, ih h.1]
    exact Prod.ext (congrArg (fun r => xs ++ [r.1]) hundo) (congrArg (fun r => r.2.chn.chain) hundo)

/-! ### Commands run to success -/

theorem runCommand_of_exec {i : Instr} {s r : State} (h : exec i s = .next (okState r)) :
    runCommand i s = some (outputBytes r, okState r) := by
  rw [runCommand, h]
  rfl

theorem outputBytes_out {b : Bytes} (hb : b.length ≤ 16) (s : State) : outputBytes (out b s) = b :=
  toList_take_fill _ 16 b rfl hb

theorem bufferedBytes_setBuffer {b : Bytes} (hb : b.length ≤ 16) (s : State) : bufferedBytes (setBuffer b s) = b :=
  first_fill _ 16 b rfl hb

theorem exec_dataCommand_owned {dir : Dir} {l : Nat} {nc : Bool} {s t : State}
    (h : exec (dataCommand dir l nc) s = .next t) : owned t = owned s := by
  obtain ⟨_, ho⟩ := exec_owned h
  cases dir <;> exact ho

/-- A data command that succeeds ran with a key bound. -/
theorem keyed_of_runCommand_data {dir : Dir} {l : Nat} {nc : Bool} {s u : State} {b : Bytes}
    (h : runCommand (dataCommand dir l nc) s = some (b, u)) : s.key.keyed = true := by
  obtain ⟨r, hr, -, -⟩ := runCommand_some h
  rw [ruleOf_dataCommand] at hr
  rcases chnDataRule_cases dir l nc (clearOut s) with ⟨e, he⟩ | ⟨hk, -⟩
  · exact absurd (he.symm.trans hr) (raise_ne_succeed _ _ _)
  · exact hk

/-- A finish that succeeds ran with a key bound. -/
theorem keyed_of_runCommand_finish {dir : Dir} {s u : State} {b : Bytes}
    (h : runCommand (finishCommand dir) s = some (b, u)) : s.key.keyed = true := by
  obtain ⟨r, hr, -, -⟩ := runCommand_some h
  cases dir with
  | enc =>
    rcases chnFineRule_cases (clearOut s) with ⟨e, he⟩ | ⟨hk, -⟩
    · exact absurd (he.symm.trans hr) (raise_ne_succeed _ _ _)
    · exact hk
  | dec =>
    rcases chnFindRule_cases (clearOut s) with ⟨e, he⟩ | ⟨hk, -⟩
    · exact absurd (he.symm.trans hr) (raise_ne_succeed _ _ _)
    · exact hk

theorem runStream_eq_some_iff {dir : Dir} {cs : List Bytes} {s v : State} {c : Bytes} :
    runStream dir cs s = some (c, v) ↔ ∃ b t b', runChunks dir cs s = some (b, t) ∧
      runCommand (finishCommand dir) t = some (b', v) ∧ c = b ++ b' := by
  rw [runStream]
  cases runChunks dir cs s with
  | none => simp
  | some r =>
    simp only [Option.map_eq_some_iff]
    constructor
    · rintro ⟨q, hq, heq⟩
      cases heq
      exact ⟨r.1, r.2, q.1, rfl, hq, rfl⟩
    · rintro ⟨b, t, b', hr, hq, rfl⟩
      cases hr
      exact ⟨_, hq, rfl⟩

/-- A stream that succeeds ran with a key bound. -/
theorem keyed_of_runStream {dir : Dir} {cs : List Bytes} {s v : State} {c : Bytes}
    (h : runStream dir cs s = some (c, v)) : s.key.keyed = true := by
  obtain ⟨b, t, b', hchunks, hfinish, -⟩ := runStream_eq_some_iff.mp h
  cases cs with
  | nil =>
    cases hchunks
    exact keyed_of_runCommand_finish hfinish
  | cons c cs =>
    rw [runChunks] at hchunks
    cases hc : runCommand (dataCommand dir c.length false) (loadDin c s) with
    | none => simp [hc] at hchunks
    | some r => exact keyed_of_runCommand_data (s := loadDin c s) hc

/-! ### A stream under way -/

/-- A stream that began in `s` stands in `t`: of its input, the blocks `xs` have gone through process_block and the rest is
buffered; its output is what the blocks give. A padded decode that has put out a block still holds input. -/
structure Stream (dir : Dir) (s t : State) (xs : List Bytes) (input output : Bytes) : Prop where
  consistent : Consistent t
  phase : t.chn.cph = .idle ∨ t.chn.cph = dir.phase
  params : t.params = s.params
  modes : t.modes = s.modes
  key : t.key = s.key
  blocks : ∀ x ∈ xs, x.length = s.bsz
  input_eq : input = xs.flatten ++ bufferedBytes t
  output_eq : output = (runBlocks dir s xs).1.flatten
  chain : t.chn.chain = (runBlocks dir s xs).2
  held : dir = .dec → s.modes.pad ≠ .none → xs ≠ [] → t.chn.iblen ≠ 0

namespace Stream

variable {dir : Dir} {s t : State} {xs : List Bytes} {input output : Bytes}

theorem start (dir : Dir) (h : Consistent s) (hp : s.chn.cph = .idle) : Stream dir s s [] [] [] where
  consistent := h
  phase := .inl hp
  params := rfl
  modes := rfl
  key := rfl
  blocks := nofun
  input_eq := by rw [bufferedBytes, h.idleEmpty hp, first_zero]; rfl
  output_eq := rfl
  chain := rfl
  held := fun _ _ hne => absurd rfl hne

theorem bsz (h : Stream dir s t xs input output) : t.bsz = s.bsz := by rw [bsz_eq, h.params, bsz_eq]

/-- The stream's next block is process_block's in its state. -/
theorem runBlocks_next (h : Stream dir s t xs input output) (x : Bytes) : runBlocks dir s (xs ++ [x]) =
    ((runBlocks dir s xs).1 ++ [(processBlock dir x t).1], (processBlock dir x t).2.chn.chain) := by
  rw [runBlocks_concat, blockStep, processBlock_transfer dir x (s := t) (t := onChain (runBlocks dir s xs).2 s)
    h.params.symm (by rw [h.modes]; rfl) (by rw [h.key]; rfl) h.chain.symm]

/-- What a data command leaves of the stream in any case. -/
theorem after_data (h : Stream dir s t xs input output) {u : State} {c input' output' : Bytes} {l : Nat} {nc : Bool}
    {ys : List Bytes} (hx : exec (dataCommand dir l nc) (loadDin c t) = .next u) (hph : u.chn.cph = dir.phase)
    (hblocks : ∀ y ∈ ys, y.length = s.bsz) (hin : input' = ys.flatten ++ bufferedBytes u)
    (hout : output' = (runBlocks dir s ys).1.flatten) (hchain : u.chn.chain = (runBlocks dir s ys).2)
    (hheld : dir = .dec → s.modes.pad ≠ .none → ys ≠ [] → u.chn.iblen ≠ 0) : Stream dir s u ys input' output' :=
  have hload : Consistent (loadDin c t) := { h.consistent with }
  have howned : owned u = owned (loadDin c t) := exec_dataCommand_owned hx
  { consistent := hload.exec hx
    phase := .inr hph
    params := (congrArg OwnedRegs.params howned).trans h.params
    modes := (congrArg OwnedRegs.modes howned).trans h.modes
    key := (congrArg OwnedRegs.key howned).trans h.key
    blocks := hblocks
    input_eq := hin
    output_eq := hout
    chain := hchain
    held := hheld }

/-- One more chunk: it makes a block, or all of it is buffered. -/
theorem chunk (h : Stream dir s t xs input output) (hk : s.key.keyed = true) {c : Bytes} (hc : c.length ≤ s.bsz) :
    ∃ b u ys, runCommand (dataCommand dir c.length false) (loadDin c t) = some (b, u) ∧
      Stream dir s u ys (input ++ c) (output ++ b) := by
  let bytes := absorbed c.length (loadDin c t)
  have hload : Consistent (loadDin c t) := { h.consistent with }
  have hc16 : c.length ≤ 16 := hc.trans (bsz_le s)
  have hin : input ++ c = xs.flatten ++ bytes := by
    rw [h.input_eq, List.append_assoc]
    exact congrArg (fun b => xs.flatten ++ (bufferedBytes t ++ b)) (first_fill c.length 16 c rfl hc16).symm
  have hk' : (loadDin c t).key.keyed = true := (congrArg KeyState.keyed h.key).trans hk
  have hc' : c.length ≤ (loadDin c t).bsz := h.bsz.symm ▸ hc
  have hn : ¬((loadDin c t).modes.mode = .xcbc ∧ false = true) := fun hn => nomatch hn.2
  by_cases hm : makesBlock dir c.length (loadDin c t)
  · let x := bytes.take t.bsz
    have hx : x.length = t.bsz := hm.length_take
    have hexec := exec_dataCommand_block hk' h.phase hc' hn hm
    have hrest : (bytes.drop t.bsz).length ≤ 16 := (hload.exec hexec).iblen_le
    rw [blockDone_loadDin] at hexec
    have hnext := h.runBlocks_next x
    have hy : (processBlock dir x t).1.length ≤ 16 := (processBlock_length dir x t hx).le.trans (bsz_le t)
    refine ⟨_, _, xs ++ [x], runCommand_of_exec hexec, h.after_data hexec rfl ?_ ?_ ?_ ?_ fun hd hp _ => ?_⟩
    · exact List.forall_mem_append.mpr ⟨h.blocks, List.forall_mem_singleton.mpr (hx.trans h.bsz)⟩
    · rw [hin, List.flatten_concat, List.append_assoc, ← List.take_append_drop t.bsz bytes]
      exact congrArg (fun r => xs.flatten ++ (x ++ r)) (bufferedBytes_setBuffer hrest t).symm
    · rw [hnext, List.flatten_concat, h.output_eq]
      exact congrArg ((runBlocks dir s xs).1.flatten ++ ·) (outputBytes_out hy t)
    · rw [hnext]
      rfl
    · rcases hm with hlt | ⟨-, hnot⟩
      · change (bytes.drop t.bsz).length ≠ 0
        rw [List.length_drop]
        exact (Nat.sub_pos_of_lt hlt).ne'
      · exact absurd ⟨hd, (congrArg ModeRegs.pad h.modes).trans_ne hp⟩ hnot
  · have hexec := exec_dataCommand_hold hk' h.phase hc' hn hm
    have hall : bytes.length ≤ 16 := (hload.exec hexec).iblen_le
    refine ⟨_, _, xs, runCommand_of_exec hexec, h.after_data hexec rfl h.blocks ?_ ?_ h.chain fun hd hp hne => ?_⟩
    · exact hin.trans (congrArg (xs.flatten ++ ·) (bufferedBytes_setBuffer hall t).symm)
    · exact (List.append_nil output).trans h.output_eq
    · have hlen : bytes.length = t.chn.iblen + c.length := absorbed_length c.length _ h.consistent.iblen_le hc16
      have hsome : t.chn.iblen ≠ 0 := h.held hd hp hne
      change bytes.length ≠ 0
      omega

theorem chunks (h : Stream dir s t xs input output) (hk : s.key.keyed = true) {cs : List Bytes}
    (hcs : ∀ c ∈ cs, c.length ≤ s.bsz) : ∃ b u ys, runChunks dir cs t = some (b, u) ∧
      Stream dir s u ys (input ++ cs.flatten) (output ++ b) := by
  induction cs generalizing t xs input output with
  | nil => exact ⟨[], t, xs, rfl, by simpa using h⟩
  | cons c cs ih =>
    obtain ⟨hc, hrest⟩ := List.forall_mem_cons.mp hcs
    obtain ⟨b, u, ys, hrun, hu⟩ := h.chunk hk hc
    obtain ⟨b', u', ys', hrun', hu'⟩ := ih hu hrest
    refine ⟨b ++ b', u', ys', ?_, by simpa using hu'⟩
    rw [runChunks, hrun]
    simp [hrun']

/-- The finish of an encode stream: the output of the whole is the blocks' of the input and its padding. -/
theorem encodeFinish {u : State} {b : Bytes} (h : Stream .enc s t xs input output)
    (hr : runCommand .chnFine t = some (b, u)) : ∃ padding zs, (∀ z ∈ zs, z.length = s.bsz) ∧
      zs.flatten = input ++ padding ∧ output ++ b = (runBlocks .enc s zs).1.flatten ∧
      ((s.modes.pad = .none ∧ padding = []) ∨
        (s.modes.pad ≠ .none ∧ ∃ p, 1 ≤ p ∧ p ≤ s.bsz ∧ padding = padBytes s.modes.pad p)) := by
  obtain ⟨r, hrule, rfl, rfl⟩ := runCommand_some hr
  rw [ruleOf] at hrule
  have hmodes : (clearOut t).modes = s.modes := h.modes
  rcases chnFineRule_cases (clearOut t) with ⟨e, he⟩ | ⟨-, hp, ⟨hpad, hi, he⟩ | ⟨hpad, he⟩⟩ <;> rw [he] at hrule
  · exact absurd hrule (raise_ne_succeed _ _ _)
  · obtain rfl := congrArg Run.state hrule
    refine ⟨[], xs, h.blocks, ?_, (List.append_nil output).trans h.output_eq, .inl ⟨hmodes ▸ hpad, rfl⟩⟩
    rw [h.input_eq, List.append_nil, bufferedBytes, show t.chn.iblen = 0 from hi, first_zero, List.append_nil]
  · obtain rfl := congrArg Run.state hrule
    let p := t.bsz - t.chn.iblen
    let x := bufferedBytes t ++ padBytes s.modes.pad p
    have hx : x.length = t.bsz := by
      rw [← h.consistent.paddedBlock_length hp hpad, h.modes]
    have hy : (processBlock .enc x (clearOut t)).1 = (processBlock .enc x t).1 :=
      (processBlock_congr .enc x t (clearOut t) rfl rfl rfl rfl).1
    have hlt : t.chn.iblen < t.bsz := h.consistent.iblen_lt hp
    refine ⟨padBytes s.modes.pad p, xs ++ [x], ?_, ?_, ?_, .inr ⟨hmodes ▸ hpad, p, Nat.sub_pos_of_lt hlt, ?_, rfl⟩⟩
    · exact List.forall_mem_append.mpr ⟨h.blocks, List.forall_mem_singleton.mpr (hx.trans h.bsz)⟩
    · rw [List.flatten_concat, h.input_eq, List.append_assoc]
    · rw [h.runBlocks_next x, List.flatten_concat, h.output_eq, ← hy]
      refine congrArg ((runBlocks .enc s xs).1.flatten ++ ·) ?_
      rw [hmodes]
      exact outputBytes_out ((processBlock_length .enc x (clearOut t) hx).le.trans (bsz_le t)) _
    · exact (Nat.sub_le _ _).trans h.bsz.le

/-- A decode stream whose input is made of blocks: without padding all of them are decoded, with padding the last one is
held. -/
theorem decoded_blocks (h : Stream .dec s t xs input output) {ws : List Bytes} (hws : ∀ w ∈ ws, w.length = s.bsz)
    (hin : input = ws.flatten) :
    (s.modes.pad = .none → t.chn.iblen = 0 ∧ xs = ws) ∧
    (s.modes.pad ≠ .none → ws ≠ [] → t.chn.iblen = s.bsz ∧ xs ++ [bufferedBytes t] = ws) := by
  have hlen : (bufferedBytes t).length = t.chn.iblen := bufferedBytes_length t h.consistent.iblen_le
  have hle : (bufferedBytes t).length ≤ s.bsz := hlen ▸ h.bsz ▸ h.consistent.buffered
  rcases rest_of_blocks (bsz_pos s) h.blocks hws hle (h.input_eq.symm.trans hin) with ⟨hrest, hxs⟩ | ⟨hrest, hxs⟩
  · have hi : t.chn.iblen = 0 := by rw [← hlen, hrest, List.length_nil]
    exact ⟨fun _ => ⟨hi, hxs⟩, fun hpad hne => absurd hi (h.held rfl hpad (hxs ▸ hne))⟩
  · have hi : t.chn.iblen = s.bsz := hlen.symm.trans hrest
    have hpad : s.modes.pad ≠ .none := h.modes ▸ (h.consistent.heldOnly (hi.trans h.bsz.symm)).2
    exact ⟨fun hnone => absurd hnone hpad, fun _ _ => ⟨hi, hxs⟩⟩

/-- The finish of a decode stream without padding that holds nothing. -/
theorem decodeFinish_unpadded (h : Stream .dec s t xs input output) (hk : s.key.keyed = true)
    (hpad : s.modes.pad = .none) (hi : t.chn.iblen = 0) : ∃ u, runCommand .chnFind t = some ([], u) := by
  have hrule := chnFindRule_unpadded (s := clearOut t) ((congrArg KeyState.keyed h.key).trans hk) h.phase
    ((congrArg ModeRegs.pad h.modes).trans hpad) hi
  exact ⟨_, runCommand_of_exec (exec_of_succeed (i := .chnFind) hrule)⟩

/-- The finish of a decode stream with padding that holds the last block: it strips the padding the blocks end with. -/
theorem decodeFinish_padded (h : Stream .dec s t xs input output) (hk : s.key.keyed = true)
    (hpad : s.modes.pad ≠ .none) (hi : t.chn.iblen = s.bsz) {plain : Bytes} {p : Nat} (h1 : 1 ≤ p) (hp : p ≤ s.bsz)
    (hplain : (runBlocks .dec s (xs ++ [bufferedBytes t])).1.flatten = plain ++ padBytes s.modes.pad p) :
    ∃ b u, runCommand .chnFind t = some (b, u) ∧ output ++ b = plain := by
  let y := (processBlock .dec (bufferedBytes t) t).1
  have hlen : (bufferedBytes t).length = t.bsz :=
    (bufferedBytes_length t h.consistent.iblen_le).trans (hi.trans h.bsz.symm)
  have hy : y.length = s.bsz := (processBlock_length .dec _ t hlen).trans h.bsz
  have hsplit : (output ++ y.take (s.bsz - p)) ++ y.drop (s.bsz - p) = plain ++ padBytes s.modes.pad p := by
    rw [List.append_assoc, List.take_append_drop, h.output_eq, ← hplain, h.runBlocks_next, List.flatten_concat]
  obtain ⟨hstripped, hpadding⟩ := List.append_inj' hsplit (by
    rw [List.length_drop, hy, padBytes_length _ _ hpad h1]
    omega)
  have hcheck : padLength s.modes.pad s.bsz y = some p :=
    (padLength_eq_some_iff hpad s.params.bs hy p).mpr ⟨h1, hp, hpadding⟩
  have hrule := (chnFindRule_held (s := clearOut t) ((congrArg KeyState.keyed h.key).trans hk) h.phase
    ((congrArg ModeRegs.pad h.modes).trans_ne hpad) (hi.trans h.bsz.symm)).2 p
  rw [clearOut_bufferedBytes, processBlock_transfer .dec _ (s := t) (t := clearOut t) rfl rfl rfl rfl, clearOut_bsz,
    h.bsz, clearOut_modes, h.modes] at hrule
  have hout : (y.take (s.bsz - p)).length ≤ 16 := (List.length_take_le' _ _).trans (hy.le.trans (bsz_le s))
  refine ⟨_, _, runCommand_of_exec (exec_of_succeed (i := .chnFind) (hrule hcheck)), ?_⟩
  rw [← hstripped]
  exact congrArg (output ++ ·) (outputBytes_out hout t)

end Stream

/-- Settles O38: the encode stream's output is the blocks of the input and its padding; the decode stream undoes them, and
its finish strips what was added. -/
theorem streamRoundTrip : Obligations.StreamRoundTrip := by
  intro s u plain cipher c h hp law hplain hcipher hr hc
  have hk : s.key.keyed = true := keyed_of_runStream hr
  obtain ⟨b, t, b', hchunks, hfinish, rfl⟩ := runStream_eq_some_iff.mp hr
  obtain ⟨b₁, t₁, xs, hrun, henc⟩ := (Stream.start .enc h hp).chunks hk hplain
  obtain ⟨rfl, rfl⟩ : b = b₁ ∧ t = t₁ := by simpa [hrun] using hchunks.symm
  obtain ⟨padding, zs, hzs, hplaintext, hciphertext, hpadding⟩ := henc.encodeFinish hfinish
  have hws := runBlocks_length .enc hzs
  have hundo : (runBlocks .dec s (runBlocks .enc s zs).1).1 = zs := congrArg Prod.fst (runBlocks_dec_enc law hzs)
  obtain ⟨d, t', ys, hdrun, hdec⟩ := (Stream.start .dec h hp).chunks hk hcipher
  obtain ⟨hunpadded, hpadded⟩ := hdec.decoded_blocks hws (hc.trans hciphertext)
  rcases hpadding with ⟨hpad, rfl⟩ | ⟨hpad, p, h1, hpn, rfl⟩
  · obtain ⟨hi, hys⟩ := hunpadded hpad
    obtain ⟨v, hv⟩ := hdec.decodeFinish_unpadded hk hpad hi
    refine ⟨v, runStream_eq_some_iff.mpr ⟨d, t', [], hdrun, hv, ?_⟩⟩
    have hd : d = (runBlocks .dec s ys).1.flatten := hdec.output_eq
    simp [hd, hys, hundo, hplaintext]
  · have hne : (runBlocks .enc s zs).1 ≠ [] := fun hnil => by
      rw [hnil] at hundo
      obtain rfl : [] = zs := hundo
      have hempty : padBytes s.modes.pad p = [] := (List.append_eq_nil_iff.mp hplaintext.symm).2
      have hlen := padBytes_length _ _ hpad h1
      rw [hempty, List.length_nil] at hlen
      omega
    obtain ⟨hi, hys⟩ := hpadded hpad hne
    obtain ⟨b'', v, hv, hout⟩ := hdec.decodeFinish_padded hk hpad hi h1 hpn (by rw [hys, hundo]; exact hplaintext)
    exact ⟨v, runStream_eq_some_iff.mpr ⟨d, t', b'', hdrun, hv, hout.symm⟩⟩

end Sys2Proof.Machine
end

section
/-! PROOFS. The Galois field unit (42_galois.md): each command's value as a polynomial over GF(2), and the laws of the
division and of the GCM multiplication. -/

namespace Sys2Proof.Machine

open Polynomial

/-! ### Congruence modulo a polynomial -/

/-- Two polynomials have one remainder exactly if the modulus divides their sum, which is their difference. -/
theorem mod_eq_mod_iff_dvd_add (a b p : (ZMod 2)[X]) : a % p = b % p ↔ p ∣ a + b := by
  rw [← EuclideanDomain.mod_eq_zero, Polynomial.add_mod, CharTwo.add_eq_zero]

theorem mod_mul_mod (a b p : (ZMod 2)[X]) : (a % p * b) % p = (a * b) % p := by
  rw [mod_eq_mod_iff_dvd_add]
  refine ⟨a / p * b, ?_⟩
  have hdiv := EuclideanDomain.mod_add_div a p
  have htwice := poly_add_self (a % p * b)
  linear_combination htwice - b * hdiv

theorem mul_mod_mod (a b p : (ZMod 2)[X]) : (a * (b % p)) % p = (a * b) % p := by
  rw [mul_comm, mod_mul_mod, mul_comm]

theorem mod_mod (a p : (ZMod 2)[X]) : a % p % p = a % p := by simpa only [mul_one] using mod_mul_mod a 1 p

/-- A factor that is coprime to the modulus can be cancelled. -/
theorem mod_eq_of_mul_mod_eq {a b c p : (ZMod 2)[X]} (hb : IsCoprime b p) (h : (a * b) % p = (c * b) % p) :
    a % p = c % p := by
  rw [mod_eq_mod_iff_dvd_add] at h ⊢
  rw [← add_mul] at h
  exact hb.symm.dvd_of_dvd_mul_right h

/-- A remainder is coprime to the modulus exactly if the dividend is. -/
theorem isCoprime_mod_iff (a p : (ZMod 2)[X]) : IsCoprime (a % p) p ↔ IsCoprime a p := by
  rw [← IsCoprime.add_mul_left_left_iff (z := a / p), EuclideanDomain.mod_add_div]

/-- A modulus with a remainder other than 0 is no constant. -/
theorem degree_pos_of_mod_ne_zero {a p : (ZMod 2)[X]} (hp : p ≠ 0) (ha : a % p ≠ 0) : 0 < p.degree :=
  (zero_le_degree_iff.mpr ha).trans_lt (degree_mod_lt a hp)

/-! ### GR holds a reduced value whole -/

theorem FieldReg.toNat_ne_zero {p : FieldReg} (hp : p ≠ 0) : p.toNat ≠ 0 := fun h => hp (BitVec.eq_of_toNat_eq h)

theorem toPoly_ne_zero {p : Nat} (hp : p ≠ 0) : toPoly p ≠ 0 := fun h => hp ((toPoly_eq_zero_iff p).mp h)

/-- A polynomial of degree below P's fits a field register. -/
theorem toNat_ofNat_of_degree_lt {p : FieldReg} {v : Nat} (h : (toPoly v).degree < (toPoly p.toNat).degree) :
    (BitVec.ofNat 256 v).toNat = v := by
  have hp : (toPoly p.toNat).degree < (256 : Nat) := (toPoly_degree_lt_iff _ _).mpr p.isLt
  rw [BitVec.toNat_ofNat, Nat.mod_eq_of_lt ((toPoly_degree_lt_iff v 256).mp (h.trans hp))]

/-- The register that a reduced value is written to reads as the remainder (R263). -/
theorem toPoly_ofNat_red {p : FieldReg} (hp : p ≠ 0) (a : Nat) :
    toPoly (BitVec.ofNat 256 (red p.toNat a)).toNat = toPoly a % toPoly p.toNat := by
  have hp' := FieldReg.toNat_ne_zero hp
  rw [toNat_ofNat_of_degree_lt (red_degree_lt p.toNat a hp'), toPoly_red p.toNat a hp']

theorem pPoly_eq_zero {s : State} (hp : s.host.p = 0) : pPoly s = 0 := congrArg BitVec.toNat hp

/-! ### GF.MOD, GF.ADD, GF.MUL -/

/-- Settles O40: the value is `red` of GA. -/
theorem gfModIsPolynomialRemainder : Obligations.GfModIsPolynomialRemainder := by
  refine ⟨by decide, fun s => ⟨_, exec_of_succeed rfl, fun hp => ?_, fun hp => toPoly_ofNat_red hp s.host.ga.toNat⟩⟩
  rw [pPoly_eq_zero hp, red_zero, gaPoly, BitVec.ofNat_toNat, BitVec.setWidth_eq]

theorem gfAddValue_integer (a b : Nat) : gfAddValue .integer 0 a b = a + b := if_pos ⟨rfl, rfl⟩

theorem gfAddValue_carryless (a b : Nat) : gfAddValue .carryless 0 a b = a ^^^ b :=
  (if_neg fun h => nomatch h.2).trans (red_zero _)

theorem gfAddValue_of_ne_zero {p : Nat} (hp : p ≠ 0) (za : ZeroArith) (a b : Nat) :
    gfAddValue za p a b = red p (a ^^^ b) := if_neg fun h => hp h.1

/-- Settles O41: the three cases of the value, of which the exclusive or is the sum of polynomials. -/
theorem gfAddIsPolynomialSum : Obligations.GfAddIsPolynomialSum := by
  refine ⟨by decide, fun s => ⟨_, exec_of_succeed rfl, fun hp hza => ?_, fun hp hza => ?_, fun hp => ?_⟩⟩
  · rw [pPoly_eq_zero hp, hza, gfAddValue_integer, BitVec.toNat_ofNat, gaPoly, gbPoly]
  · rw [pPoly_eq_zero hp, hza, gfAddValue_carryless, BitVec.ofNat_xor, gaPoly, gbPoly]
    simp only [BitVec.ofNat_toNat, BitVec.setWidth_eq]
  · rw [pPoly, gfAddValue_of_ne_zero (FieldReg.toNat_ne_zero hp), toPoly_ofNat_red hp, toPoly_xor, gaPoly, gbPoly]

theorem gfMulValue_integer (a b : Nat) : gfMulValue .integer 0 a b = a * b := (if_pos rfl).trans (if_neg nofun)

theorem gfMulValue_carryless (a b : Nat) : gfMulValue .carryless 0 a b = clmul a b := (if_pos rfl).trans (if_pos rfl)

theorem gfMulValue_of_ne_zero {p : Nat} (hp : p ≠ 0) (za : ZeroArith) (a b : Nat) :
    gfMulValue za p a b = red p (clmul a b) := if_neg hp

/-- The low bits of an integer are the low coefficients of its polynomial. -/
theorem toPoly_ofNat_coeff (v : Nat) {n k : Nat} (hk : k < n) :
    (toPoly (BitVec.ofNat n v).toNat).coeff k = (toPoly v).coeff k := by
  rw [toPoly_coeff, toPoly_coeff, BitVec.toNat_ofNat, Nat.testBit_mod_two_pow]
  simp [hk]

/-- Settles O42: the three cases of the value, of which the carry-less product is the product of polynomials. -/
theorem gfMulIsPolynomialProduct : Obligations.GfMulIsPolynomialProduct := by
  refine ⟨by decide, fun s => ⟨_, exec_of_succeed rfl, fun hp hza => ?_, fun hp hza k hk => ?_, fun hp => ?_⟩⟩
  · rw [pPoly_eq_zero hp, hza, gfMulValue_integer, BitVec.toNat_ofNat, gaPoly, gbPoly]
  · rw [pPoly_eq_zero hp, hza, gfMulValue_carryless, toPoly_ofNat_coeff _ hk, toPoly_clmul, gaPoly, gbPoly]
  · rw [pPoly, gfMulValue_of_ne_zero (FieldReg.toNat_ne_zero hp), toPoly_ofNat_red hp, toPoly_clmul, gaPoly, gbPoly]

/-! ### GF.INV, GF.DIV -/

section
variable {p a : Nat} (hp : p ≠ 0)

include hp

theorem red_eq_zero_iff : red p a = 0 ↔ toPoly a % toPoly p = 0 := by rw [← toPoly_eq_zero_iff, toPoly_red p a hp]

theorem invertOperand_multiple (ha : toPoly a % toPoly p = 0) : invertOperand p a = .error .operandZero := by
  rw [invertOperand, if_neg hp, if_pos ((red_eq_zero_iff hp).mpr ha)]

variable (ha : toPoly a % toPoly p ≠ 0)

include ha

theorem invertOperand_shared (hc : ¬IsCoprime (toPoly a % toPoly p) (toPoly p)) :
    invertOperand p a = .error .notInvertible := by
  rw [invertOperand, if_neg hp, if_neg fun h => ha ((red_eq_zero_iff hp).mp h), if_pos]
  rwa [ne_eq, polyGcd_eq_one_iff, toPoly_red p a hp]

/-- An operand that is coprime to P has the inverse of R291. -/
theorem invertOperand_coprime (hc : IsCoprime (toPoly a % toPoly p) (toPoly p)) : ∃ v, invertOperand p a = .ok v ∧
    (toPoly v).degree < (toPoly p).degree ∧ (toPoly a % toPoly p * toPoly v) % toPoly p = 1 := by
  rw [← toPoly_red p a hp] at hc ⊢
  have hgcd : polyGcd (red p a) p = 1 := (polyGcd_eq_one_iff _ _).mpr hc
  obtain ⟨hdeg, hdvd⟩ := polyInv_spec p (red p a) hp hgcd
  refine ⟨polyInv p (red p a), ?_, hdeg, ?_⟩
  · rw [invertOperand, if_neg hp, if_neg fun h => ha ((red_eq_zero_iff hp).mp h), if_neg (not_not.mpr hgcd)]
  · have hp' : toPoly p ≠ 0 := toPoly_ne_zero hp
    have hone : (1 : (ZMod 2)[X]) % toPoly p = 1 := by
      rw [mod_eq_self_iff hp', degree_one]
      exact degree_pos_of_mod_ne_zero hp' ha
    exact ((mod_eq_mod_iff_dvd_add _ _ _).mpr hdvd).trans hone

end

theorem exec_gfInv_of_error {s : State} {e : CmdError} (h : invertOperand (pPoly s) (gaPoly s) = .error e) :
    exec .gfInv s = .next (errState s e.ecode e.edet) := exec_of_raise (by rw [ruleOf, gfInvRule, h])

theorem exec_gfDiv_of_error {s : State} {e : CmdError} (h : invertOperand (pPoly s) (gbPoly s) = .error e) :
    exec .gfDiv s = .next (errState s e.ecode e.edet) := exec_of_raise (by rw [ruleOf, gfDivRule, h])

/-- Settles O43: the answers of `invertOperand`, of which GR holds the inverse whole. -/
theorem gfInvIsTheInverse : Obligations.GfInvIsTheInverse := by
  refine ⟨by decide, fun s => ⟨fun hp => ?_, fun hp hx => ?_, fun hp hx hc => ?_, fun hp hx hc => ?_⟩⟩
  · exact exec_gfInv_of_error (e := .polyZero) (if_pos (pPoly_eq_zero hp))
  · exact exec_gfInv_of_error (invertOperand_multiple (FieldReg.toNat_ne_zero hp) hx)
  · exact exec_gfInv_of_error (invertOperand_shared (FieldReg.toNat_ne_zero hp) hx hc)
  · obtain ⟨v, hv, hdeg, hinv⟩ := invertOperand_coprime (FieldReg.toNat_ne_zero hp) hx hc
    have hrule : ruleOf .gfInv s = succeed (setGr v s) := by rw [ruleOf, gfInvRule, pPoly, gaPoly, hv]
    refine ⟨BitVec.ofNat 256 v, exec_of_succeed hrule, ?_⟩
    rw [toNat_ofNat_of_degree_lt hdeg]
    exact ⟨hdeg, hinv⟩

/-- Settles O44: the answers of `invertOperand`, whose inverse takes GB out of the product. -/
theorem gfDivIsTheQuotient : Obligations.GfDivIsTheQuotient := by
  refine ⟨by decide, fun s => ⟨fun hp => ?_, fun hp hy => ?_, fun hp hy hc => ?_, fun hp hy hc => ?_⟩⟩
  · exact exec_gfDiv_of_error (e := .polyZero) (if_pos (pPoly_eq_zero hp))
  · exact exec_gfDiv_of_error (invertOperand_multiple (FieldReg.toNat_ne_zero hp) hy)
  · exact exec_gfDiv_of_error (invertOperand_shared (FieldReg.toNat_ne_zero hp) hy hc)
  · have hp' := FieldReg.toNat_ne_zero hp
    obtain ⟨v, hv, -, hinv⟩ := invertOperand_coprime hp' hy hc
    have hrule : ruleOf .gfDiv s = succeed (setGr (red s.host.p.toNat (clmul s.host.ga.toNat v)) s) := by
      rw [ruleOf, gfDivRule, pPoly, gbPoly, hv, gaPoly]
    refine ⟨_, exec_of_succeed hrule, ?_, ?_⟩
    · rw [toPoly_ofNat_red hp]
      exact degree_mod_lt _ (toPoly_ne_zero hp')
    · rw [toPoly_ofNat_red hp, toPoly_clmul]
      generalize toPoly s.host.ga.toNat = A, toPoly s.host.gb.toNat = B, toPoly s.host.p.toNat = P at hinv ⊢
      calc (A * toPoly v % P * B) % P
          = (A * (B * toPoly v)) % P := by rw [mod_mul_mod, mul_assoc, mul_comm (toPoly v)]
        _ = (A * ((B % P * toPoly v) % P)) % P := by rw [mod_mul_mod, mul_mod_mod]
        _ = A % P := by rw [hinv, mul_one]

/-- Settles O47: the quotient and GA have one product with GB modulo P, and GB is coprime to P. -/
theorem divisionUndoesMultiplication : Obligations.DivisionUndoesMultiplication := by
  intro s t hp hc hconst ht
  obtain ⟨m, hm, -, -, hproduct⟩ := gfMulIsPolynomialProduct.2 s
  obtain rfl := Host.Outcome.next.inj (hm.symm.trans ht)
  have hy : toPoly s.host.gb.toNat % toPoly s.host.p.toNat ≠ 0 := fun h => by
    have hunit := hc.isUnit_of_dvd' (EuclideanDomain.mod_eq_zero.mp h) dvd_rfl
    exact hconst (degree_eq_zero_of_isUnit hunit)
  obtain ⟨-, -, -, hdiv⟩ := gfDivIsTheQuotient.2
    { okState { s with results := { s.results with gr := m } } with host := { s.host with ga := m } }
  obtain ⟨r, hr, hdeg, hquotient⟩ := hdiv hp hy ((isCoprime_mod_iff _ _).mpr hc)
  refine ⟨_, hr, rfl, ?_⟩
  have hp' : toPoly s.host.p.toNat ≠ 0 := toPoly_ne_zero (FieldReg.toNat_ne_zero hp)
  calc toPoly r.toNat
      = toPoly r.toNat % toPoly s.host.p.toNat := ((mod_eq_self_iff hp').mpr hdeg).symm
    _ = toPoly s.host.ga.toNat % toPoly s.host.p.toNat :=
      mod_eq_of_mul_mod_eq hc (hquotient.trans (by rw [hproduct hp, mod_mod]))

/-! ### GF.GMM -/

theorem gcmPoly_eq : gcmPoly = X ^ 128 + X ^ 7 + X ^ 2 + X + 1 := by
  unfold gcmPoly
  generalize (X : (ZMod 2)[X]) ^ 128 = top
  ring

/-- Settles O45: `reflPoly_gmm`, whose modulus is the polynomial written out. -/
theorem gfGmmIsTheReflectedProduct : Obligations.GfGmmIsTheReflectedProduct := by
  refine ⟨by decide, fun s => ⟨gmm (gaLow s) (gbLow s), ?_, ?_⟩⟩
  · refine exec_of_succeed ?_
    rw [ruleOf, setGr, BitVec.ofNat_toNat]
  · rw [← gcmPoly_eq, ← BitVec.setWidth_eq_extractLsb' (by decide), ← BitVec.setWidth_eq_extractLsb' (by decide)]
    exact reflPoly_gmm (gaLow s) (gbLow s)

/-- Settles O46: the laws of the polynomials modulo the GCM polynomial, in the injective reading of a block. -/
theorem gmmRingLaws : Obligations.GmmRingLaws := by
  refine fun x y z => ⟨?_, ?_, ?_, ?_, ?_⟩ <;> apply reflPoly_injective
  · rw [reflPoly_gmm, reflPoly_gmm, mul_comm]
  · simp only [reflPoly_gmm]
    rw [mod_mul_mod, mul_mod_mod, mul_assoc]
  · rw [reflPoly_gmm, reflPoly_xor, reflPoly_xor, add_mul, Polynomial.add_mod, reflPoly_gmm, reflPoly_gmm]
  · have hdeg : (reflPoly x).degree < gcmPoly.degree := (reflPoly_degree_lt x).trans_eq gcmPoly_degree.symm
    rw [reflPoly_gmm, reflPoly_one, one_mul, mod_eq_of_degree_lt (q := 0) (by rw [zero_mul, zero_add]) hdeg]
  · rw [reflPoly_gmm, reflPoly_zero, mul_zero, EuclideanDomain.zero_mod]

end Sys2Proof.Machine
end

section
/-! PROOFS. The separation of the units (42_galois.md R262, 41_chaining.md R205, 43_gcm.md R346): what the commands of each
unit leave alone. -/

namespace Sys2Proof.Machine

/-! ### The Galois field unit -/

/-- A Galois field command writes GR and succeeds, or raises an error and leaves the state. -/
theorem galoisRule_cases {i : Instr} (hi : i ∈ [Instr.gfMod, .gfAdd, .gfMul, .gfInv, .gfDiv, .gfGmm]) (s : State) :
    (∃ v, ruleOf i s = succeed (setGr v s)) ∨ ∃ e, ruleOf i s = raise s e := by
  simp only [List.mem_cons, List.not_mem_nil, or_false] at hi
  rcases hi with rfl | rfl | rfl | rfl | rfl | rfl
  · exact .inl ⟨_, rfl⟩
  · exact .inl ⟨_, rfl⟩
  · exact .inl ⟨_, rfl⟩
  · rw [ruleOf, gfInvRule]
    cases invertOperand (pPoly s) (gaPoly s) with
    | error e => exact .inr ⟨e, rfl⟩
    | ok v => exact .inl ⟨v, rfl⟩
  · rw [ruleOf, gfDivRule]
    cases invertOperand (pPoly s) (gbPoly s) with
    | error e => exact .inr ⟨e, rfl⟩
    | ok v => exact .inl ⟨_, rfl⟩
  · exact .inl ⟨_, rfl⟩

/-! ### The chaining driver -/

/-- The GCM unit, TAG and TAGV: what the owners of the registers (`owned`) do not cover and the chaining driver leaves. -/
def gcmPart (s : State) : GcmState × Block × Bool := (s.gcm, s.results.tag, s.status.tagv)

theorem chnDataRule_gcmPart (dir : Dir) (l : Nat) (nc : Bool) (s : State) :
    gcmPart (chnDataRule dir l nc s).state = gcmPart s := by
  rcases chnDataRule_cases dir l nc s with ⟨e, h⟩ | ⟨-, -, -, c, -, h⟩ <;> rw [h]
  · rfl
  · obtain ⟨c', b, o, y, habsorb⟩ := absorb_frame dir l { s with chn := { s.chn with chain := c } }
    rw [habsorb]
    rfl

theorem chnFineRule_gcmPart (s : State) : gcmPart (chnFineRule s).state = gcmPart s := by
  rcases chnFineRule_cases s with ⟨e, h⟩ | ⟨-, -, ⟨-, -, h⟩ | ⟨-, h⟩⟩ <;> rw [h] <;> rfl

theorem chnFindRule_gcmPart (s : State) : gcmPart (chnFindRule s).state = gcmPart s := by
  rcases chnFindRule_cases s with ⟨e, h⟩ | ⟨-, -, ⟨-, -, h⟩ | ⟨-, -, h⟩ | ⟨-, -, ⟨-, h⟩ | ⟨p, -, h⟩⟩⟩ <;> rw [h] <;> rfl

section
variable {i : Instr} {s t : State} (h : exec i s = .next t)
  (hi : ∃ dir l nc, i = dataCommand dir l nc ∨ i = finishCommand dir)

include h hi

theorem chaining_gcmPart : gcmPart t = gcmPart s := by
  have hrule : gcmPart (ruleOf i s).state = gcmPart s := by
    obtain ⟨dir, l, nc, rfl | rfl⟩ := hi
    · rw [ruleOf_dataCommand]
      exact chnDataRule_gcmPart dir l nc (clearOut s)
    · cases dir with
      | enc => exact chnFineRule_gcmPart (clearOut s)
      | dec => exact chnFindRule_gcmPart (clearOut s)
  obtain rfl := (exec_next_iff i s t).mp h
  simpa [gcmPart] using hrule

theorem chaining_owned : owned t = owned s := by
  obtain ⟨r, hr⟩ := exec_owned h
  obtain ⟨dir, l, nc, rfl | rfl⟩ := hi
  · cases dir <;> exact hr
  · cases dir <;> exact hr

end

/-! ### The GCM controller -/

section
variable {i : Instr} {s t : State} {l : Nat} (h : exec i s = .next t)
  (hi : i = .gcmSetiv l ∨ i = .gcmSettaglen l ∨ i = .gcmAad l ∨ i = .gcmEnc l ∨ i = .gcmDec l ∨ i = .gcmFine ∨
    i = .gcmFind)

include h hi

theorem gcm_chn : t.chn = s.chn := by
  obtain rfl := (exec_next_iff i s t).mp h
  rcases hi with rfl | rfl | rfl | rfl | rfl | rfl | rfl
  · exact gcmSetivRule_chn l s
  · exact gcmSettaglenRule_chn l s
  · exact gcmAadRule_chn l (clearOut s)
  · exact gcmDataRule_chn .enc l (clearOut s)
  · exact gcmDataRule_chn .dec l (clearOut s)
  · exact gcmFineRule_chn (clearOut s)
  · exact gcmFindRule_chn (clearOut s)

/-- A GCM command owns TAGLEN at most. -/
theorem gcm_owned : ∃ n, owned t = { owned s with modes := { s.modes with taglen := n } } := by
  obtain ⟨r, hr⟩ := exec_owned h
  rcases hi with rfl | rfl | rfl | rfl | rfl | rfl | rfl
  · exact ⟨s.modes.taglen, hr⟩
  · exact ⟨r.modes.taglen, hr⟩
  all_goals exact ⟨s.modes.taglen, hr⟩

end

/-! ### All three -/

/-- Settles O59: a Galois field command's two ends; of the other units, the registers a command does not own and the parts
that the rules of its unit leave. -/
theorem unitsAreSeparate : Obligations.UnitsAreSeparate := by
  intro i s t h
  refine ⟨fun hi => ?_, fun hi => ?_, fun ⟨l, hi⟩ => ?_⟩
  · rcases galoisRule_cases hi s with ⟨v, hrule⟩ | ⟨e, hrule⟩
    · obtain rfl := Host.Outcome.next.inj ((exec_of_succeed hrule).symm.trans h)
      exact ⟨rfl, nofun⟩
    · obtain rfl := Host.Outcome.next.inj ((exec_of_raise hrule).symm.trans h)
      exact ⟨rfl, fun _ => rfl⟩
  · have hown := chaining_owned h hi
    have hpart := chaining_gcmPart h hi
    simp only [owned, OwnedRegs.mk.injEq] at hown
    simp only [gcmPart, Prod.mk.injEq] at hpart
    obtain ⟨-, -, -, -, -, hmodes, hkey, hwout, hgr, hciv⟩ := hown
    obtain ⟨hgcm, htag, htagv⟩ := hpart
    exact ⟨hgcm, hmodes, hkey, by simp only [← htag, ← hwout, ← hgr], htagv, hciv⟩
  · obtain ⟨n, hown⟩ := gcm_owned h hi
    simp only [owned, OwnedRegs.mk.injEq] at hown
    obtain ⟨-, -, -, -, -, hmodes, hkey, hwout, hgr, -⟩ := hown
    exact ⟨gcm_chn h hi, hkey, by rw [hmodes], by simp only [← hwout, ← hgr]⟩

end Sys2Proof.Machine
end

section
/-! PROOFS. The GCM controller (43_gcm.md): each command where its checks pass, the equations of preset, of a chunk of
AAD or data and of the two finishes, and the phase after every command. -/

namespace Sys2Proof.Machine

/-! ### The configuration commands -/

theorem mem_tagLengths_iff (l : Nat) : l ∈ tagLengths ↔ l = 4 ∨ l = 8 ∨ (12 ≤ l ∧ l ≤ 16) := by
  simp only [tagLengths, List.mem_cons, List.not_mem_nil, or_false]
  omega

/-- Settles O48: the causes of each command in the order of its checks, and the writes where none applies. -/
theorem gcmSetivAndSettaglenConfigure : Obligations.GcmSetivAndSettaglenConfigure := by
  refine ⟨by decide, by decide, fun s l => ?_⟩
  rw [ne_eq, ← bsz_eq_sixteen]
  refine ⟨fun hb => ?_, fun hb hl => ?_, fun hb h1 h64 hph => ?_, fun hb h1 h64 hph => ?_, fun hb => ?_,
    fun hb h4 h8 hl => ?_, fun hb hl => ?_⟩
  · refine exec_of_raise (e := .gcmBlocksize) ?_
    rw [ruleOf, gcmSetivRule, if_pos hb]
  · refine exec_of_raise (e := .ivLength) ?_
    rw [ruleOf, gcmSetivRule, if_neg (not_not.mpr hb), if_pos hl]
  · refine exec_of_raise (e := .gcmIvLate) ?_
    rw [ruleOf, gcmSetivRule, if_neg (not_not.mpr hb), if_neg (by omega), if_pos hph]
  · refine ⟨fill 64 (ivOperand s l), fun i => fill_first_getElem s.host.ivin l i i.isLt, exec_of_succeed ?_⟩
    have hnot : ¬(s.gcm.gph = .aad ∨ s.gcm.gph = .data) := by rcases hph with h | h <;> simp [h]
    rw [ruleOf, gcmSetivRule, if_neg (not_not.mpr hb), if_neg (by omega), if_neg hnot, gcmSessionReset, fill_nil]
  · refine exec_of_raise (e := .gcmBlocksize) ?_
    rw [ruleOf, gcmSettaglenRule, if_pos hb]
  · refine exec_of_raise (e := .gcmTaglen) ?_
    rw [ruleOf, gcmSettaglenRule, if_neg (not_not.mpr hb), if_pos (by rw [mem_tagLengths_iff]; omega)]
  · refine exec_of_succeed ?_
    rw [ruleOf, gcmSettaglenRule, if_neg (not_not.mpr hb), if_neg (not_not.mpr ((mem_tagLengths_iff l).mpr hl))]

/-! ### The open session -/

/-- A command goes on in the session state that `Opens` names. -/
theorem withSession_of_opens {s t : State} (h : Opens s t) (k : State → Run) : withSession s k = k t := by
  rcases h with ⟨hc, hk, hi, rfl⟩ | ⟨hc, rfl⟩
  · exact withSession_config s k hc hk hi
  · exact withSession_open t k hc

/-- Opening a session moves the phase from CONFIG to AAD or keeps it. -/
theorem Opens.gph {s t : State} (h : Opens s t) :
    t.gcm.gph = s.gcm.gph ∨ (s.gcm.gph = .config ∧ t.gcm.gph = .aad) := by
  rcases h with ⟨hc, -, -, rfl⟩ | ⟨-, rfl⟩
  · exact .inr ⟨hc, rfl⟩
  · exact .inl rfl

/-- The session state of a data-moving command in an open session. -/
theorem opens_emptyOut_of_open {s : State} (h : s.gcm.gph = .aad ∨ s.gcm.gph = .data) :
    Opens (emptyOut s) (emptyOut s) :=
  .inr ⟨show s.gcm.gph ≠ .config by rcases h with h | h <;> simp [h], rfl⟩

/-- The session state of a data-moving command from CONFIG with a key and an IV. -/
theorem opens_emptyOut_of_config {s : State} (hc : s.gcm.gph = .config) (hk : s.key.keyed = true)
    (hi : s.gcm.givset = true) : Opens (emptyOut s) (startSession (emptyOut s)) :=
  .inl ⟨hc, hk, hi, rfl⟩

/-- With blocks of 16 bytes, E is the transform at that size. -/
theorem encryptBlock_sixteen {s : State} (hb : s.bsz = 16) (b : Bytes) :
    encryptBlock s b = btEnc s.params.bt 16 (s.key.ks.getD []) b := by
  rw [encryptBlock, hb, schedule]

/-! ### The commands past their checks -/

/-- The GCM data command of a direction. -/
def gcmDataCommand : Dir → Nat → Instr
  | .enc, l => .gcmEnc l
  | .dec, l => .gcmDec l

theorem ruleOf_gcmDataCommand (dir : Dir) (l : Nat) (s : State) :
    ruleOf (gcmDataCommand dir l) s = gcmDataRule dir l (clearOut s) := by
  cases dir <;> rfl

section
variable {s t : State} (hb : s.bsz = 16) (ho : Opens (emptyOut s) t)

include hb ho

theorem exec_gcmAad_of_opens {l : Nat} (hl : l ≤ 16) (hph : s.gcm.gph = .config ∨ s.gcm.gph = .aad)
    (ha : s.gcm.aadpart = false) : exec (.gcmAad l) s = .next (okState (absorbAad l t)) := by
  rw [← clearOut_eq_emptyOut] at ho
  have hdone : s.gcm.gph ≠ .done := by rcases hph with h | h <;> simp [h]
  have hdata : s.gcm.gph ≠ .data := by rcases hph with h | h <;> simp [h]
  exact exec_of_succeed (by simp [ruleOf, gcmAadRule, hb, hl, hdone, hdata, ha, withSession_of_opens ho])

theorem exec_gcmDataCommand_of_opens {dir : Dir} {l : Nat} (hl : l ≤ 16) (hph : s.gcm.gph ≠ .done)
    (hdir : s.gcm.gdir ≠ dir.otherGcmDir) (hd : s.gcm.dpart = false) :
    exec (gcmDataCommand dir l) s = .next (okState (cryptData dir l t)) := by
  rw [← clearOut_eq_emptyOut] at ho
  exact exec_of_succeed (by
    simp [ruleOf_gcmDataCommand, gcmDataRule, hb, hl, hph, hdir, hd, withSession_of_opens ho])

theorem exec_gcmFine_of_opens (hph : s.gcm.gph ≠ .done) (hdir : s.gcm.gdir ≠ .dec) :
    exec .gcmFine s = complete (produceTag t) := by
  rw [← clearOut_eq_emptyOut] at ho
  simp [exec_eq_complete, ruleOf, gcmFineRule, hb, hph, hdir, withSession_of_opens ho]

theorem exec_gcmFind_of_opens (hph : s.gcm.gph ≠ .done) (hdir : s.gcm.gdir ≠ .enc) :
    exec .gcmFind s = complete (compareTag t) := by
  rw [← clearOut_eq_emptyOut] at ho
  simp [exec_eq_complete, ruleOf, gcmFindRule, hb, hph, hdir, withSession_of_opens ho]

end

/-! ### preset -/

/-- A number of two bytes in a big-endian string of eight: the bytes before are 0. -/
theorem beBytes_eight_of_lt {v : Nat} (hv : v < 65536) :
    beBytes 8 v = List.replicate 6 0 ++ [BitVec.ofNat 8 (v / 256), BitVec.ofNat 8 v] := by
  simp (disch := omega) [beBytes, List.range_succ, Nat.shiftRight_eq_div_pow, Nat.div_eq_of_lt]

/-- J0 of a 12-byte IV (R320). -/
theorem deriveJ0_toList_of_twelve (h : Block) {iv : Bytes} (hl : iv.length = 12) :
    (deriveJ0 h iv).toList = iv ++ [0, 0, 0, 1] := by
  rw [deriveJ0, if_pos hl, fill_toList_eq 16 _ (by simp [hl])]

/-- J0 of any other IV, GHASH as the fold over its blocks (R318, R321). -/
theorem deriveJ0_of_ne_twelve (h : Block) {iv : Bytes} (hl : iv.length ≠ 12) : deriveJ0 h iv =
    let hashed := iv ++ zeros ((16 - iv.length % 16) % 16) ++ zeros 8 ++ beBytes 8 (8 * iv.length)
    ((List.range (hashed.length / 16)).map fun k => fill 16 ((hashed.drop (16 * k)).take 16)).foldl (ghashStep h)
      (Vector.replicate 16 0) := by
  rw [deriveJ0, if_neg hl, ghash, ghashBlocks_eq_foldl, fill_nil]

/-- An empty chunk of AAD does nothing in an open session. -/
theorem absorbAad_zero (s : State) : absorbAad 0 s = s := if_pos rfl

/-- The state in which preset alone ends from CONFIG, as the completion of a command. -/
def afterPreset (s : State) : State := okState (startSession (emptyOut s))

theorem opens_afterPreset (s : State) : Opens (emptyOut (afterPreset s)) (afterPreset s) := .inr ⟨nofun, rfl⟩

/-- preset alone, by an AAD chunk of no bytes (R320, R330). -/
theorem exec_gcmAad_zero_config {s : State} (hb : s.bsz = 16) (hc : s.gcm.gph = .config) (hk : s.key.keyed = true)
    (hi : s.gcm.givset = true) (ha : s.gcm.aadpart = false) :
    exec (.gcmAad 0) s = .next (afterPreset s) := by
  rw [exec_gcmAad_of_opens hb (opens_emptyOut_of_config hc hk hi) (Nat.zero_le 16) (.inl hc) ha, absorbAad_zero,
    afterPreset]

/-- Settles O50: an AAD chunk of no bytes is preset alone; J0 by the two forms of `deriveJ0`. -/
theorem presetStartsTheSession : Obligations.PresetStartsTheSession := by
  intro s hbs hc ha hk hi h1 h64 l iv h foldStep hashed
  have hb : s.bsz = 16 := (bsz_eq_sixteen s).mpr hbs
  have hiv : iv.length = l := first_length s.gcm.giv l h64
  have hh : fill 16 (encryptBlock (emptyOut s) (zeros 16)) = h :=
    congrArg (fill 16) (encryptBlock_sixteen hb (zeros 16))
  refine ⟨deriveJ0 h iv, ?_, fun hl => deriveJ0_toList_of_twelve h (hiv.trans hl), fun hl => ?_⟩
  · rw [exec_gcmAad_zero_config hb hc hk hi ha, afterPreset, startSession, hh, fill_nil]
    rfl
  · rw [deriveJ0_of_ne_twelve h (hiv ▸ hl), hiv, beBytes_eight_of_lt (by omega)]
    rfl

/-! ### Chunks of AAD and data -/

/-- The AAD step on a chunk that is not empty, with the values it writes. -/
theorem absorbAad_of_pos {l : Nat} (hl : 1 ≤ l) (s : State) : absorbAad l s = { s with gcm := { s.gcm with
    acc := ghashStep s.gcm.h s.gcm.acc (fill 16 (chunk s l))
    alen := s.gcm.alen + BitVec.ofNat 64 (8 * l)
    aadpart := if l < 16 then true else s.gcm.aadpart } } := by
  rw [absorbAad, if_neg (by omega)]
  rfl

/-- Settles O51, by the equation of the AAD step in an open session. -/
theorem aadFoldsOnce : Obligations.AadFoldsOnce := by
  intro s l hbs hph ha h1 h16
  rw [exec_gcmAad_of_opens ((bsz_eq_sixteen s).mpr hbs) (opens_emptyOut_of_open (.inl hph)) h16 (.inr hph) ha,
    absorbAad_of_pos h1, Bool.if_true_left, show (emptyOut s).gcm.aadpart = false from ha, Bool.or_false]
  rfl

/-- A command's own direction, or none, does not refuse it. -/
theorem otherGcmDir_ne_of_free {g : GcmDir} {dir : Dir} (h : g = .none ∨ g = dir.gcmDir) : g ≠ dir.otherGcmDir := by
  cases dir <;> rcases h with rfl | rfl <;> nofun

theorem ne_done_of_open {ph : GcmPhase} (h : ph = .aad ∨ ph = .data) : ph ≠ .done := by
  rcases h with rfl | rfl <;> nofun

/-- A data chunk in an open session, in either direction (R334, R337). -/
theorem exec_gcmDataCommand_chunk {s : State} {dir : Dir} {l : Nat} (hbs : s.params.bs = .sixteen)
    (hph : s.gcm.gph = .aad ∨ s.gcm.gph = .data) (hdir : s.gcm.gdir = .none ∨ s.gcm.gdir = dir.gcmDir)
    (hd : s.gcm.dpart = false) (h1 : 1 ≤ l) (h16 : l ≤ 16) : exec (gcmDataCommand dir l) s = .next (okState { s with
      results := { s.results with dout := fill 16 (cryptResult l s) }
      status := { s.status with outlen := l }
      gcm := { s.gcm with
        cb := inc32 s.gcm.cb
        acc := ghashStep s.gcm.h s.gcm.acc (fill 16 (dir.ciphertext (chunk s l) (cryptResult l s)))
        clen := s.gcm.clen + BitVec.ofNat 64 (8 * l)
        dpart := decide (l < 16)
        gph := .data
        gdir := dir.gcmDir } }) := by
  have hb : s.bsz = 16 := (bsz_eq_sixteen s).mpr hbs
  rw [exec_gcmDataCommand_of_opens hb (opens_emptyOut_of_open hph) h16 (ne_done_of_open hph)
    (otherGcmDir_ne_of_free hdir) hd, cryptData_eq dir l (emptyOut s) h1 h16 hb,
    show (emptyOut s).gcm.dpart = false from hd, Bool.if_true_left, Bool.or_false]
  rfl

/-- Settles O52: `exec_gcmDataCommand_chunk`, with E as the transform of 16-byte blocks. -/
theorem gcmDataCommandEquations : Obligations.GcmDataCommandEquations := by
  intro s dir l hbs hph hdir hd h1 h16
  have hchunk := exec_gcmDataCommand_chunk (dir := dir) hbs hph (by cases dir <;> exact hdir) hd h1 h16
  rw [cryptResult, encryptBlock_sixteen ((bsz_eq_sixteen s).mpr hbs)] at hchunk
  cases dir <;> exact hchunk

/-- Settles O54: the last four bytes hold the number modulo 2^32 exactly. -/
theorem counterStepsItsLowWord : Obligations.CounterStepsItsLowWord := by
  intro cb
  have h12 : (first cb 12).length = 12 := first_length cb 12 (by decide)
  rw [inc32, fill_toList_eq 16 _ (by simp [h12])]
  refine ⟨List.take_left' h12, ?_⟩
  rw [List.drop_left' h12, beNat_beBytes]
  exact Nat.mod_mod _ _

theorem chunk_loadDin_cryptResult {s : State} {l : Nat} (hb : s.bsz = 16) (hl : l ≤ 16) :
    chunk (loadDin (cryptResult l s) s) l = cryptResult l s :=
  first_fill l 16 _ (cryptResult_length l s hl hb) hl

/-- The output of a data step, taken in again from the same counter, gives the chunk back: the keystream cancels. -/
theorem cryptResult_loadDin_cryptResult {s : State} {l : Nat} (hb : s.bsz = 16) (hl : l ≤ 16) :
    cryptResult l (loadDin (cryptResult l s) s) = chunk s l := by
  rw [cryptResult, chunk_loadDin_cryptResult hb hl]
  exact xorBytes_cancel _ _ (by simp [hb, hl, chunk, first])

/-- Settles O55: the decode takes in the encode's output, so it folds the same ciphertext and puts out the chunk. -/
theorem gcmDecUndoesEnc : Obligations.GcmDecUndoesEnc := by
  intro s t l hbs hph hdir hd h1 h16 h
  have hb : s.bsz = 16 := (bsz_eq_sixteen s).mpr hbs
  obtain rfl := Host.Outcome.next.inj
    ((exec_gcmDataCommand_chunk (dir := .enc) hbs hph (.inl hdir) hd h1 h16).symm.trans h)
  have hdec := exec_gcmDataCommand_chunk (s := loadDin (cryptResult l s) s) (dir := .dec) hbs hph (.inl hdir) hd h1 h16
  rw [cryptResult_loadDin_cryptResult hb h16, Dir.ciphertext, chunk_loadDin_cryptResult hb h16] at hdec
  exact ⟨_, hdec, toList_take_fill l 16 _ (first_length s.host.din l h16) h16, rfl⟩

/-! ### The finishes -/

/-- The state a finish ends in: the length block folded, the phase DONE, and what it shows of the tag. -/
def sessionFinished (tag : Block) (valid : Bool) (s : State) : State :=
  { (gtag s).2 with
    gcm := { (gtag s).2.gcm with gph := .done }
    results := { s.results with tag := tag }
    status := { s.status with tagv := valid } }

theorem produceTag_eq_finished (s : State) :
    produceTag s = succeed (sessionFinished (fill 16 (first (gtag s).1 s.modes.taglen)) true s) := rfl

theorem compareTag_of_eq {s : State} (h : first s.host.tagin s.modes.taglen = first (gtag s).1 s.modes.taglen) :
    compareTag s = succeed (sessionFinished (Vector.replicate 16 0) false s) := by
  rw [← fill_nil]
  exact if_neg (not_not.mpr h)

theorem compareTag_of_ne {s : State} (h : first s.host.tagin s.modes.taglen ≠ first (gtag s).1 s.modes.taglen) :
    compareTag s = raise (sessionFinished (Vector.replicate 16 0) false s) .tagMismatch := by
  rw [← fill_nil]
  exact if_pos h

/-- The full tag, E(J0) XOR ACC after the length block (R340). -/
theorem gtag_toList {s : State} (hb : s.bsz = 16) : (gtag s).1.toList =
    xorBytes (btEnc s.params.bt 16 (s.key.ks.getD []) s.gcm.j0.toList) (gtag s).2.gcm.acc.toList := by
  have hlen : (encryptBlock (gtag s).2 s.gcm.j0.toList).length = 16 := (encryptBlock_length _ _).trans hb
  change (xorBlock (fill 16 (encryptBlock (gtag s).2 s.gcm.j0.toList)) (gtag s).2.gcm.acc).toList = _
  rw [xorBlock_toList, fill_toList_eq 16 _ hlen, encryptBlock_sixteen (s := (gtag s).2) hb]
  rfl

/-- Settles O56: the two ends of a finish in the session as it is, with the full tag of `gtag_toList`. -/
theorem gcmFinishCommandEquations : Obligations.GcmFinishCommandEquations := by
  intro s hbs hph acc full
  have hb : s.bsz = 16 := (bsz_eq_sixteen s).mpr hbs
  have ho := opens_emptyOut_of_open hph
  have hfull : (gtag (emptyOut s)).1.toList = full := gtag_toList (s := emptyOut s) hb
  refine ⟨fun hdir => ?_, fun hdir => ⟨fun htag => ?_, fun htag => ?_⟩⟩
  · rw [exec_gcmFine_of_opens hb ho (ne_done_of_open hph) hdir, produceTag_eq_finished, first, hfull]
    rfl
  all_goals rw [exec_gcmFind_of_opens hb ho (ne_done_of_open hph) hdir]
  · exact congrArg complete (compareTag_of_eq (s := emptyOut s) (htag.trans (congrArg _ hfull.symm)))
  · exact congrArg complete (compareTag_of_ne (s := emptyOut s) (htag.trans_eq (congrArg _ hfull.symm)))

/-- A GCM.FINE that succeeds has produced the tag of its session. -/
theorem opens_of_exec_gcmFine {s t : State} (h : exec .gcmFine s = .next t) (herr : t.status.err = false) :
    ∃ r, Opens (emptyOut s) r ∧
      t = okState (sessionFinished (fill 16 (first (gtag r).1 r.modes.taglen)) true r) := by
  obtain rfl := (exec_next_iff .gcmFine s t).mp h
  rw [← clearOut_eq_emptyOut]
  rcases gcmFineRule_cases (clearOut s) with ⟨e, hrule⟩ | ⟨-, -, -, r, ho, hrule⟩
  · rw [ruleOf, hrule] at herr
    exact absurd herr nofun
  · exact ⟨r, ho, by rw [ruleOf, hrule]; rfl⟩

/-- Settles O57: both finishes go on from one session state, and TAG holds the first TAGLEN bytes of its full tag. -/
theorem findAcceptsExactlyTheTag : Obligations.FindAcceptsExactlyTheTag := by
  intro s t hbs hph hdir hlegal h herr u
  have hb : s.bsz = 16 := (bsz_eq_sixteen s).mpr hbs
  obtain ⟨r, ho, ht⟩ := opens_of_exec_gcmFine h herr
  obtain ⟨hhost, hmodes⟩ : r.host = s.host ∧ r.modes = s.modes := by
    rcases ho with ⟨-, -, -, rfl⟩ | ⟨-, rfl⟩ <;> exact ⟨rfl, rfl⟩
  have hlen : r.modes.taglen ≤ 16 := by
    have hcodes := (mem_tagLengths_iff s.modes.taglen).mp hlegal.taglen
    rw [hmodes]
    omega
  have htag : t.results.tag.toList.take r.modes.taglen = first (gtag r).1 r.modes.taglen := by
    rw [ht]
    exact toList_take_fill _ 16 _ (first_length _ _ hlen) hlen
  rw [exec_gcmFind_of_opens hb ho hph (by simp [hdir]), ← hhost, ← hmodes, htag]
  subst ht
  exact ⟨fun heq => congrArg complete (compareTag_of_eq heq), fun hne => congrArg complete (compareTag_of_ne hne)⟩

/-! ### From CONFIG

The steps of a session neither read nor write the result fields of STATUS, so they act on the state that preset's own
completion leaves as on the one it opens. -/

theorem absorbAad_okState (l : Nat) (s : State) : absorbAad l (okState s) = okState (absorbAad l s) := by
  unfold absorbAad
  split <;> rfl

theorem cryptData_okState (dir : Dir) (l : Nat) (s : State) :
    cryptData dir l (okState s) = okState (cryptData dir l s) := by
  unfold cryptData
  split <;> rfl

theorem complete_produceTag_okState (s : State) : complete (produceTag (okState s)) = complete (produceTag s) := rfl

theorem complete_compareTag_okState (s : State) : complete (compareTag (okState s)) = complete (compareTag s) := by
  by_cases h : first s.host.tagin s.modes.taglen = first (gtag s).1 s.modes.taglen
  · rw [compareTag_of_eq h, compareTag_of_eq (s := okState s) h]
    rfl
  · rw [compareTag_of_ne h, compareTag_of_ne (s := okState s) h]
    rfl

/-- A first command of a session is preset and then itself. -/
theorem exec_afterPreset {s : State} {l : Nat} {i : Instr} (hb : s.bsz = 16) (hc : s.gcm.gph = .config)
    (hk : s.key.keyed = true) (hi : s.gcm.givset = true) (ha : s.gcm.aadpart = false) (hd : s.gcm.dpart = false)
    (hdir : s.gcm.gdir = .none) (hl : l ≤ 16)
    (hcmd : i = .gcmAad l ∨ i = .gcmEnc l ∨ i = .gcmDec l ∨ i = .gcmFine ∨ i = .gcmFind) :
    exec i s = exec i (afterPreset s) := by
  have ho := opens_emptyOut_of_config hc hk hi
  have hop := opens_afterPreset s
  have hbp : (afterPreset s).bsz = 16 := hb
  have hph : s.gcm.gph ≠ .done := by simp [hc]
  have hphp : (afterPreset s).gcm.gph ≠ .done := nofun
  have hdata (dir : Dir) : exec (gcmDataCommand dir l) s = exec (gcmDataCommand dir l) (afterPreset s) := by
    have hfree : s.gcm.gdir ≠ dir.otherGcmDir := otherGcmDir_ne_of_free (.inl hdir)
    rw [exec_gcmDataCommand_of_opens hb ho hl hph hfree hd, exec_gcmDataCommand_of_opens hbp hop hl hphp hfree hd,
      afterPreset, cryptData_okState]
    rfl
  rcases hcmd with rfl | rfl | rfl | rfl | rfl
  · rw [exec_gcmAad_of_opens hb ho hl (.inl hc) ha, exec_gcmAad_of_opens hbp hop hl (.inr rfl) ha, afterPreset,
      absorbAad_okState]
    rfl
  · exact hdata .enc
  · exact hdata .dec
  · have hfree : s.gcm.gdir ≠ .dec := by simp [hdir]
    rw [exec_gcmFine_of_opens hb ho hph hfree, exec_gcmFine_of_opens hbp hop hphp hfree, afterPreset,
      complete_produceTag_okState]
  · have hfree : s.gcm.gdir ≠ .enc := by simp [hdir]
    rw [exec_gcmFind_of_opens hb ho hph hfree, exec_gcmFind_of_opens hbp hop hphp hfree, afterPreset,
      complete_compareTag_okState]

/-- Settles O53: from CONFIG by the commands in the two session states; an empty data chunk is an empty step where the
session is open, and in CONFIG its rule is that of an empty AAD chunk, preset's errors included. -/
theorem emptyGcmChunkOnlyPresets : Obligations.EmptyGcmChunkOnlyPresets := by
  refine ⟨fun s p l i hbs hc hk hi ha hd hdir hl hcmd hp => ?_, fun s i hbs hd hcmd => ?_⟩
  · have hb : s.bsz = 16 := (bsz_eq_sixteen s).mpr hbs
    obtain rfl := Host.Outcome.next.inj ((exec_gcmAad_zero_config hb hc hk hi ha).symm.trans hp)
    exact ⟨rfl, exec_afterPreset hb hc hk hi ha hd hdir hl hcmd⟩
  · have hb : s.bsz = 16 := (bsz_eq_sixteen s).mpr hbs
    obtain ⟨dir, rfl, hdir⟩ : ∃ dir : Dir, i = gcmDataCommand dir 0 ∧ s.gcm.gdir ≠ dir.otherGcmDir := by
      rcases hcmd with ⟨rfl, hdir⟩ | ⟨rfl, hdir⟩
      · exact ⟨.enc, rfl, hdir⟩
      · exact ⟨.dec, rfl, hdir⟩
    refine ⟨fun hph => ?_, fun hc ha => ?_⟩
    · rw [exec_gcmDataCommand_of_opens hb (opens_emptyOut_of_open hph) (Nat.zero_le 16) (ne_done_of_open hph) hdir hd,
        cryptData_zero]
    · have hrule : ruleOf (gcmDataCommand dir 0) s = ruleOf (.gcmAad 0) s := by
        rw [ruleOf_gcmDataCommand, ruleOf]
        simp [gcmDataRule, gcmAadRule, hb, hc, ha, hd, hdir, cryptData_zero, absorbAad_zero]
      rw [exec_eq_complete, exec_eq_complete, hrule]

/-! ### The phase after a command -/

/-- What can become of the GCM phase `ph` by the command `i`: one constructor for each phase entered. -/
inductive GcmPhaseMove (i : Instr) (ph : GcmPhase) : GcmPhase → Prop
  | kept : GcmPhaseMove i ph ph
  | cleared (h : i = .clear ∨ i = .reset ∨ (∃ l k, i = .setkey l k) ∨ (ph = .done ∧ ∃ l, i = .gcmSetiv l)) :
      GcmPhaseMove i ph .config
  | opened (before : ph = .config) (h : (∃ l, i = .gcmAad l) ∨ i = .gcmEnc 0 ∨ i = .gcmDec 0) : GcmPhaseMove i ph .aad
  | chunk (before : ph ≠ .done) {l : Nat} (hl : 1 ≤ l) (h : i = .gcmEnc l ∨ i = .gcmDec l) : GcmPhaseMove i ph .data
  | finished (h : i = .gcmFine ∨ i = .gcmFind) : GcmPhaseMove i ph .done

/-- A command that leaves the GCM controller alone keeps its phase. -/
theorem GcmPhaseMove.of_eq {i : Instr} {s t : State} (h : t.gcm = s.gcm) : GcmPhaseMove i s.gcm.gph t.gcm.gph := by
  rw [h]
  exact .kept

/-- A command that opens a session and goes no further keeps the phase or moves it from CONFIG to AAD. -/
theorem GcmPhaseMove.of_opens {i : Instr} {s t : State} (ho : Opens s t)
    (h : (∃ l, i = .gcmAad l) ∨ i = .gcmEnc 0 ∨ i = .gcmDec 0) : GcmPhaseMove i s.gcm.gph t.gcm.gph := by
  rcases ho.gph with hkept | ⟨hc, haad⟩
  · rw [hkept]
    exact .kept
  · rw [haad]
    exact .opened hc h

theorem gcmSetivRule_gph (l : Nat) (s : State) :
    GcmPhaseMove (.gcmSetiv l) s.gcm.gph (gcmSetivRule l s).state.gcm.gph := by
  rcases gcmSetivRule_cases l s with ⟨e, h⟩ | ⟨-, -, hc | hd, h⟩ <;> rw [h]
  · exact .kept
  · rw [hc]
    exact .kept
  · exact .cleared (.inr (.inr (.inr ⟨hd, l, rfl⟩)))

theorem gcmAadRule_gph (l : Nat) (s : State) : GcmPhaseMove (.gcmAad l) s.gcm.gph (gcmAadRule l s).state.gcm.gph := by
  rcases gcmAadRule_cases l s with ⟨e, h⟩ | ⟨-, -, -, -, t, ho, h⟩ <;> rw [h]
  · exact .kept
  · obtain ⟨acc, alen, habsorb⟩ := absorbAad_eq l t
    rw [habsorb]
    exact (GcmPhaseMove.of_opens ho (.inl ⟨l, rfl⟩) :)

theorem gcmDataRule_gph (dir : Dir) (l : Nat) (s : State) :
    GcmPhaseMove (gcmDataCommand dir l) s.gcm.gph (gcmDataRule dir l s).state.gcm.gph := by
  rcases gcmDataRule_cases dir l s with ⟨e, h⟩ | ⟨hb, hl, hd, -, -, t, ho, h⟩ <;> rw [h]
  · exact .kept
  · rcases Nat.eq_zero_or_pos l with rfl | hpos
    · rw [cryptData_zero]
      exact .of_opens ho (by cases dir <;> simp [gcmDataCommand])
    · have hbt : t.bsz = 16 := by rcases ho with ⟨-, -, -, rfl⟩ | ⟨-, rfl⟩ <;> exact hb
      rw [cryptData_eq dir l t hpos hl hbt]
      exact .chunk hd hpos (by cases dir <;> simp [gcmDataCommand])

theorem gcmFineRule_gph (s : State) : GcmPhaseMove .gcmFine s.gcm.gph (gcmFineRule s).state.gcm.gph := by
  rcases gcmFineRule_cases s with ⟨e, h⟩ | ⟨-, -, -, t, -, h⟩ <;> rw [h]
  · exact .kept
  · exact .finished (.inl rfl)

theorem gcmFindRule_gph (s : State) : GcmPhaseMove .gcmFind s.gcm.gph (gcmFindRule s).state.gcm.gph := by
  rcases gcmFindRule_cases s with ⟨e, h⟩ | ⟨-, -, -, t, -, h⟩ <;> rw [h]
  · exact .kept
  · obtain ⟨acc, hstate⟩ := compareTag_state t
    rw [hstate]
    exact .finished (.inr rfl)

/-- What each command does to the phase, by the rules. -/
theorem ruleOf_gph (i : Instr) (s : State) : GcmPhaseMove i s.gcm.gph (ruleOf i s).state.gcm.gph := by
  cases i with
  | nop | waist | gfMod | gfAdd | gfMul | gfGmm => exact .kept
  | reset => exact .cleared (.inr (.inl rfl))
  | clear => exact .cleared (.inl rfl)
  | setkey imm ktype =>
    rcases setkeyRule_cases imm ktype s with ⟨e, h⟩ | ⟨-, -, h⟩ <;> rw [ruleOf, h]
    · exact .kept
    · exact .cleared (.inr (.inr (.inl ⟨_, _, rfl⟩)))
  | setmode imm =>
    obtain ⟨m, h⟩ := setmodeRule_state imm s
    exact .of_eq (by rw [ruleOf, h])
  | setpad imm =>
    obtain ⟨p, h⟩ := setpadRule_state imm s
    exact .of_eq (by rw [ruleOf, h])
  | chnSetiv imm => rcases chnSetivRule_cases imm s with ⟨e, h⟩ | h <;> exact .of_eq (by rw [ruleOf, h]; rfl)
  | chnEnc imm nc => exact .of_eq (congrArg Prod.fst (chnDataRule_gcmPart .enc imm nc (clearOut s)))
  | chnDec imm nc => exact .of_eq (congrArg Prod.fst (chnDataRule_gcmPart .dec imm nc (clearOut s)))
  | chnFine => exact .of_eq (congrArg Prod.fst (chnFineRule_gcmPart (clearOut s)))
  | chnFind => exact .of_eq (congrArg Prod.fst (chnFindRule_gcmPart (clearOut s)))
  | gfInv =>
    obtain ⟨g, h⟩ := gfInvRule_state s
    exact .of_eq (by rw [ruleOf, h])
  | gfDiv =>
    obtain ⟨g, h⟩ := gfDivRule_state s
    exact .of_eq (by rw [ruleOf, h])
  | gcmSetiv imm => exact gcmSetivRule_gph imm s
  | gcmSettaglen imm =>
    rcases gcmSettaglenRule_cases imm s with ⟨e, h⟩ | ⟨-, h⟩ <;> exact .of_eq (by rw [ruleOf, h]; rfl)
  | gcmAad imm => exact gcmAadRule_gph imm (clearOut s)
  | gcmEnc imm => exact gcmDataRule_gph .enc imm (clearOut s)
  | gcmDec imm => exact gcmDataRule_gph .dec imm (clearOut s)
  | gcmFine => exact gcmFineRule_gph (clearOut s)
  | gcmFind => exact gcmFindRule_gph (clearOut s)

/-- Settles O58: each move of `GcmPhaseMove` enters its own phase. -/
theorem gcmPhaseTransitions : Obligations.GcmPhaseTransitions := by
  intro i s t h hne
  have hmove : GcmPhaseMove i s.gcm.gph t.gcm.gph := by
    obtain rfl := (exec_next_iff i s t).mp h
    exact ruleOf_gph i s
  generalize t.gcm.gph = ph' at hmove hne ⊢
  cases hmove with
  | kept => exact absurd rfl hne
  | cleared hcmd => exact ⟨fun _ => hcmd, nofun, nofun, nofun⟩
  | opened before hcmd => exact ⟨nofun, fun _ => ⟨before, hcmd⟩, nofun, nofun⟩
  | chunk before hl hcmd => exact ⟨nofun, nofun, fun _ => ⟨before, _, hl, hcmd⟩, nofun⟩
  | finished hcmd => exact ⟨nofun, nofun, nofun, fun _ => hcmd⟩

end Sys2Proof.Machine
end

section
/-! PROOFS. The execution cycle and its results (60_exceptions.md): a command accepted and run (R400), the result STATUS
names (R402, R403), the first cause in the order of R405 for the chaining and the GCM commands, and the key material no
read depends on (R411). -/

namespace Sys2Proof.Machine

/-! ### The cycle -/

/-- Settles O7: the status write at the end of every command, whatever its rule left. -/
theorem everyCommandNamesItsResult : Obligations.EveryCommandNamesItsResult := fun i s =>
  ⟨_, exec_eq_complete i s, Status.complete_busy _ _, Status.complete_namesResult _ _⟩

/-- Settles O5: no event is early, so the engine moves, and it runs what the decoder answers. -/
theorem stepRunsThePendingCommand : Obligations.StepRunsThePendingCommand := by
  intro s i hbusy hreset hinputs hdecode
  have hlate : eventIsEarly s.env.inputs = false := by
    rcases hinputs with h | ⟨e, es, h, he⟩ <;> rw [h]
    · rfl
    · exact he
  have hmoves : engineMoves s = true := by simp [engineMoves, hbusy, hreset, hlate]
  rw [step, if_pos hmoves, engineStep_of_ok hdecode]

/-- Settles O6: a host write at the offset of CMD is the write of its one word. -/
theorem commandWriteIsAccepted : Obligations.CommandWriteIsAccepted := by
  intro s w early rest hbusy hreset hin
  have hword : writeWord s 0x004 w = writeReg s .cmd 0 w :=
    writeWord_word (r := .cmd) (k := 0) w hbusy (by decide)
  rw [step_hostWrite hreset (by decide) (by decide) (.inl hbusy) hin, hword]
  rfl

/-! ### Key material -/

/-- KEYBUF reads 0, and of the key state the mirror word CFG shows KLEN and KEYED only (R34, R39). -/
theorem readReg_keyMaterial (s : State) (kb key : Vector Byte 32) (ks : Option KeySchedule) (r : WinReg) (k : Nat) :
    readReg { s with host := { s.host with keybuf := kb }, key := { s.key with key := key, ks := ks } } r k =
      readReg s r k := by
  cases r <;> rfl

/-- Settles O22: a busy read shows OVR and free values at most, any other read a word of a register. -/
theorem keyMaterialIsNotReadable : Obligations.KeyMaterialIsNotReadable := by
  intro s kb key ks off
  have hidle : idleReadWord { s with host := { s.host with keybuf := kb }, key := { s.key with key := key, ks := ks } }
      off = idleReadWord s off := by
    unfold idleReadWord
    cases rowAt off with
    | none => rfl
    | some row => exact readReg_keyMaterial s kb key ks row.reg _
  rw [readWord, hidle]
  rfl

/-! ### The causes of the chaining commands -/

theorem chnCheck_unkeyed (other : ChainPhase) {s : State} (hk : s.key.keyed = false) :
    chnCheck other s = some .notKeyed := if_pos hk

section
variable {s : State} (hk : s.key.keyed = true)

include hk

theorem chnCheck_failed (other : ChainPhase) (hp : s.chn.cph = .failed) : chnCheck other s = some .streamFailed := by
  simp [chnCheck, hk, hp]

theorem chnCheck_otherDirection (dir : Dir) (hp : s.chn.cph = dir.otherPhase) :
    chnCheck dir.otherPhase s = some .direction := by
  cases dir <;> simp [chnCheck, hk, hp, Dir.otherPhase]

end

theorem ruleOf_finishCommand_of_some {dir : Dir} {s : State} {e : CmdError} (h : chnCheck dir.otherPhase s = some e) :
    ruleOf (finishCommand dir) s = raise (clearOut s) e := by
  rw [← chnCheck_clearOut] at h
  cases dir with
  | enc => simp only [finishCommand, ruleOf, chnFineRule, show chnCheck .dec (clearOut s) = some e from h]
  | dec => simp only [finishCommand, ruleOf, chnFindRule, show chnCheck .enc (clearOut s) = some e from h]

/-- A cause of the common checks stops all four commands before any write but the emptied output. -/
theorem exec_of_chnCheck {dir : Dir} {l : Nat} {nc : Bool} {i : Instr} {s : State} {e : CmdError}
    (hi : i = dataCommand dir l nc ∨ i = finishCommand dir) (h : chnCheck dir.otherPhase s = some e) :
    exec i s = .next (errState (emptyOut s) e.ecode e.edet) := by
  refine exec_of_raise_in ?_
  rw [← clearOut_eq_emptyOut]
  rcases hi with rfl | rfl
  · rw [ruleOf_dataCommand, chnDataRule, chnCheck_clearOut, h]
  · exact ruleOf_finishCommand_of_some h

section
variable {dir : Dir} {s : State} (hc : chnCheck dir.otherPhase s = none)

include hc

/-- The length of the chunk is checked next (R220, R222). -/
theorem exec_dataCommand_tooLong {l : Nat} (nc : Bool) (hl : l > s.bsz) :
    exec (dataCommand dir l nc) s = .next (errState (emptyOut s) 2 5) := by
  refine exec_of_raise_in (e := .dataLength) ?_
  rw [← clearOut_eq_emptyOut, ruleOf_dataCommand, chnDataRule, chnCheck_clearOut, hc]
  exact if_pos hl

/-- Without padding a finish checks the buffer next (R227, R230). -/
theorem exec_finishCommand_residual (hpad : s.modes.pad = .none) (hi : s.chn.iblen ≠ 0) :
    exec (finishCommand dir) s = .next (errState (emptyOut s) 2 7) := by
  refine exec_of_raise_in (e := .residual) ?_
  rw [← clearOut_eq_emptyOut]
  cases dir with
  | enc =>
    rw [finishCommand, ruleOf, chnFineRule, show chnCheck .dec (clearOut s) = none from hc]
    exact (if_pos hpad).trans (if_pos hi)
  | dec =>
    rw [finishCommand, ruleOf, chnFindRule, show chnCheck .enc (clearOut s) = none from hc]
    exact (if_pos hpad).trans (if_pos hi)

end

/-- Settles O31: the common checks in their order, then each command's own. -/
theorem chainingErrorsInOrder : Obligations.ChainingErrorsInOrder := by
  intro s dir l nc i hi other
  have hother : other = dir.otherPhase := by cases dir <;> rfl
  rw [hother]
  refine ⟨fun hk => exec_of_chnCheck hi (chnCheck_unkeyed _ hk),
    fun hk hp => exec_of_chnCheck hi (chnCheck_failed hk _ hp),
    fun hk hp => exec_of_chnCheck hi (chnCheck_otherDirection hk dir hp), fun hk hfailed hp => ?_⟩
  have hc : chnCheck dir.otherPhase s = none := (chnCheck_none_iff _ s).mpr ⟨hk, hfailed, hp⟩
  constructor
  · rintro rfl hl
    exact exec_dataCommand_tooLong hc nc hl
  · rintro rfl hpad hibuf
    exact exec_finishCommand_residual hc hpad hibuf

/-! ### The causes of the GCM commands -/

/-- The cause that keeps a session from opening (R320). -/
def sessionCause (s : State) : Option CmdError :=
  if s.gcm.gph ≠ .config then none
  else if s.key.keyed = false then some .notKeyed
  else if s.gcm.givset = false then some .gcmNoIv
  else none

/-- The first cause that applies to a GCM data or finish command, one list in the order of R405 for the five commands; `l`
is the length of its chunk, if it carries one. `ruleOf_gcmCause` ties it to the rules. -/
def gcmCause (l : Nat) (i : Instr) (s : State) : Option CmdError :=
  if s.params.bs ≠ .sixteen then some .gcmBlocksize
  else if (i = .gcmAad l ∨ i = .gcmEnc l ∨ i = .gcmDec l) ∧ l > 16 then some .dataLength
  else if s.gcm.gph = .done then some .gcmDone
  else if i = .gcmAad l ∧ s.gcm.gph = .data then some .gcmAadLate
  else if i = .gcmAad l ∧ s.gcm.aadpart = true then some .gcmAadClosed
  else if ((i = .gcmEnc l ∨ i = .gcmFine) ∧ s.gcm.gdir = .dec) ∨ ((i = .gcmDec l ∨ i = .gcmFind) ∧ s.gcm.gdir = .enc) then
    some .direction
  else if (i = .gcmEnc l ∨ i = .gcmDec l) ∧ s.gcm.dpart = true then some .gcmDataClosed
  else sessionCause s

/-- The refusal of a list of causes, check by check; `apply_ite` at this function, which `simp` can use. -/
theorem elim_ite {c : Prop} [Decidable c] (o o' : Option CmdError) (r : Run) (f : CmdError → Run) :
    (if c then o else o').elim r f = if c then o.elim r f else o'.elim r f :=
  apply_ite (Option.elim · r f) c o o'

/-- A command that opens the session raises the cause that keeps it from opening, if any, in the state as it is. -/
theorem withSession_cause (s : State) (k : State → Run) : ∃ r, withSession s k = (sessionCause s).elim r (raise s) := by
  rcases withSession_cases s k with ⟨hc, hk, h⟩ | ⟨hc, hk, hi, h⟩ | ⟨t, ⟨hc, hk, hi, -⟩ | ⟨hc, -⟩, h⟩ <;> rw [h]
  · exact ⟨k s, by simp [sessionCause, hc, hk]⟩
  · exact ⟨k s, by simp [sessionCause, hc, hk, hi]⟩
  · exact ⟨k t, by simp [sessionCause, hc, hk, hi]⟩
  · exact ⟨k t, by simp [sessionCause, hc]⟩

/-- Each of the five commands raises its first cause and leaves only the emptied output. -/
theorem ruleOf_gcmCause {l : Nat} {i : Instr} (s : State)
    (hi : i = .gcmAad l ∨ i = .gcmEnc l ∨ i = .gcmDec l ∨ i = .gcmFine ∨ i = .gcmFind) :
    ∃ r, ruleOf i s = (gcmCause l i s).elim r (raise (clearOut s)) := by
  have hsession : sessionCause (clearOut s) = sessionCause s := rfl
  rcases hi with rfl | rfl | rfl | rfl | rfl
  · obtain ⟨r, h⟩ := withSession_cause (clearOut s) fun t => succeed (absorbAad l t)
    exact ⟨r, by simp [ruleOf, gcmAadRule, h, hsession, gcmCause, elim_ite, bsz_eq_sixteen]⟩
  · obtain ⟨r, h⟩ := withSession_cause (clearOut s) fun t => succeed (cryptData .enc l t)
    exact ⟨r, by simp [ruleOf, gcmDataRule, Dir.otherGcmDir, h, hsession, gcmCause, elim_ite, bsz_eq_sixteen]⟩
  · obtain ⟨r, h⟩ := withSession_cause (clearOut s) fun t => succeed (cryptData .dec l t)
    exact ⟨r, by simp [ruleOf, gcmDataRule, Dir.otherGcmDir, h, hsession, gcmCause, elim_ite, bsz_eq_sixteen]⟩
  · obtain ⟨r, h⟩ := withSession_cause (clearOut s) produceTag
    exact ⟨r, by simp [ruleOf, gcmFineRule, h, hsession, gcmCause, elim_ite, bsz_eq_sixteen]⟩
  · obtain ⟨r, h⟩ := withSession_cause (clearOut s) compareTag
    exact ⟨r, by simp [ruleOf, gcmFindRule, h, hsession, gcmCause, elim_ite, bsz_eq_sixteen]⟩

/-- What such a cause makes of the command, as the statements write it. -/
theorem exec_of_gcmCause {l : Nat} {i : Instr} {s : State} {e : CmdError}
    (hi : i = .gcmAad l ∨ i = .gcmEnc l ∨ i = .gcmDec l ∨ i = .gcmFine ∨ i = .gcmFind) (h : gcmCause l i s = some e) :
    exec i s = .next (errState (emptyOut s) e.ecode e.edet) := by
  obtain ⟨r, hr⟩ := ruleOf_gcmCause s hi
  exact exec_of_raise_in (by rw [hr, h, clearOut_eq_emptyOut]; rfl)

/-- Settles O49: each clause is one line of `gcmCause`, whose lines before it do not apply. -/
theorem gcmErrorsInOrder : Obligations.GcmErrorsInOrder := by
  intro s l i hi carriesData tooLong otherDir closed
  refine ⟨fun hb => ?_, fun hb hlong => ?_, fun hb hlong hph => ?_, fun hb hlong hph haad => ?_,
    fun hb hlong hdone hdata haad hpart => ?_, fun hb hlong hdone hdir => ?_, fun hb hlong hdone hdir hclosed => ?_,
    fun hb hlong hph hdir hclosed hpart => ?_⟩
  · refine exec_of_gcmCause (e := .gcmBlocksize) hi ?_
    rw [gcmCause, if_pos hb]
  · refine exec_of_gcmCause (e := .dataLength) hi ?_
    rw [gcmCause, if_neg (not_not.mpr hb), if_pos hlong]
  · refine exec_of_gcmCause (e := .gcmDone) hi ?_
    rw [gcmCause, if_neg (not_not.mpr hb), if_neg hlong, if_pos hph]
  · refine exec_of_gcmCause (e := .gcmAadLate) hi ?_
    rw [gcmCause, if_neg (not_not.mpr hb), if_neg hlong, if_neg (by simp [hph]), if_pos ⟨haad, hph⟩]
  · refine exec_of_gcmCause (e := .gcmAadClosed) hi ?_
    rw [gcmCause, if_neg (not_not.mpr hb), if_neg hlong, if_neg hdone, if_neg fun h => hdata h.2,
      if_pos ⟨haad, hpart⟩]
  · refine exec_of_gcmCause (e := .direction) hi ?_
    have haad : i ≠ .gcmAad l := by
      rintro rfl
      simp [otherDir] at hdir
    rw [gcmCause, if_neg (not_not.mpr hb), if_neg hlong, if_neg hdone, if_neg fun h => haad h.1,
      if_neg fun h => haad h.1, if_pos hdir]
  · refine exec_of_gcmCause (e := .gcmDataClosed) hi ?_
    have haad : i ≠ .gcmAad l := by
      rintro rfl
      simp [closed] at hclosed
    rw [gcmCause, if_neg (not_not.mpr hb), if_neg hlong, if_neg hdone, if_neg fun h => haad h.1,
      if_neg fun h => haad h.1, if_neg hdir, if_pos hclosed]
  · have hsession : gcmCause l i s = sessionCause s := by
      rw [gcmCause, if_neg (not_not.mpr hb), if_neg hlong, if_neg (by simp [hph]), if_neg (by simp [hph]),
        if_neg fun h => absurd h.2 (by simp [hpart h.1]), if_neg hdir, if_neg hclosed]
    refine ⟨fun hk => exec_of_gcmCause (e := .notKeyed) hi ?_, fun hk hiv => exec_of_gcmCause (e := .gcmNoIv) hi ?_⟩
    · simp [hsession, sessionCause, hph, hk]
    · simp [hsession, sessionCause, hph, hk, hiv]

end Sys2Proof.Machine
end

section
/-! PROOFS. The reset input and the accesses while BUSY = 1 (70_reset_and_hazards.md R450, R472, R473): whose turn a step is
under reset and what an event does there, and what a busy write and a busy read do at each kind of register. -/

namespace Sys2Proof.Machine

/-! ### The reset input -/

section
variable {s : State} {rest : List Input}

/-- Under reset no command runs, so the oldest event happens, early or not (R450). -/
theorem step_of_event_inReset {early : Bool} {e : Event} (hreset : s.env.inReset = true)
    (hin : s.env.inputs = { early := early, event := e } :: rest) :
    step s = applyEvent e { s with env := { s.env with inputs := rest } } := by
  have hm : engineMoves s = false := by simp [engineMoves, hreset]
  simp [step, hm, hostStep, hin]

variable {off : Nat} (hreset : s.env.inReset = true) (hoff : off < 0x400) (h4 : off % 4 = 0)

include hreset hoff h4

theorem applyEvent_read_inReset :
    applyEvent (.read (s.params.base + off) 4) s = .next { s with env := { s.env with rdata := 0 } } := by
  obtain ⟨hw, hs⟩ := access_ok s off hoff h4
  simp [applyEvent, hw, hs, hreset]

theorem applyEvent_write_inReset (v : Word) : applyEvent (.write (s.params.base + off) 4 v) s = .next s := by
  obtain ⟨hw, hs⟩ := access_ok s off hoff h4
  simp [applyEvent, hw, hs, hreset]

end

/-- Settles O12: an assertion takes its turn as any early event does; from then on every event takes its turn. -/
theorem resetInputResetsEverything : Obligations.ResetInputResetsEverything := by
  refine ⟨fun s early rest hin hturn => ?_, fun s early off rest hoff h4 hreset => ⟨fun hin => ?_, fun v hin => ?_⟩,
    fun s early rest hreset hin => ?_⟩
  · rw [step_of_event hin hturn]
    rfl
  · rw [step_of_event_inReset hreset hin]
    exact applyEvent_read_inReset (s := { s with env := { s.env with inputs := rest } }) hreset hoff h4
  · rw [step_of_event_inReset hreset hin]
    exact applyEvent_write_inReset (s := { s with env := { s.env with inputs := rest } }) hreset hoff h4 v
  · rw [step_of_event_inReset hreset hin]
    rfl

/-! ### Writes while BUSY = 1 -/

/-- The offsets of the registers the host writes: CMD, KEYBUF and those it reads back (R81). -/
theorem covers_writable {off : Nat} (h : off = 0x004 ∨ off = 0x014 ∨ (0x020 ≤ off ∧ off < 0x030) ∨
    (0x040 ≤ off ∧ off < 0x050) ∨ (0x060 ≤ off ∧ off < 0x100) ∨ (0x120 ≤ off ∧ off < 0x140)) :
    ∃ r : WinReg, r.Covers off ∧ r.row.access ≠ .ro := by
  by_cases hcmd : off = 0x004
  · exact ⟨.cmd, by subst hcmd; decide, by decide⟩
  · by_cases hkey : 0x060 ≤ off ∧ off < 0x080
    · exact ⟨.keybuf, hkey, by decide⟩
    · obtain ⟨r, hr, ha⟩ := covers_readWrite (off := off) (by omega)
      exact ⟨r, hr, by simp [ha]⟩

/-- Settles O19: the register the offset lies in is not read-only, so the write sets OVR and does nothing else. -/
theorem busyWriteIsDropped : Obligations.BusyWriteIsDropped := by
  intro s off v rest hreset hb h4 hin hwritable
  obtain ⟨r, hr, ha⟩ := covers_writable hwritable
  rw [step_hostWrite hreset (by omega) h4 (.inr rfl) hin, writeWord_of_busy v hr ha hb]

/-! ### Reads while BUSY = 1 -/

theorem busyStatusWord_busy (s : State) (free : Word) : (busyStatusWord s free).getLsbD 0 = true := by
  simp [busyStatusWord]

theorem busyStatusWord_ovr (s : State) (free : Word) : (busyStatusWord s free).getLsbD 2 = s.status.ovr := by
  cases h : s.status.ovr <;> simp [busyStatusWord, h]

theorem busyReadWord_id (s : State) (free : Word) : busyReadWord s 0x000 free = idWord := rfl

theorem busyReadWord_status (s : State) (free : Word) : busyReadWord s 0x008 free = busyStatusWord s free := rfl

theorem readWord_eq_busy {s : State} (hb : s.status.busy = true) (off : Nat) :
    readWord s off = busyReadWord s off (Config.busyRead s.env.freeCtr) :=
  if_pos hb

/-- Settles O20: the read takes its turn as an early event, and its word is the busy one of its offset. -/
theorem busyReadShowsBusyAndOverrun : Obligations.BusyReadShowsBusyAndOverrun := by
  intro s off rest hreset hb hoff h4 hin
  refine ⟨busyReadWord s off (Config.busyRead s.env.freeCtr), ?_, ?_, ?_⟩
  · rw [step_hostRead hreset hoff h4 (.inr rfl) hin, readWord_eq_busy hb, afterRead, if_pos hb]
  · rintro rfl
    exact busyReadWord_id s _
  · rintro rfl
    rw [busyReadWord_status]
    exact ⟨busyStatusWord_busy s _, busyStatusWord_ovr s _⟩

end Sys2Proof.Machine
end
